-- ==== Sys2Proof/Word.lean ====
section
/-!
DEFINITION. The bit-vector types of DSPF-CORE: what the spec numbers bit by bit (R9). Quantities the spec computes on
as mathematical integers (R10) are `Int` or `Nat` elsewhere; these types are register and storage contents.
-/
namespace Sys2Proof

/-- One byte of a RAM window (R102). -/
abbrev Byte := BitVec 8
/-- A 16-bit storage pattern: a Sample as `bits_16` (R10), a gain, a coefficient. -/
abbrev Half := BitVec 16
/-- A 32-bit bus word or register (R100). -/
abbrev Word := BitVec 32
/-- A 64-bit register: a binary64 pattern (R14) or a counter value (R76). -/
abbrev DWord := BitVec 64

end Sys2Proof
end

