-- ==== Sys2Proof/Syntax.lean ====
section
/-!
DEFINITION. The commands of DSPF-CORE: one constructor per row of the opcode map (R134). A command carries exactly the
fields its row uses (R131): `UNIT` as the 4-bit field it is, `IMM` as the 16-bit field it is; its other operands are
implicit registers (R133). Which units are legal is WellFormed's.
-/
namespace Sys2Proof

/-- The command set (R134). -/
inductive Instr where
  /-- `NOP` (R640). -/
  | nop
  /-- `ACC.SET imm` (R210). -/
  | accSet (imm : Half)
  /-- `ACC.MAC` (R211). -/
  | accMac
  /-- `ACC.OUT` (R212). -/
  | accOut
  /-- `SATI` (R213). -/
  | sati
  /-- `SATF` (R214). -/
  | satf
  /-- `MULQ15` (R215). -/
  | mulq15
  /-- `DL.WRITE u` (R256). -/
  | dlWrite (u : BitVec 4)
  /-- `DL.LATEST u` (R257). -/
  | dlLatest (u : BitVec 4)
  /-- `DL.READI u, imm` (R258). -/
  | dlReadi (u : BitVec 4) (imm : Half)
  /-- `DL.READR u` (R259). -/
  | dlReadr (u : BitVec 4)
  /-- `DL.CURSOR u` (R260). -/
  | dlCursor (u : BitVec 4)
  /-- `DL.RAW u, imm` (R262). -/
  | dlRaw (u : BitVec 4) (imm : Half)
  /-- `DL.CLEAR u` (R263). -/
  | dlClear (u : BitVec 4)
  /-- `FIR.STEP n` (R310). -/
  | firStep (n : BitVec 4)
  /-- `COMB.STEP k` (R370). -/
  | combStep (k : BitVec 4)
  /-- `AP.STEP k` (R371). -/
  | apStep (k : BitVec 4)
  /-- `REV.STEP` (R410). -/
  | revStep
  /-- `CH.STEP` (R470). -/
  | chStep
  /-- `OSC.STEP` (R520). -/
  | oscStep
  /-- `OSC.SETFREQ` (R521). -/
  | oscSetfreq
  /-- `PERF.START t` (R570). -/
  | perfStart (t : BitVec 4)
  /-- `PERF.STOP t` (R571). -/
  | perfStop (t : BitVec 4)
  /-- `PERF.CLEAR t` (R572). -/
  | perfClear (t : BitVec 4)
  /-- `PERF.CALIBRATE` (R573). -/
  | perfCalibrate
  /-- `DIAG.RESET` (R574). -/
  | diagReset
  /-- `PROCESS` (R600). -/
  | process
  deriving DecidableEq, Repr

end Sys2Proof
end

