-- ==== Sys2Proof/WellFormed.lean ====
section
/-!
DEFINITION. Which commands are legal: the unit number of a command that uses `UNIT` lies in its opcode's range (R136).
-/
namespace Sys2Proof

/-- The unit field of a command, with the number of units its opcode has (R136); none where `UNIT` is unused (R131). -/
def Instr.unitRange : Instr → Option (BitVec 4 × Nat)
  | .nop => none
  | .accSet _ => none
  | .accMac => none
  | .accOut => none
  | .sati => none
  | .satf => none
  | .mulq15 => none
  | .dlWrite u => some (u, 9)
  | .dlLatest u => some (u, 9)
  | .dlReadi u _ => some (u, 9)
  | .dlReadr u => some (u, 9)
  | .dlCursor u => some (u, 9)
  | .dlRaw u _ => some (u, 9)
  | .dlClear u => some (u, 9)
  | .firStep n => some (n, 2)
  | .combStep k => some (k, 4)
  | .apStep k => some (k, 2)
  | .revStep => none
  | .chStep => none
  | .oscStep => none
  | .oscSetfreq => none
  | .perfStart t => some (t, 2)
  | .perfStop t => some (t, 2)
  | .perfClear t => some (t, 2)
  | .perfCalibrate => none
  | .diagReset => none
  | .process => none

/-- A command is well formed when the unit it names exists (R136). -/
def Instr.wellFormed (i : Instr) : Bool :=
  match i.unitRange with
  | none => true
  | some (u, n) => u.toNat < n

end Sys2Proof
end

