-- ==== Sys2Proof/Decode.lean ====
section
/-!
DEFINITION. Command words (R130 to R142): the four fields of a word, the opcode map, the decoder with the checks of
R140 in their order (all but the busy check, which the command port makes first), and the encoder.
-/
namespace Sys2Proof

/-- `OPC`, bits 31:24 (R130). -/
def opcOf (w : Word) : BitVec 8 := w.extractLsb' 24 8
/-- `UNIT`, bits 23:20 (R130). -/
def unitOf (w : Word) : BitVec 4 := w.extractLsb' 20 4
/-- `RSV`, bits 19:16 (R130). -/
def rsvOf (w : Word) : BitVec 4 := w.extractLsb' 16 4
/-- `IMM`, bits 15:0 (R130). -/
def immOf (w : Word) : Half := w.extractLsb' 0 16

/-- The word with the given fields and `RSV = 0` (R130). -/
def mkWord (opc : BitVec 8) (unit : BitVec 4) (imm : Half) : Word := opc ++ unit ++ 0#4 ++ imm

/-- Why a command word is rejected before it is accepted (R140, R701). -/
inductive Reject where
  /-- `ILLEGAL_OPCODE`: `OPC` is in no row. -/
  | illegalOpcode
  /-- `RESERVED_FIELD`: `RSV`, or a field the row does not use, is nonzero. -/
  | reservedField
  /-- `ILLEGAL_UNIT`: `UNIT` is above the row's range. -/
  | illegalUnit
  deriving DecidableEq, Repr

/-- What a row of the opcode map says of its word (R134, R136): which fields it uses, and the command it stands for. -/
structure Row where
  /-- The number of units, or none where `UNIT` must be 0. -/
  units : Option Nat
  /-- Whether `IMM` is used. -/
  usesImm : Bool
  /-- The command that the word's `UNIT` and `IMM` select. -/
  build : BitVec 4 → Half → Instr

/-- A row that uses neither field. -/
def plainRow (i : Instr) : Row := ⟨none, false, fun _ _ => i⟩
/-- A row that uses `UNIT` alone, with `n` units. -/
def unitRow (n : Nat) (f : BitVec 4 → Instr) : Row := ⟨some n, false, fun u _ => f u⟩

/-- The opcode map (R134): the row whose `OPC` is the given code; none for the codes of R141. -/
def rowOf (opc : BitVec 8) : Option Row :=
  match opc.toNat with
  | 0x00 => some (plainRow .nop)
  | 0x10 => some ⟨none, true, fun _ imm => .accSet imm⟩
  | 0x11 => some (plainRow .accMac)
  | 0x12 => some (plainRow .accOut)
  | 0x13 => some (plainRow .sati)
  | 0x14 => some (plainRow .satf)
  | 0x15 => some (plainRow .mulq15)
  | 0x20 => some (unitRow 9 .dlWrite)
  | 0x21 => some (unitRow 9 .dlLatest)
  | 0x22 => some ⟨some 9, true, .dlReadi⟩
  | 0x23 => some (unitRow 9 .dlReadr)
  | 0x24 => some (unitRow 9 .dlCursor)
  | 0x25 => some ⟨some 9, true, .dlRaw⟩
  | 0x26 => some (unitRow 9 .dlClear)
  | 0x30 => some (unitRow 2 .firStep)
  | 0x40 => some (unitRow 4 .combStep)
  | 0x41 => some (unitRow 2 .apStep)
  | 0x48 => some (plainRow .revStep)
  | 0x50 => some (plainRow .chStep)
  | 0x58 => some (plainRow .oscStep)
  | 0x59 => some (plainRow .oscSetfreq)
  | 0x60 => some (unitRow 2 .perfStart)
  | 0x61 => some (unitRow 2 .perfStop)
  | 0x62 => some (unitRow 2 .perfClear)
  | 0x63 => some (plainRow .perfCalibrate)
  | 0x64 => some (plainRow .diagReset)
  | 0x70 => some (plainRow .process)
  | _ => none

/-- Whether a word's `UNIT` field, used by the row with `n` units, names no unit (R136). -/
def unitBeyond (units : Option Nat) (u : BitVec 4) : Bool :=
  match units with
  | none => false
  | some n => n ≤ u.toNat

/-- Decoding of a command word (R140 after its busy check): the first check that fails names the rejection. -/
def decode (w : Word) : Except Reject Instr :=
  match rowOf (opcOf w) with
  | none => .error .illegalOpcode
  | some row =>
    if rsvOf w ≠ 0#4 then .error .reservedField
    else if row.units = none ∧ unitOf w ≠ 0#4 then .error .reservedField
    else if row.usesImm = false ∧ immOf w ≠ 0#16 then .error .reservedField
    else if unitBeyond row.units (unitOf w) then .error .illegalUnit
    else .ok (row.build (unitOf w) (immOf w))

/-- The word of a command (R134, R145: `OPC` from the mnemonic, unused fields 0). -/
def encode : Instr → Word
  | .nop => mkWord 0x00 0 0
  | .accSet imm => mkWord 0x10 0 imm
  | .accMac => mkWord 0x11 0 0
  | .accOut => mkWord 0x12 0 0
  | .sati => mkWord 0x13 0 0
  | .satf => mkWord 0x14 0 0
  | .mulq15 => mkWord 0x15 0 0
  | .dlWrite u => mkWord 0x20 u 0
  | .dlLatest u => mkWord 0x21 u 0
  | .dlReadi u imm => mkWord 0x22 u imm
  | .dlReadr u => mkWord 0x23 u 0
  | .dlCursor u => mkWord 0x24 u 0
  | .dlRaw u imm => mkWord 0x25 u imm
  | .dlClear u => mkWord 0x26 u 0
  | .firStep n => mkWord 0x30 n 0
  | .combStep k => mkWord 0x40 k 0
  | .apStep k => mkWord 0x41 k 0
  | .revStep => mkWord 0x48 0 0
  | .chStep => mkWord 0x50 0 0
  | .oscStep => mkWord 0x58 0 0
  | .oscSetfreq => mkWord 0x59 0 0
  | .perfStart t => mkWord 0x60 t 0
  | .perfStop t => mkWord 0x61 t 0
  | .perfClear t => mkWord 0x62 t 0
  | .perfCalibrate => mkWord 0x63 0 0
  | .diagReset => mkWord 0x64 0 0
  | .process => mkWord 0x70 0 0

/-- The command the decoder reads from the opcode table's numbering of a word: a command is one 32-bit bus word whose
bit 0 is bit 0 (R9, R130); bits at or above `nbits` are 0. -/
def decodeTableWord (nbits w : Nat) : Option Instr :=
  match decode (BitVec.ofNat 32 (w % 2 ^ nbits)) with
  | .ok i => some i
  | .error _ => none

end Sys2Proof
end

