-- ==== Sys2Proof/Config.lean ====
section
/-!
DEFINITION. What a build of DSPF-CORE fixes (R7, R8), and the free values: the draws of R16, which no rule fixes.
The parameters are a structure of plain numbers that State carries and no step changes, so a statement about every
state is a statement about every build (R7: "A model takes each one marked OPEN as an argument"). The free values are
constants without a body: nothing in Lean can evaluate them.
-/
namespace Sys2Proof

/-- The build parameters of R7, in its order. `FS = 44100` and `SW = 16` are fixed by the spec and are no parameters. -/
structure Params where
  /-- `ACC_WIDTH`, bits of every accumulator. -/
  accWidth : Nat
  /-- `M` (`DL_MIRROR`), overrun mirror slots per delay line. -/
  mirror : Nat
  /-- `FIR_MAX_TAPS`, words of each coefficient RAM. -/
  firMaxTaps : Nat
  /-- `FIR_LEN_A`. -/
  firLenA : Nat
  /-- `FIR_LEN_B`. -/
  firLenB : Nat
  /-- `COMB_LEN_0..3`. -/
  combLen : Vector Nat 4
  /-- `AP_LEN_0..1`. -/
  apLen : Vector Nat 2
  /-- `CH_LEN`. -/
  chLen : Nat
  /-- `MAX_FRAMES`, words of each frame buffer. -/
  maxFrames : Nat
  /-- `PERF_SAMPLES`, length of each timer's list. -/
  perfSamples : Nat
  /-- `WARMUP_BUFFERS`. -/
  warmupBuffers : Nat
  /-- `F_CLK`, Hz: the host's scale for cycle counts (R561); no rule of the block reads it. -/
  fClk : Nat
  /-- `BASE`, the byte address of the window. -/
  base : Nat
  deriving DecidableEq, Repr

/-- `DL[u].C`: the capacity of each of the nine delay lines (R70). -/
def Params.cap (p : Params) (u : Fin 9) : Nat :=
  match u with
  | 0 => p.firLenA
  | 1 => p.firLenB
  | 2 => p.combLen[0]
  | 3 => p.combLen[1]
  | 4 => p.combLen[2]
  | 5 => p.combLen[3]
  | 6 => p.apLen[0]
  | 7 => p.apLen[1]
  | 8 => p.chLen

/-- The ranges of R7 and R8: "A build whose parameters break this is not an implementation of this spec". -/
abbrev Params.Ok (p : Params) : Prop :=
  (32 ≤ p.accWidth ∧ p.accWidth ≤ 64) ∧
  1 ≤ p.mirror ∧
  (1 ≤ p.firMaxTaps ∧ p.firMaxTaps ≤ 1024) ∧
  p.firLenA ≤ p.firMaxTaps ∧ p.firLenB ≤ p.firMaxTaps ∧
  2 ≤ p.chLen ∧
  (∀ u : Fin 9, 1 ≤ p.cap u ∧ p.cap u + p.mirror ≤ 65536) ∧
  (256 ≤ p.maxFrames ∧ p.maxFrames ≤ 16384) ∧
  (1 ≤ p.perfSamples ∧ p.perfSamples ≤ 256) ∧
  p.warmupBuffers ≤ 65535 ∧
  p.base % 0x40000 = 0

/-- The reference build: the spec's defaults, and for each OPEN parameter a value of the model's (DESIGN CHOICE, unsafe
for a statement about reset alone, notes/assumptions/1.md): the capacities of vectors V-FIR-1, V-REV-1 and V-CH-1 and
the counts of R625. -/
def Config.reference : Params where
  accWidth := 40
  mirror := 7
  firMaxTaps := 1024
  firLenA := 4
  firLenB := 4
  combLen := #v[3, 5, 7, 11]
  apLen := #v[2, 3]
  chLen := 8
  maxFrames := 4096
  perfSamples := 2
  warmupBuffers := 2
  fClk := 1000000
  base := 0

/-- What a read of `CYCLE` returns where that is not below the previous read, one free value per read (R76, R550; log 4). -/
opaque Config.freeCycleRead : Nat → DWord

/-- What a read, while busy, of state a `PROCESS` writes returns: any 32-bit value, one per read (R119; log 6). -/
opaque Config.freeBusyRead : Nat → Word

/-- What an unwritten RAM byte reads as: a free value per epoch and byte offset (R95, R109; log 5). -/
opaque Config.freeRamByte : Nat → Nat → Byte

end Sys2Proof
end

