-- ==== Sys2Proof/Machine/State.lean ====
section
/-!
DEFINITION. The state of DSPF-CORE (10_state.md) as plain data, the accesses its agents make (R23, R100, R800), the
reasons a step can stop, and the state after reset (R90, R800). One field per piece of state that INVENTORY.md lists;
views (STATUS, IRQ, the timer registers) are functions elsewhere, so that nothing is stored twice.
-/
namespace Sys2Proof.Machine

/-- The processing modes (R63): the values 0 to 4 of `MODE` in this order. -/
inductive Mode where
  | stopped | passThrough | filter | sineGenerator | test
  deriving DecidableEq, Repr

/-- The states of the diagnostic machine (R82): the values 0 to 3 of `STATUS.DIAG_STATE` in this order. -/
inductive DiagState where
  | warmingUp | samplingA | samplingB | settled
  deriving DecidableEq, Repr

/-- The error codes (R701): 0x00 to 0x09 in this order; no other code is ever written. -/
inductive ErrCode where
  | none | illegalOpcode | reservedField | illegalUnit | rawIndex | busyCmd | busyWrite | framesRange
  | busUnmapped | busMisaligned
  deriving DecidableEq, Repr

/-- A delay line (R70): its `C + M` slots, ring first and mirror after it, and its cursor. Its capacity is the build's. -/
structure DelayLine where
  buf : List Half
  cur : Nat
  deriving DecidableEq, Repr

/-- A timer (R79). -/
structure Timer where
  start : DWord
  running : Bool
  count : Nat
  samples : List Word
  deriving DecidableEq, Repr

/-- The oscillator's registers (R74), binary64 patterns. -/
structure Osc where
  w : DWord
  s0 : DWord
  s1 : DWord
  deriving DecidableEq, Repr

/-- The chorus registers (R75), binary64 patterns. -/
structure Chorus where
  sweep : DWord
  step : DWord
  min : DWord
  max : DWord
  mix : DWord
  deriving DecidableEq, Repr

/-- An accepted `PROCESS` that is not completed (R600): the mode it latched and its frame count. -/
structure Pending where
  mode : Mode
  frames : Nat
  deriving DecidableEq, Repr

/-- The two host agents (R23). -/
inductive Actor where
  | audio | control
  deriving DecidableEq, Repr

/-- What the agents outside the block do to it, one step each (R23, R100, R800, R803). -/
inductive Event where
  /-- A host read of `width` bytes at byte address `addr`. -/
  | read (actor : Actor) (addr width : Nat)
  /-- A host write of `width` bytes at byte address `addr`. -/
  | write (actor : Actor) (addr width : Nat) (value : Word)
  /-- The sequencer's turn: it completes the pending `PROCESS`, if there is one (R600, R830). -/
  | sequencer
  /-- The platform asserts and releases the power-on reset (R800). -/
  | powerOn
  deriving DecidableEq, Repr

/-- What a host read returned, and to which actor (R840: "the list of values the host's reads returned"). -/
structure Reply where
  actor : Actor
  value : Word
  deriving DecidableEq, Repr

/-- Why the machine stops. -/
inductive Fault where
  /-- Raised by a bus access whose address lies outside the window `[BASE, BASE + 0x3FFFF]` (R100): it is no access to
  this block. Safe: the block's own state is not concerned, and the model says nothing further. -/
  | outsideWindow
  deriving DecidableEq, Repr

/-- Why an instruction has no meaning. -/
inductive Refusal where
  /-- Raised by `exec` for an instruction not modelled yet. Safe: nothing is claimed of it. No instruction is left so. -/
  | notModelled (mnemonic : String)
  deriving DecidableEq, Repr

/-- The state of the block (10_state.md), with the build it is of, the accesses still to be served, and the model's
own counters for free values. -/
structure State where
  /-- The build parameters (R7); no step changes them. -/
  params : Params
  /-- `OPA`, `OPB` (R50). -/
  opa : Word
  opb : Word
  /-- `RES` (R52). -/
  res : Word
  /-- `FOPA`, `FOPB` (R53). -/
  fopa : DWord
  fopb : DWord
  /-- `ACC`, a signed integer of `ACC_WIDTH` bits (R54). -/
  acc : Int
  /-- `CMD`, the last accepted command word (R55). -/
  cmd : Word
  /-- `INT_STATUS.DONE`, `INT_STATUS.ERR` (R59). -/
  intDone : Bool
  intErr : Bool
  /-- `INT_EN.DONE_EN`, `INT_EN.ERR_EN` (R60). -/
  doneEn : Bool
  errEn : Bool
  /-- `ERR_CODE` (R61), `ERR_INFO` (R62). -/
  errCode : ErrCode
  errInfo : Word
  /-- `MODE` (R63), `STATUS.MODE_LATCHED` (R64). -/
  mode : Mode
  modeLatched : Mode
  /-- The `PROCESS` in progress; `STATUS.BUSY` is 1 exactly while there is one (R84, R600). -/
  pending : Option Pending
  /-- `FRAMES` (R65). -/
  frames : BitVec 16
  /-- `IN_FLAGS.SILENT` (R66), `OUT_FLAGS.SILENT` (R67). -/
  inSilent : Bool
  outSilent : Bool
  /-- `GAIN_COMB0..3`, `GAIN_AP0..1` (R68). -/
  gainComb : Vector Half 4
  gainAp : Vector Half 2
  /-- `FILT_THRESH`, `FILT_DIFF` (R69). -/
  filtThresh : Word
  filtDiff : Word
  /-- The nine delay lines (R70). -/
  lines : Vector DelayLine 9
  /-- The oscillator (R74) and the chorus registers (R75). -/
  osc : Osc
  chorus : Chorus
  /-- `CYCLE` as last read (R76, R550); `CYCLE_SHADOW` (R77). -/
  cycle : DWord
  cycleShadow : Word
  /-- `PERF_CAL` (R78). -/
  perfCal : Word
  /-- `T0`, `T1` (R79). -/
  timers : Vector Timer 2
  /-- `PERF_FRAMES` (R81). -/
  perfFrames : Word
  /-- `DIAG_STATE`, `DIAG_COUNT` (R82). -/
  diagState : DiagState
  diagCount : BitVec 16
  /-- The RAM windows `COEF_A`, `COEF_B`, `IN_BUF`, `OUT_BUF` (R73, R83): bytes by offset in the window, offsets strictly
  rising; an unlisted byte is unwritten (R95). -/
  mem : List Host.Cell
  /-- The accesses and agent moves still to be served, oldest first (R115, R830; the model's own, log 2). -/
  inbox : List Event
  /-- What the host's reads returned, newest first (R840; the model's own, log 3). -/
  readLog : List Reply
  /-- How many free values `CYCLE` reads and reads while busy have taken (the model's own, log 4 and 6). -/
  draws : Nat
  /-- Which free contents the unwritten RAM bytes have now (the model's own, log 5). -/
  ramEpoch : Nat
  deriving DecidableEq, Repr

/-- A delay line in its initial state: "all samples zero", cursor 0 (R90, R263). -/
def DelayLine.cleared (capacity mirror : Nat) : DelayLine := ⟨List.replicate (capacity + mirror) 0#16, 0⟩

/-- A timer in its initial state (R90, R554). -/
def Timer.cleared (perfSamples : Nat) : Timer := ⟨0#64, false, 0, List.replicate perfSamples 0#32⟩

/-- The state of a given build right after power-on reset (R90, R800): the RAM words unwritten (R95), nothing pending,
no access delivered yet. -/
def State.resetOf (p : Params) : State where
  params := p
  opa := 0#32
  opb := 0#32
  res := 0#32
  fopa := 0#64
  fopb := 0#64
  acc := 0
  cmd := 0#32
  intDone := false
  intErr := false
  doneEn := false
  errEn := false
  errCode := .none
  errInfo := 0#32
  mode := .stopped
  modeLatched := .stopped
  pending := none
  frames := 0#16
  inSilent := false
  outSilent := false
  gainComb := Vector.replicate 4 0#16
  gainAp := Vector.replicate 2 0#16
  filtThresh := 0xFFFFFFFF#32
  filtDiff := 0#32
  lines := Vector.ofFn fun u => DelayLine.cleared (p.cap u) p.mirror
  osc := ⟨0#64, 0#64, 0#64⟩
  chorus := ⟨0#64, 0#64, 0#64, 0#64, 0#64⟩
  cycle := 0#64
  cycleShadow := 0#32
  perfCal := 0#32
  timers := Vector.replicate 2 (Timer.cleared p.perfSamples)
  perfFrames := 0#32
  diagState := .warmingUp
  diagCount := 0#16
  mem := []
  inbox := []
  readLog := []
  draws := 0
  ramEpoch := 0

/-- The state right after power-on reset, of the reference build (R90; notes/assumptions/1.md). -/
def State.reset : State := State.resetOf Config.reference

end Sys2Proof.Machine
end

