-- ==== Sys2Proof/Machine/Operands.lean ====
section
/-!
DEFINITION. The numbers of the spec and the operand forms of its commands: sign extension and bit patterns (R10), the
arithmetic shift (R11), the saturations (R12, R13), the Q15 multiply (R19), frame words (R21, R22), the implicit
register operands (R133) and the unit numbers (R136). All of it computes on exact integers (R200).
-/
namespace Sys2Proof.Machine

/-- `sext_16`: the two's-complement value of a 16-bit pattern (R10). -/
def sext16 (v : Half) : Int := v.toInt
/-- `sext_32` (R10). -/
def sext32 (v : Word) : Int := v.toInt
/-- `bits_16` of an integer (R10). -/
def bits16 (i : Int) : Half := BitVec.ofInt 16 i
/-- `bits_32` of an integer (R10). -/
def bits32 (i : Int) : Word := BitVec.ofInt 32 i
/-- `bits_64` of an integer (R10, R54). -/
def bits64 (i : Int) : DWord := BitVec.ofInt 64 i

/-- `asr(v, k) = floor(v / 2^k)` (R11): the division of Lean's integers rounds down for a positive divisor. -/
def asr (v : Int) (k : Nat) : Int := v / 2 ^ k

/-- `clamp(v, lo, hi)` (R12). -/
def clamp (v lo hi : Int) : Int := if v < lo then lo else if hi < v then hi else v

/-- `sat16`, the saturation of a Sample (R12). -/
def sat16 (v : Int) : Int := clamp v (-32768) 32767

/-- `satA`, the saturation of an accumulator of `width` bits (R13). -/
def satA (width : Nat) (v : Int) : Int := clamp v (-(2 ^ (width - 1))) (2 ^ (width - 1) - 1)

/-- `mulQ15(a, b) = asr(a * b, 15)`, not saturated (R19). -/
def mulQ15 (a b : Int) : Int := asr (a * b) 15

/-- `RND`, the FIR rounding constant (R20). -/
def rnd : Int := 16384

/-- `mono(word)`: the left channel (R21). -/
def mono (w : Word) : Int := sext16 (w.extractLsb' 0 16)

/-- `stereo(s)`: a frame word with the Sample on both channels (R21, R22). -/
def stereo (s : Int) : Word := bits16 s ++ bits16 s

/-- `min(e, 2^32 - 1)` of an elapsed cycle count, as a 32-bit word (R553, R573). -/
def satCycles (e : DWord) : Word := BitVec.ofNat 32 (min e.toNat (2 ^ 32 - 1))

/-- The Sample operand `x = sext_16(OPA[15:0])` (R133). -/
def opaSample (s : State) : Int := sext16 (s.opa.extractLsb' 0 16)
/-- The second Sample operand `y = sext_16(OPB[15:0])` (R133). -/
def opbSample (s : State) : Int := sext16 (s.opb.extractLsb' 0 16)
/-- The 32-bit signed operand `sext_32(OPA)` (R133). -/
def opaInt (s : State) : Int := sext32 s.opa

/-- The unit that a `UNIT` field names among `n` (R136). -/
def unitIndex (n : Nat) (u : BitVec 4) : Option (Fin n) :=
  if h : u.toNat < n then some ⟨u.toNat, h⟩ else none

/-- The delay line of FIR `n` (R70). -/
def firLine (n : Fin 2) : Fin 9 := ⟨n.val, by omega⟩
/-- The delay line of comb `k`: `u = 2 + k` (R350). -/
def combLine (k : Fin 4) : Fin 9 := ⟨2 + k.val, by omega⟩
/-- The delay line of allpass `k`: `u = 6 + k` (R351). -/
def apLine (k : Fin 2) : Fin 9 := ⟨6 + k.val, by omega⟩
/-- The chorus delay line (R70). -/
def chorusLine : Fin 9 := 8

/-- The 32-bit value of a mode (R63). -/
def modeNumber : Mode → Nat
  | .stopped => 0
  | .passThrough => 1
  | .filter => 2
  | .sineGenerator => 3
  | .test => 4

/-- The mode a `MODE` write stores; none for a value that is ignored (R63). -/
def modeOfWord (v : Word) : Option Mode :=
  match v.toNat with
  | 0 => some .stopped
  | 1 => some .passThrough
  | 2 => some .filter
  | 3 => some .sineGenerator
  | 4 => some .test
  | _ => none

/-- The value of `DIAG_STATE` (R82). -/
def diagNumber : DiagState → Nat
  | .warmingUp => 0
  | .samplingA => 1
  | .samplingB => 2
  | .settled => 3

/-- The 8-bit error code (R701). -/
def errNumber : ErrCode → Nat
  | .none => 0x00
  | .illegalOpcode => 0x01
  | .reservedField => 0x02
  | .illegalUnit => 0x03
  | .rawIndex => 0x04
  | .busyCmd => 0x05
  | .busyWrite => 0x06
  | .framesRange => 0x07
  | .busUnmapped => 0x08
  | .busMisaligned => 0x09

/-- The error that a rejected command word records (R140, R701). -/
def rejectError : Reject → ErrCode
  | .illegalOpcode => .illegalOpcode
  | .reservedField => .reservedField
  | .illegalUnit => .illegalUnit

end Sys2Proof.Machine
end

