-- ==== Sys2Proof/Machine/Float64.lean ====
section
/-!
DEFINITION. IEEE 754 binary64 on bit patterns (R14, R15, R18, R27): unpacking to an exact value, one rounding to nearest
with ties to even, addition, subtraction, multiplication, comparison, floor, conversion of integers, and `satF`. Every
NaN an operation returns is the canonical one; subnormals are exact; there are no flags.
-/
namespace Sys2Proof.Machine

/-- What a binary64 pattern denotes: a NaN, an infinity, or the finite value `(-1)^neg * mant * 2^exp`. -/
inductive FVal where
  | nan
  | inf (neg : Bool)
  | fin (neg : Bool) (mant : Nat) (exp : Int)
  deriving DecidableEq, Repr

/-- The canonical quiet NaN (R27). -/
def canonNaN : DWord := 0x7FF8000000000000#64

/-- The infinity of a sign. -/
def fInf (neg : Bool) : DWord := if neg then 0xFFF0000000000000#64 else 0x7FF0000000000000#64

/-- The zero of a sign. -/
def fZero (neg : Bool) : DWord := if neg then 0x8000000000000000#64 else 0x0000000000000000#64

/-- `-x` as the sign flip of the pattern (R27, R451). -/
def fNeg (b : DWord) : DWord := b ^^^ 0x8000000000000000#64

/-- `f64(b)` (R14): sign bit 63, exponent bits 62:52 biased by 1023, fraction bits 51:0, subnormals with exponent field 0. -/
def fUnpack (b : DWord) : FVal :=
  let neg := b.msb
  let ex := (b.extractLsb' 52 11).toNat
  let fr := (b.extractLsb' 0 52).toNat
  if ex = 2047 then (if fr = 0 then .inf neg else .nan)
  else if ex = 0 then .fin neg fr (-1074)
  else .fin neg (fr + 2 ^ 52) ((ex : Int) - 1075)

/-- The nearest integer to `m / 2^k`, ties to the even one. -/
def roundEven (m k : Nat) : Nat :=
  let q := m / 2 ^ k
  let r := m % 2 ^ k
  if 2 * r < 2 ^ k then q
  else if 2 ^ k < 2 * r then q + 1
  else if q % 2 = 0 then q else q + 1

/-- The binary64 pattern of `(-1)^neg * m * 2^e`, rounded once to nearest even (R14). The unit of the last place is
`2^q`, with 53 significant bits or, for a subnormal, `q = -1074`; `n` counts such units. The magnitude bits are then
`(q + 1074) * 2^52 + n`: the hidden bit of a normal `n` adds 1 to the exponent field, and so does a carry of the
rounding. -/
def fRound (neg : Bool) (m : Nat) (e : Int) : DWord :=
  if m = 0 then fZero neg
  else
    let q : Int := max (e + (m.log2 : Int) - 52) (-1074)
    let n : Nat := if q ≤ e then m * 2 ^ (e - q).toNat else roundEven m (q - e).toNat
    let mag : Nat := (q + 1074).toNat * 2 ^ 52 + n
    if 2047 * 2 ^ 52 ≤ mag then fInf neg
    else fZero neg ||| BitVec.ofNat 64 mag

/-- The signed integer `(-1)^neg * m * 2^k`. -/
def signedScale (neg : Bool) (m k : Nat) : Int :=
  if neg then -((m * 2 ^ k : Nat) : Int) else ((m * 2 ^ k : Nat) : Int)

/-- Binary64 addition of unpacked values: exact on a common exponent, then one rounding. An exact zero sum is `-0` only
when both operands are negative (R14). -/
def fAddVal : FVal → FVal → DWord
  | .nan, _ => canonNaN
  | _, .nan => canonNaN
  | .inf a, .inf b => if a = b then fInf a else canonNaN
  | .inf a, .fin _ _ _ => fInf a
  | .fin _ _ _, .inf b => fInf b
  | .fin n₁ m₁ e₁, .fin n₂ m₂ e₂ =>
    let e := min e₁ e₂
    let v := signedScale n₁ m₁ (e₁ - e).toNat + signedScale n₂ m₂ (e₂ - e).toNat
    if v = 0 then fZero (n₁ && n₂) else fRound (v < 0) v.natAbs e

/-- `fadd` (R14). -/
def fAdd (a b : DWord) : DWord := fAddVal (fUnpack a) (fUnpack b)

/-- `fsub` (R14): addition of the negated second operand. -/
def fSub (a b : DWord) : DWord := fAdd a (fNeg b)

/-- Binary64 multiplication of unpacked values: the exact product, rounded once; infinity times zero is a NaN (R14). -/
def fMulVal : FVal → FVal → DWord
  | .nan, _ => canonNaN
  | _, .nan => canonNaN
  | .inf a, .inf b => fInf (a != b)
  | .inf a, .fin n m _ => if m = 0 then canonNaN else fInf (a != n)
  | .fin n m _, .inf b => if m = 0 then canonNaN else fInf (n != b)
  | .fin n₁ m₁ e₁, .fin n₂ m₂ e₂ => fRound (n₁ != n₂) (m₁ * m₂) (e₁ + e₂)

/-- `fmul` (R14). -/
def fMul (a b : DWord) : DWord := fMulVal (fUnpack a) (fUnpack b)

/-- IEEE `≤` of unpacked values: false with a NaN operand; the two zeros are equal (R451). -/
def fLeVal : FVal → FVal → Bool
  | .nan, _ => false
  | _, .nan => false
  | .inf true, _ => true
  | _, .inf false => true
  | .inf false, _ => false
  | _, .inf true => false
  | .fin n₁ m₁ e₁, .fin n₂ m₂ e₂ =>
    let e := min e₁ e₂
    signedScale n₁ m₁ (e₁ - e).toNat ≤ signedScale n₂ m₂ (e₂ - e).toNat

/-- The IEEE comparison `a <= b` (R451). -/
def fLe (a b : DWord) : Bool := fLeVal (fUnpack a) (fUnpack b)

/-- `isfinite(x)` (R14). -/
def fIsFinite (b : DWord) : Bool :=
  match fUnpack b with
  | .fin _ _ _ => true
  | _ => false

/-- Whether a pattern is a NaN (R18, R27). -/
def fIsNaN (b : DWord) : Bool :=
  match fUnpack b with
  | .nan => true
  | _ => false

/-- `floor` of the finite value `(-1)^neg * m * 2^e` (R450). -/
def floorScale (neg : Bool) (m : Nat) (e : Int) : Int :=
  if 0 ≤ e then signedScale neg m e.toNat else signedScale neg m 0 / 2 ^ (-e).toNat

/-- `floor(x)` of a finite pattern (R450); 0 for a NaN or an infinity, which no rule asks for. -/
def fFloor (b : DWord) : Int :=
  match fUnpack b with
  | .fin n m e => floorScale n m e
  | _ => 0

/-- `int2f(i)` (R14): exact for every Sample; the pattern of 0 is `+0.0`. -/
def fOfInt (i : Int) : DWord := fRound (i < 0) i.natAbs 0

/-- `rhaz` of the finite value `(-1)^neg * m * 2^e`: the nearest integer, halves away from zero (R15). -/
def rhazScale (neg : Bool) (m : Nat) (e : Int) : Int :=
  if 0 ≤ e then signedScale neg m e.toNat
  else signedScale neg ((2 * m + 2 ^ (-e).toNat) / (2 * 2 ^ (-e).toNat)) 0

/-- `satF` (R18): a NaN gives 0, an infinity its bound, a finite value rounds half away from zero and is clamped. -/
def satF (b : DWord) : Int :=
  match fUnpack b with
  | .nan => 0
  | .inf neg => if neg then -32768 else 32767
  | .fin neg m e => clamp (rhazScale neg m e) (-32768) 32767

end Sys2Proof.Machine
end

