-- ==== Sys2Proof/Machine/Ops.lean ====
section
/-!
DEFINITION. The named operations over the state: the RAM windows (R73, R83, R95, R102), the register updates the
commands make, recording an error and clearing it (R700, R731: the block's one exception mechanism), the reads of the
cycle counter (R550), and the two resets (R800, R801).
-/
namespace Sys2Proof.Machine

/-! ## RAM windows -/

/-- The byte stored at an offset; none where nothing has been written (R95). -/
def Memory.get : List Host.Cell → Nat → Option Byte
  | [], _ => none
  | (k, v) :: m, a => if k = a then some v else Memory.get m a

/-- Store a byte, keeping the offsets strictly rising. -/
def Memory.set : List Host.Cell → Nat → Byte → List Host.Cell
  | [], a, b => [(a, b)]
  | (k, v) :: m, a, b =>
    if a < k then (a, b) :: (k, v) :: m
    else if a = k then (a, b) :: m
    else (k, v) :: Memory.set m a b

/-- The canonical form: offsets strictly rising. An unlisted byte is unwritten, which no listed byte is. -/
def Memory.wf : List Host.Cell → Bool
  | [] => true
  | [_] => true
  | (a, _) :: (b, y) :: m => a < b && Memory.wf ((b, y) :: m)

/-- Byte `k` of a word: bits `8k+7 : 8k` (R102). -/
def byteOf (w : Word) (k : Nat) : Byte := w.extractLsb' (8 * k) 8

/-- Store a word as four bytes, byte `k` at offset `a + k` (R102). -/
def Memory.setWord (m : List Host.Cell) (a : Nat) (w : Word) : List Host.Cell :=
  Memory.set (Memory.set (Memory.set (Memory.set m a (byteOf w 0)) (a + 1) (byteOf w 1)) (a + 2) (byteOf w 2))
    (a + 3) (byteOf w 3)

/-- What a RAM byte reads as: the byte stored, or the free contents of an unwritten one (R95; log 5). -/
def State.ramByte (s : State) (a : Nat) : Byte := (Memory.get s.mem a).getD (Config.freeRamByte s.ramEpoch a)

/-- The word at offset `a`, little-endian (R102). -/
def State.ramWord (s : State) (a : Nat) : Word :=
  s.ramByte (a + 3) ++ s.ramByte (a + 2) ++ s.ramByte (a + 1) ++ s.ramByte a

/-- Store a word in a RAM window. -/
def State.setRam (s : State) (a : Nat) (w : Word) : State := { s with mem := Memory.setWord s.mem a w }

/-- The offset of `COEF_A[i]` (`n = 0`) or `COEF_B[i]` (`n = 1`) (R104). -/
def coefOff (n : Fin 2) (i : Nat) : Nat := 0x1000 + 0x1000 * n.val + 4 * i
/-- The offset of `IN_BUF[f]` (R104). -/
def inBufOff (f : Nat) : Nat := 0x10000 + 4 * f
/-- The offset of `OUT_BUF[f]` (R104). -/
def outBufOff (f : Nat) : Nat := 0x20000 + 4 * f

/-- `COEF_n[i]` as a register reads: bits 15:0, the undefined bits 0 (R73, R85). -/
def State.coefWord (s : State) (n : Fin 2) (i : Nat) : Word := s.ramWord (coefOff n i) &&& 0x0000FFFF#32

/-- The coefficient `sext_16(COEF_n[i])` (R73, R300). -/
def State.coef (s : State) (n : Fin 2) (i : Nat) : Int := sext16 ((s.coefWord n i).extractLsb' 0 16)

/-! ## Register updates -/

/-- Write `RES` with `bits_32` of a result (R52). -/
def State.setRes (s : State) (v : Int) : State := { s with res := bits32 v }
/-- Write `ACC` (R54). -/
def State.setAcc (s : State) (v : Int) : State := { s with acc := v }
/-- Write a delay line (R70). -/
def State.setLine (s : State) (u : Fin 9) (l : DelayLine) : State := { s with lines := s.lines.set u l }
/-- Write the oscillator's registers (R74). -/
def State.setOsc (s : State) (o : Osc) : State := { s with osc := o }
/-- Write the chorus registers (R75). -/
def State.setChorus (s : State) (c : Chorus) : State := { s with chorus := c }
/-- Write a timer (R79). -/
def State.setTimer (s : State) (t : Fin 2) (x : Timer) : State := { s with timers := s.timers.set t x }
/-- Give the unwritten RAM bytes new free contents (R95; log 5). -/
def State.newEpoch (s : State) : State := { s with ramEpoch := s.ramEpoch + 1 }

/-- Delay line `u` (R16, R70). -/
def State.line (s : State) (u : Fin 9) : DelayLine := s.lines[u]
/-- The capacity of delay line `u` (R70). -/
def State.cap (s : State) (u : Fin 9) : Nat := s.params.cap u
/-- Timer `T0` or `T1` (R79). -/
def State.timer (s : State) (t : Fin 2) : Timer := s.timers[t]

/-- `STATUS.BUSY` (R58, R84). -/
def State.busy (s : State) : Bool := s.pending.isSome

/-! ## Errors: recorded, never trapped (R700, R730) -/

/-- `raise Error(code, info)`: record the code and the detail, set `INT_STATUS.ERR`, and nothing else (R700). -/
def raiseError (code : ErrCode) (info : Word) (s : State) : State :=
  { s with errCode := code, errInfo := info, intErr := true }

/-- A host write of any value to `ERR_CODE`: both error registers are cleared, `INT_STATUS` is not (R61, R711, R731). -/
def clearError (s : State) : State := { s with errCode := .none, errInfo := 0#32 }

/-- A host write to `INT_STATUS`: each bit written as 1 is cleared (R59, R731). -/
def clearInterrupts (v : Word) (s : State) : State :=
  { s with intDone := s.intDone && !v.getLsbD 0, intErr := s.intErr && !v.getLsbD 1 }

/-! ## Units -/

/-- A command on the unit its `UNIT` field names. A field that names none raises `ILLEGAL_UNIT` (R136, R140): the decoder
rejects such a word first, so this arises for no command word. -/
def onUnit (n : Nat) (u : BitVec 4) (i : Instr) (s : State) (f : Fin n → State) : Host.Outcome State Fault Refusal :=
  match unitIndex n u with
  | some k => .next (f k)
  | none => .next (raiseError .illegalUnit (encode i) s)

/-! ## The cycle counter -/

/-- One read of `CYCLE` (R550): the value drawn, `v >=` the previous read since the last reset. The previous read stands for
a draw below it, so every value from it up to `2^64 - 1` is possible and no other (log 4). -/
@[irreducible] def cycleRead (previous draw : DWord) : DWord := if previous ≤ draw then draw else previous

/-- The value that the next read of `CYCLE` returns (R76, R550). -/
def State.nextCycle (s : State) : DWord := cycleRead s.cycle (Config.freeCycleRead s.draws)

/-- The state after one `readCycle()` (R550). -/
def State.readCycle (s : State) : State := { s with cycle := s.nextCycle, draws := s.draws + 1 }

/-! ## Resets -/

/-- Soft reset (R801): every state of R90 takes its soft-reset value, a pending `PROCESS` is abandoned, the RAM words keep
their contents. The build, the undelivered accesses and the model's counters are no state of R90. -/
def softReset (s : State) : State :=
  { State.resetOf s.params with
    mem := s.mem, inbox := s.inbox, readLog := s.readLog, draws := s.draws, ramEpoch := s.ramEpoch }

/-- Power-on reset (R800): every state takes its power-on value and the RAM words become unwritten. -/
def powerOnReset (s : State) : State :=
  { State.resetOf s.params with
    inbox := s.inbox, readLog := s.readLog, draws := s.draws, ramEpoch := s.ramEpoch + 1 }

end Sys2Proof.Machine
end

