-- ==== Sys2Proof/Machine/Accumulator.lean ====
section
/-!
DEFINITION. fixed_point_accumulator_with_saturation (40_accumulator.md): the six commands of R210 to R215.
-/
namespace Sys2Proof.Machine

/-- `ACC.SET imm`: `ACC <- sext_16(IMM)` (R210). -/
def execAccSet (imm : Half) (s : State) : Host.Outcome State Fault Refusal := .next (s.setAcc (sext16 imm))

/-- One multiply-accumulate, saturated at the accumulator's width (R211, R204). -/
def macStep (width : Nat) (acc x y : Int) : Int := satA width (acc + x * y)

/-- `ACC.MAC`: `ACC <- satA(ACC + x * y)` (R211). -/
def execAccMac (s : State) : Host.Outcome State Fault Refusal :=
  .next (s.setAcc (macStep s.params.accWidth s.acc (opaSample s) (opbSample s)))

/-- The Q30 accumulator as a Sample: `sat16(asr(acc, 15))` (R212, R300). -/
def accToSample (acc : Int) : Int := sat16 (asr acc 15)

/-- `ACC.OUT`: `RES <- bits_32(sat16(asr(ACC, 15)))` (R212). -/
def execAccOut (s : State) : Host.Outcome State Fault Refusal := .next (s.setRes (accToSample s.acc))

/-- `SATI`: `RES <- bits_32(sat16(sext_32(OPA)))` (R213). -/
def execSati (s : State) : Host.Outcome State Fault Refusal := .next (s.setRes (sat16 (opaInt s)))

/-- `SATF`: `RES <- bits_32(satF(f64(FOPA)))` (R214). -/
def execSatf (s : State) : Host.Outcome State Fault Refusal := .next (s.setRes (satF s.fopa))

/-- `MULQ15`: `RES <- bits_32(mulQ15(a, b))`, not saturated (R215). -/
def execMulq15 (s : State) : Host.Outcome State Fault Refusal :=
  .next (s.setRes (mulQ15 (opaSample s) (opbSample s)))

end Sys2Proof.Machine
end

