-- ==== Sys2Proof/Machine/DelayLine.lean ====
section
/-!
DEFINITION. circular_delay_line_buffer (41_delay_line.md): the operations of R250 to R253 on one line, the same on a
line of the state, and the seven commands of R256 to R263. `C` is the line's capacity and `M` the build's mirror size.
-/
namespace Sys2Proof.Machine

/-! ## One line -/

/-- The cursor of the next write: it decrements circularly (R250). -/
def prevCursor (C cur : Nat) : Nat := if cur = 0 then C - 1 else cur - 1

/-- The mirror refresh of a write at ring slot `p`: every mirror slot `C + j` with `j mod C = p`, for `j` below `M` (R250). -/
def refreshMirror (C M p : Nat) (v : Half) (buf : List Half) : List Half :=
  (List.range M).foldl (fun b j => if j % C = p then b.set (C + j) v else b) buf

/-- `dlWrite` on a line (R250): move the cursor back, store the Sample there and in the mirror. -/
def lineWrite (C M : Nat) (s : Int) (l : DelayLine) : DelayLine :=
  let p := prevCursor C l.cur
  ⟨refreshMirror C M p (bits16 s) (l.buf.set p (bits16 s)), p⟩

/-- The Sample in physical slot `p` (R262); a slot a line does not have is never asked for. -/
def lineSlot (l : DelayLine) (p : Nat) : Int := sext16 (l.buf.getD p 0#16)

/-- The ring slot `k` positions behind the most recent write, modulo the capacity (R252). -/
def slotAt (C : Nat) (l : DelayLine) (k : Int) : Nat := (((l.cur : Int) + k) % (C : Int)).toNat

/-- `dlAt` on a line, for any integer offset (R252). -/
def lineAt (C : Nat) (l : DelayLine) (k : Int) : Int := lineSlot l (slotAt C l k)

/-! ## The lines of the state -/

/-- `dlWrite(u, s)` (R250). -/
def dlWrite (u : Fin 9) (v : Int) (s : State) : State :=
  s.setLine u (lineWrite (s.cap u) s.params.mirror v (s.line u))

/-- `dlAt(u, k)` (R252). -/
def dlAt (s : State) (u : Fin 9) (k : Int) : Int := lineAt (s.cap u) (s.line u) k

/-- `dlLatest(u)`: the slot at the cursor (R251). -/
def dlLatest (s : State) (u : Fin 9) : Int := lineSlot (s.line u) (s.line u).cur

/-- `dlOldest(u) = dlAt(u, C - 1)` (R253). -/
def dlOldest (s : State) (u : Fin 9) : Int := dlAt s u ((s.cap u : Int) - 1)

/-! ## Commands -/

/-- `DL.WRITE u` (R256). -/
def execDlWrite (u : BitVec 4) (s : State) : Host.Outcome State Fault Refusal :=
  onUnit 9 u (.dlWrite u) s fun k => dlWrite k (opaSample s) s

/-- `DL.LATEST u` (R257). -/
def execDlLatest (u : BitVec 4) (s : State) : Host.Outcome State Fault Refusal :=
  onUnit 9 u (.dlLatest u) s fun k => s.setRes (dlLatest s k)

/-- `DL.READI u, imm`: the offset is `sext_16(IMM)` (R258). -/
def execDlReadi (u : BitVec 4) (imm : Half) (s : State) : Host.Outcome State Fault Refusal :=
  onUnit 9 u (.dlReadi u imm) s fun k => s.setRes (dlAt s k (sext16 imm))

/-- `DL.READR u`: the offset is `sext_32(OPA)` (R259). -/
def execDlReadr (u : BitVec 4) (s : State) : Host.Outcome State Fault Refusal :=
  onUnit 9 u (.dlReadr u) s fun k => s.setRes (dlAt s k (opaInt s))

/-- `DL.CURSOR u`: `RES <- zext_32(DL[u].cur)` (R260). -/
def execDlCursor (u : BitVec 4) (s : State) : Host.Outcome State Fault Refusal :=
  onUnit 9 u (.dlCursor u) s fun k => s.setRes ((s.line k).cur : Int)

/-- `DL.RAW u, imm`: slot `zext_16(IMM)`, ring or mirror; beyond `C + M` it raises `RAW_INDEX` with the word (R262). -/
def execDlRaw (u : BitVec 4) (imm : Half) (s : State) : Host.Outcome State Fault Refusal :=
  onUnit 9 u (.dlRaw u imm) s fun k =>
    if s.cap k + s.params.mirror ≤ imm.toNat then raiseError .rawIndex (encode (.dlRaw u imm)) s
    else s.setRes (lineSlot (s.line k) imm.toNat)

/-- `DL.CLEAR u`: every slot 0, cursor 0 (R263). -/
def execDlClear (u : BitVec 4) (s : State) : Host.Outcome State Fault Refusal :=
  onUnit 9 u (.dlClear u) s fun k => s.setLine k (DelayLine.cleared (s.cap k) s.params.mirror)

end Sys2Proof.Machine
end

