-- ==== Sys2Proof/Machine/Fir.lean ====
section
/-!
DEFINITION. FIR_filter_engine (42_fir.md): one sample of FIR A or FIR B (R300) and its command (R310).
-/
namespace Sys2Proof.Machine

/-- The private accumulator of FIR `n` after its first `taps` taps, in ascending order, saturated after every addition
(R300, R302). -/
def firAcc (s : State) (n : Fin 2) : Nat → Int
  | 0 => rnd
  | taps + 1 =>
    macStep s.params.accWidth (firAcc s n taps) (dlAt s (firLine n) taps) (s.coef n taps)

/-- The state in which `firStep(n, x)` has written its input (R300). -/
def firWrite (n : Fin 2) (x : Int) (s : State) : State := dlWrite (firLine n) x s

/-- The value of `firStep(n, x)` (R300). -/
def firOut (n : Fin 2) (x : Int) (s : State) : Int :=
  let t := firWrite n x s
  accToSample (firAcc t n (t.cap (firLine n)))

/-- The state after `firStep(n, x)` (R300). The coefficient reads of the next sample take free values of their own where
a word is unwritten (R95; log 5). -/
def firNext (n : Fin 2) (x : Int) (s : State) : State := (firWrite n x s).newEpoch

/-- `FIR.STEP n`: `RES <- bits_32(firStep(n, x))` (R310). -/
def execFirStep (n : BitVec 4) (s : State) : Host.Outcome State Fault Refusal :=
  onUnit 2 n (.firStep n) s fun k => (firNext k (opaSample s) s).setRes (firOut k (opaSample s) s)

end Sys2Proof.Machine
end

