-- ==== Sys2Proof/Machine/Flags.lean ====
section
/-!
DEFINITION. The status, interrupt and flag bits (R58 to R60, R66, R67, R80, R86) as views of the state, and the
interrupt line (R710). The block has no condition codes: these are all its flags (R86).
-/
namespace Sys2Proof.Machine

/-- A bit as a number. -/
def bit (b : Bool) : Nat := if b then 1 else 0

/-- `STATUS.ERR`: `ERR_CODE != 0` (R58). -/
def State.errFlag (s : State) : Bool := s.errCode ≠ .none

/-- A timer is full: `COUNT = PERF_SAMPLES` (R58, R80, R555). -/
def State.timerFull (s : State) (t : Fin 2) : Bool := (s.timer t).count = s.params.perfSamples

/-- `STATUS` (R58): BUSY 0, ERR 1, DIAG_STATE 3:2, T0_FULL 4, T1_FULL 5, MODE_LATCHED 10:8, the rest 0. -/
def State.statusWord (s : State) : Word :=
  BitVec.ofNat 32 (bit s.busy + 2 * bit s.errFlag + 4 * diagNumber s.diagState + 16 * bit (s.timerFull 0)
    + 32 * bit (s.timerFull 1) + 256 * modeNumber s.modeLatched)

/-- `INT_STATUS` (R59). -/
def State.intStatusWord (s : State) : Word := BitVec.ofNat 32 (bit s.intDone + 2 * bit s.intErr)

/-- `INT_EN` (R60). -/
def State.intEnWord (s : State) : Word := BitVec.ofNat 32 (bit s.doneEn + 2 * bit s.errEn)

/-- The interrupt output `IRQ`, an active-high level (R710). -/
def State.irq (s : State) : Bool := (s.intDone && s.doneEn) || (s.intErr && s.errEn)

/-- `PERF_Tn_STAT` (R80): COUNT 8:0, RUNNING 16, FULL 17. -/
def State.timerStatWord (s : State) (t : Fin 2) : Word :=
  BitVec.ofNat 32 ((s.timer t).count % 512 + 0x10000 * bit (s.timer t).running + 0x20000 * bit (s.timerFull t))

/-- The output flag of a FILTER buffer: set when the difference exceeds `FILT_THRESH`, unsigned and strict (R608, R611). -/
def filterSilent (diff : Nat) (thresh : Word) : Bool := thresh.toNat < diff

end Sys2Proof.Machine
end

