-- ==== Sys2Proof/Machine/Oscillator.lean ====
section
/-!
DEFINITION. recursive_sinusoid_generator (46_oscillator.md): one step of the recurrence (R500) and the two commands
(R520, R521).
-/
namespace Sys2Proof.Machine

/-- The binary64 pattern of 32767.0. -/
def f32767 : DWord := 0x40DFFFC000000000#64
/-- The binary64 pattern of 2.0. -/
def f2 : DWord := 0x4000000000000000#64

/-- The Sample that `oscStep()` emits: the older state sample, scaled (R500). -/
def oscOut (o : Osc) : Int := satF (fMul f32767 o.s0)

/-- The recurrence of `oscStep()`: `y = (2w) * y1 - y2` (R500). -/
def oscAdvance (o : Osc) : Osc := { o with s0 := o.s1, s1 := fSub (fMul (fMul f2 o.w) o.s1) o.s0 }

/-- `OSC.STEP` (R520). -/
def execOscStep (s : State) : Host.Outcome State Fault Refusal :=
  .next ((s.setOsc (oscAdvance s.osc)).setRes (oscOut s.osc))

/-- `OSC.SETFREQ`: the patterns are copied bit for bit (R521). -/
def execOscSetfreq (s : State) : Host.Outcome State Fault Refusal := .next (s.setOsc ⟨s.fopa, fZero false, s.fopb⟩)

end Sys2Proof.Machine
end

