-- ==== Sys2Proof/Machine/PerfCounter.lean ====
section
/-!
DEFINITION. performance_cycle_counter (47_perf_counter.md): the timer operations (R552 to R554), the trimmed mean
(R560) and the five commands (R570 to R574). The operations on a timer take the counter value they read as an argument;
the state supplies it (R550).
-/
namespace Sys2Proof.Machine

/-! ## One timer -/

/-- `timerStart` with the counter at `v` (R552). -/
def timerStarted (v : DWord) (t : Timer) : Timer := { t with start := v, running := true }

/-- The recording half of `timerStop`: while the list is not full, the elapsed cycles, saturated, become its next sample
(R553). -/
def timerRecord (perfSamples : Nat) (e : DWord) (t : Timer) : Timer :=
  if t.count < perfSamples then { t with samples := t.samples.set t.count (satCycles e), count := t.count + 1 } else t

/-- `timerStop` of a running timer with the counter at `v` (R553): `(v - START) mod 2^64` cycles have passed. -/
def timerStopped (perfSamples : Nat) (v : DWord) (t : Timer) : Timer :=
  timerRecord perfSamples (v - t.start) { t with running := false }

/-- Insert into an ascending list. -/
def insertAsc (x : Nat) : List Nat → List Nat
  | [] => [x]
  | y :: ys => if x ≤ y then x :: y :: ys else y :: insertAsc x ys

/-- Sort ascending (R560). -/
def sortAsc : List Nat → List Nat
  | [] => []
  | x :: xs => insertAsc x (sortAsc xs)

/-- `trimmedMean` of recorded samples with the calibration `cal` (R560): a tenth trimmed at each end, the floor mean of
the rest, less the calibration, at least 0; 0 of no samples. -/
def trimmedMean (samples : List Nat) (cal : Nat) : Nat :=
  let n := samples.length
  if n = 0 then 0
  else
    let t := n / 10
    let kept := ((sortAsc samples).drop t).take (n - 2 * t)
    kept.sum / (n - 2 * t) - cal

/-- The recorded samples `SAMPLE[0 .. COUNT-1]` (R79). -/
def Timer.recorded (t : Timer) : List Nat := (t.samples.take t.count).map BitVec.toNat

/-! ## The timers of the state -/

/-- `timerStart(T)` (R552): one read of `CYCLE`. -/
def timerStart (t : Fin 2) (s : State) : State := s.readCycle.setTimer t (timerStarted s.nextCycle (s.timer t))

/-- `timerStop(T)` (R553): a stopped timer is left alone and no counter read happens. -/
def timerStop (t : Fin 2) (s : State) : State :=
  if (s.timer t).running then s.readCycle.setTimer t (timerStopped s.params.perfSamples s.nextCycle (s.timer t))
  else s

/-- `timerClear(T)` (R554). -/
def timerClear (t : Fin 2) (s : State) : State := s.setTimer t (Timer.cleared s.params.perfSamples)

/-- `PERF_Tn_MEAN` (R81, R560). -/
def State.meanWord (s : State) (t : Fin 2) : Word :=
  BitVec.ofNat 32 (trimmedMean (s.timer t).recorded s.perfCal.toNat)

/-! ## Commands -/

/-- `PERF.START t` (R570). -/
def execPerfStart (t : BitVec 4) (s : State) : Host.Outcome State Fault Refusal :=
  onUnit 2 t (.perfStart t) s fun k => timerStart k s

/-- `PERF.STOP t` (R571). -/
def execPerfStop (t : BitVec 4) (s : State) : Host.Outcome State Fault Refusal :=
  onUnit 2 t (.perfStop t) s fun k => timerStop k s

/-- `PERF.CLEAR t` (R572). -/
def execPerfClear (t : BitVec 4) (s : State) : Host.Outcome State Fault Refusal :=
  onUnit 2 t (.perfClear t) s fun k => timerClear k s

/-- `PERF_CAL` from the two counter reads of an empty start and stop (R573). -/
def calibration (c1 c2 : DWord) : Word := satCycles (c2 - c1)

/-- `PERF.CALIBRATE`: two reads of `CYCLE` (R573). -/
def execPerfCalibrate (s : State) : Host.Outcome State Fault Refusal :=
  .next { s.readCycle.readCycle with perfCal := calibration s.nextCycle s.readCycle.nextCycle }

/-- `DIAG.RESET`: the diagnostic machine restarts, both timers and `PERF_FRAMES` are cleared, `PERF_CAL` is kept (R574). -/
def execDiagReset (s : State) : Host.Outcome State Fault Refusal :=
  .next { timerClear 1 (timerClear 0 s) with diagState := .warmingUp, diagCount := 0#16, perfFrames := 0#32 }

end Sys2Proof.Machine
end

