-- ==== Sys2Proof/Machine/CombAllpass.lean ====
section
/-!
DEFINITION. comb_allpass_cascade (43_comb_allpass.md): one sample of a comb (R350) and of an allpass (R351), and their
commands (R370, R371). Both taps read the oldest Sample, before the write (90_conflicts.md C1).
-/
namespace Sys2Proof.Machine

/-- `sext_16(GAIN_COMBk)` (R68). -/
def combGain (s : State) (k : Fin 4) : Int := sext16 s.gainComb[k]
/-- `sext_16(GAIN_APk)` (R68). -/
def apGain (s : State) (k : Fin 2) : Int := sext16 s.gainAp[k]

/-- The value of `combStep(k, x)`, which is also the Sample it stores (R350). -/
def combOut (k : Fin 4) (x : Int) (s : State) : Int :=
  sat16 (x + mulQ15 (dlOldest s (combLine k)) (combGain s k))

/-- The state after `combStep(k, x)` (R350). -/
def combNext (k : Fin 4) (x : Int) (s : State) : State := dlWrite (combLine k) (combOut k x s) s

/-- The Sample `w` that `apStep(k, x)` stores (R351). -/
def apStored (k : Fin 2) (x : Int) (s : State) : Int :=
  sat16 (x - mulQ15 (dlOldest s (apLine k)) (apGain s k))

/-- The value of `apStep(k, x)` (R351). -/
def apOut (k : Fin 2) (x : Int) (s : State) : Int :=
  sat16 (mulQ15 (apStored k x s) (apGain s k) + dlOldest s (apLine k))

/-- The state after `apStep(k, x)` (R351). -/
def apNext (k : Fin 2) (x : Int) (s : State) : State := dlWrite (apLine k) (apStored k x s) s

/-- `COMB.STEP k` (R370). -/
def execCombStep (k : BitVec 4) (s : State) : Host.Outcome State Fault Refusal :=
  onUnit 4 k (.combStep k) s fun j => (combNext j (opaSample s) s).setRes (combOut j (opaSample s) s)

/-- `AP.STEP k` (R371). -/
def execApStep (k : BitVec 4) (s : State) : Host.Outcome State Fault Refusal :=
  onUnit 2 k (.apStep k) s fun j => (apNext j (opaSample s) s).setRes (apOut j (opaSample s) s)

end Sys2Proof.Machine
end

