-- ==== Sys2Proof/Machine/Reverb.lean ====
section
/-!
DEFINITION. schroeder_reverb_network (44_reverb.md): one sample of the network (R400) and its command (R410).
-/
namespace Sys2Proof.Machine

/-- The four combs on the same input, in ascending order: the mix of their outputs, each shifted right by 2 and added to
`m`, and the state after them (R400). -/
def combsRun (x : Int) : List (Fin 4) → Int → State → State × Int
  | [], m, s => (s, m)
  | k :: ks, m, s => combsRun x ks (m + asr (combOut k x s) 2) (combNext k x s)

/-- The four combs, in order (R400). -/
def allCombs : List (Fin 4) := [0, 1, 2, 3]

/-- `reverbStep(x)`: the state after it and its value (R400). -/
def reverbRun (x : Int) (s : State) : State × Int :=
  let (s₁, m) := combsRun x allCombs 0 s
  let a := apOut 0 m s₁
  let s₂ := apNext 0 m s₁
  (apNext 1 a s₂, apOut 1 a s₂)

/-- `REV.STEP` (R410). -/
def execRevStep (s : State) : Host.Outcome State Fault Refusal :=
  .next ((reverbRun (opaSample s) s).1.setRes (reverbRun (opaSample s) s).2)

end Sys2Proof.Machine
end

