-- ==== Sys2Proof/Machine/Engine.lean ====
section
/-!
DEFINITION. The buffer sequencer (48_engine.md): the signal paths (R603 to R609), the diagnostic machine (R620), the two
steps of `PROCESS` (R600, R602), and `NOP` (R640).
-/
namespace Sys2Proof.Machine

/-! ## Input and frame order -/

/-- The effective input frame (R603): 0 when the buffer is flagged as silence, else `IN_BUF[f]`. -/
def inFrame (s : State) (f : Nat) : Word := if s.inSilent then 0#32 else s.ramWord (inBufOff f)

/-- The effective input of a buffer of `n` frames (R602). -/
def inFrames (s : State) (n : Nat) : List Word := (List.range n).map (inFrame s)

/-- Write `OUT_BUF[f]` (R83). -/
def writeOut (f : Nat) (w : Word) (s : State) : State := s.setRam (outBufOff f) w

/-- Run a path over the input frames in ascending order from frame `f`, writing each frame's output (R604). -/
def runFrames (path : Word → State → State × Word) : Nat → List Word → State → State
  | _, [], s => s
  | f, w :: ws, s => runFrames path (f + 1) ws (writeOut f (path w s).2 (path w s).1)

/-! ## Signal paths -/

/-- STOPPED, one frame (R605). -/
def stoppedFrame (_w : Word) (s : State) : State × Word := (s, 0#32)
/-- PASS_THROUGH, one frame (R606). -/
def passFrame (w : Word) (s : State) : State × Word := (s, w)
/-- SINE_GENERATOR, one frame (R607). -/
def sineFrame (_w : Word) (s : State) : State × Word := (s.setOsc (oscAdvance s.osc), stereo (oscOut s.osc))
/-- TEST, one frame (R609). -/
def testFrame (w : Word) (s : State) : State × Word := ((reverbRun (mono w) s).1, stereo (reverbRun (mono w) s).2)

/-- `OUT_FLAGS.SILENT <- b` (R67). -/
def State.setOutSilent (s : State) (b : Bool) : State := { s with outSilent := b }

/-- STOPPED (R605). -/
def stoppedPath (n : Nat) (s : State) : State := (runFrames stoppedFrame 0 (inFrames s n) s).setOutSilent true
/-- PASS_THROUGH (R606). -/
def passPath (n : Nat) (s : State) : State := (runFrames passFrame 0 (inFrames s n) s).setOutSilent s.inSilent
/-- SINE_GENERATOR (R607). -/
def sinePath (n : Nat) (s : State) : State := (runFrames sineFrame 0 (inFrames s n) s).setOutSilent false
/-- TEST (R609). -/
def testPath (n : Nat) (s : State) : State := (runFrames testFrame 0 (inFrames s n) s).setOutSilent false

/-- The difference of two rectified outputs: `abs(abs(a) - abs(b))` (R608). -/
def rectifiedDiff (a b : Int) : Nat := ((a.natAbs : Int) - (b.natAbs : Int)).natAbs

/-- FILTER over the input frames from frame `f`: both FIRs run on the same input, FIR A's output is written, and the
difference is added to `diff` (R608). -/
def filterRun : Nat → List Word → Nat → State → State × Nat
  | _, [], diff, s => (s, diff)
  | f, w :: ws, diff, s =>
    let x := mono w
    let a := firOut 0 x s
    let s₁ := firNext 0 x s
    let b := firOut 1 x s₁
    let s₂ := firNext 1 x s₁
    filterRun (f + 1) ws (diff + rectifiedDiff a b) (writeOut f (stereo a) s₂)

/-- The FILTER path (R608). -/
def filterPath (n : Nat) (s : State) : State :=
  let r := filterRun 0 (inFrames s n) 0 s
  { r.1 with filtDiff := BitVec.ofNat 32 r.2, outSilent := filterSilent r.2 s.filtThresh }

/-! ## The diagnostic machine -/

/-- The machine leaves WARMING_UP at the start of a FILTER buffer once the warm-up has elapsed (R620). -/
def leaveWarmup (s : State) : State :=
  if s.diagState = .warmingUp ∧ s.params.warmupBuffers ≤ s.diagCount.toNat then
    { s with diagState := .samplingA, diagCount := 0#16 }
  else s

/-- WARMING_UP: the path, then one buffer counted (R620). -/
def warmupBuffer (n : Nat) (s : State) : State :=
  let t := filterPath n s
  { t with diagCount := t.diagCount + 1#16 }

/-- SAMPLING_A: `T1` starts, and `T0` brackets the path (R621). -/
def samplingABuffer (n : Nat) (s : State) : State :=
  { timerStop 0 (filterPath n (timerStart 0 (timerStart 1 s))) with diagState := .samplingB }

/-- SAMPLING_B: `T1` stops, the path runs unmeasured, the pair is counted, and the machine settles after `PERF_SAMPLES`
pairs (R622). -/
def samplingBBuffer (n : Nat) (s : State) : State :=
  let t := filterPath n (timerStop 1 s)
  let c := t.diagCount + 1#16
  { t with
    diagCount := c, perfFrames := BitVec.ofNat 32 n,
    diagState := if t.params.perfSamples ≤ c.toNat then .settled else .samplingA }

/-- One FILTER-mode buffer (R620). -/
def filterBuffer (n : Nat) (s : State) : State :=
  let t := leaveWarmup s
  match t.diagState with
  | .warmingUp => warmupBuffer n t
  | .samplingA => samplingABuffer n t
  | .samplingB => samplingBBuffer n t
  | .settled => filterPath n t

/-! ## PROCESS -/

/-- All the effects of one buffer (R602). -/
def processBuffer (mode : Mode) (n : Nat) (s : State) : State :=
  match mode with
  | .stopped => stoppedPath n s
  | .passThrough => passPath n s
  | .sineGenerator => sinePath n s
  | .filter => filterBuffer n s
  | .test => testPath n s

/-- The completion step (R600): the whole buffer in one step, then BUSY falls and DONE is set. With nothing pending the
sequencer has no step and nothing changes. The buffer's reads of unwritten words and the host's reads after it take free
values of their own (R95; log 5). -/
def completeProcess (s : State) : State :=
  match s.pending with
  | none => s
  | some p => { (processBuffer p.mode p.frames s.newEpoch).newEpoch with pending := none, intDone := true }

/-- `PROCESS`, its acceptance step (R600): the frame count is checked, the mode is read once (R601) and the buffer is
pending from here on. -/
def execProcess (s : State) : Host.Outcome State Fault Refusal :=
  let n := s.frames.toNat
  if n < 1 ∨ s.params.maxFrames < n then .next (raiseError .framesRange (encode .process) s)
  else .next { s with modeLatched := s.mode, pending := some ⟨s.mode, n⟩ }

/-- `NOP` (R640): nothing beyond the decode step. -/
def execNop (s : State) : Host.Outcome State Fault Refusal := .next s

end Sys2Proof.Machine
end

