-- ==== Sys2Proof/Machine/Bus.lean ====
section
/-!
DEFINITION. The host bus port (20_memory.md): the address map (R104), reads and writes with their side effects and errors
(R101, R105, R109, R110), what is rejected or free while busy (R118, R119), and the command port (R140). Everything here
but the command itself, which Step runs.
-/
namespace Sys2Proof.Machine

/-! ## The address map -/

/-- The registers reached as two 32-bit halves and writable by the host (R53, R74, R75). -/
inductive WideReg where
  | fopa | fopb | oscW | oscS0 | oscS1 | chSweep | chStep | chMin | chMax | chMix
  deriving DecidableEq, Repr

/-- The mapped registers and RAM words (R104). -/
inductive Reg where
  | id | version | ctrl | status | intStatus | intEn | errCode | errInfo | mode | frames | inFlags | outFlags | cmd
  | opa | opb | res
  /-- A half of a 64-bit register; `hi` selects `_HI`. -/
  | wide (r : WideReg) (hi : Bool)
  | acc (hi : Bool)
  | gainComb (k : Fin 4) | gainAp (k : Fin 2)
  | filtThresh | filtDiff
  | cycleLo | cycleHi | perfCal | diagCount
  | perfStat (t : Fin 2) | perfMean (t : Fin 2) | perfFrames
  | dlLen (u : Fin 9)
  | paramMirror | paramMaxFrames | paramFirMaxTaps | paramPerfSamples | paramWarmup | paramAccWidth
  | perfSample (t : Fin 2) (i : Nat)
  | coef (n : Fin 2) (i : Nat)
  | inBuf (f : Nat)
  | outBuf (f : Nat)
  deriving DecidableEq, Repr

/-- The offset of the `_LO` half of a 64-bit register (R104). -/
def wideOff : WideReg → Nat
  | .fopa => 0x40
  | .fopb => 0x48
  | .oscW => 0x60
  | .oscS0 => 0x68
  | .oscS1 => 0x70
  | .chSweep => 0x80
  | .chStep => 0x88
  | .chMin => 0x90
  | .chMax => 0x98
  | .chMix => 0xA0

/-- The address map, register to offset (R104). -/
def regOff : Reg → Nat
  | .id => 0x00
  | .version => 0x04
  | .ctrl => 0x08
  | .status => 0x0C
  | .intStatus => 0x10
  | .intEn => 0x14
  | .errCode => 0x18
  | .errInfo => 0x1C
  | .mode => 0x20
  | .frames => 0x24
  | .inFlags => 0x28
  | .outFlags => 0x2C
  | .cmd => 0x30
  | .opa => 0x34
  | .opb => 0x38
  | .res => 0x3C
  | .wide r hi => wideOff r + 4 * bit hi
  | .acc hi => 0x50 + 4 * bit hi
  | .gainComb k => 0xC0 + 4 * k.val
  | .gainAp k => 0xD0 + 4 * k.val
  | .filtThresh => 0xE0
  | .filtDiff => 0xE4
  | .cycleLo => 0x100
  | .cycleHi => 0x104
  | .perfCal => 0x108
  | .diagCount => 0x10C
  | .perfStat t => 0x110 + 4 * t.val
  | .perfMean t => 0x118 + 4 * t.val
  | .perfFrames => 0x120
  | .dlLen u => 0x140 + 4 * u.val
  | .paramMirror => 0x180
  | .paramMaxFrames => 0x184
  | .paramFirMaxTaps => 0x188
  | .paramPerfSamples => 0x18C
  | .paramWarmup => 0x190
  | .paramAccWidth => 0x194
  | .perfSample t i => 0x800 + 0x400 * t.val + 4 * i
  | .coef n i => coefOff n i
  | .inBuf f => inBufOff f
  | .outBuf f => outBufOff f

/-- The 64-bit registers of R104. -/
def wideRegs : List WideReg := [.fopa, .fopb, .oscW, .oscS0, .oscS1, .chSweep, .chStep, .chMin, .chMax, .chMix]

/-- The registers of R104 outside its four RAM windows and two sample windows. -/
def fixedRegs : List Reg :=
  [.id, .version, .ctrl, .status, .intStatus, .intEn, .errCode, .errInfo, .mode, .frames, .inFlags, .outFlags, .cmd,
    .opa, .opb, .res] ++
  wideRegs.map (Reg.wide · false) ++ wideRegs.map (Reg.wide · true) ++
  [.acc false, .acc true] ++
  (List.finRange 4).map Reg.gainComb ++ (List.finRange 2).map Reg.gainAp ++
  [.filtThresh, .filtDiff, .cycleLo, .cycleHi, .perfCal, .diagCount] ++
  (List.finRange 2).map Reg.perfStat ++ (List.finRange 2).map Reg.perfMean ++ [.perfFrames] ++
  (List.finRange 9).map Reg.dlLen ++
  [.paramMirror, .paramMaxFrames, .paramFirMaxTaps, .paramPerfSamples, .paramWarmup, .paramAccWidth]

/-- The window word at an aligned offset, bounded by the build's parameters (R104, R105). -/
def windowReg (p : Params) (off : Nat) : Option Reg :=
  if 0x800 ≤ off ∧ off < 0x800 + 4 * p.perfSamples then some (.perfSample 0 ((off - 0x800) / 4))
  else if 0xC00 ≤ off ∧ off < 0xC00 + 4 * p.perfSamples then some (.perfSample 1 ((off - 0xC00) / 4))
  else if 0x1000 ≤ off ∧ off < 0x1000 + 4 * p.firMaxTaps then some (.coef 0 ((off - 0x1000) / 4))
  else if 0x2000 ≤ off ∧ off < 0x2000 + 4 * p.firMaxTaps then some (.coef 1 ((off - 0x2000) / 4))
  else if 0x10000 ≤ off ∧ off < 0x10000 + 4 * p.maxFrames then some (.inBuf ((off - 0x10000) / 4))
  else if 0x20000 ≤ off ∧ off < 0x20000 + 4 * p.maxFrames then some (.outBuf ((off - 0x20000) / 4))
  else none

/-- The register or RAM word at an aligned offset; none where R104 lists nothing (R105). -/
def regAt (p : Params) (off : Nat) : Option Reg :=
  match fixedRegs.find? (fun r => regOff r == off) with
  | some r => some r
  | none => windowReg p off

/-- The columns "access" and "busy-W" of R104: what a host write may do. -/
inductive WriteAccess where
  /-- RO: ignored without error (R85). -/
  | readOnly
  /-- Accepted at any time ("yes"). -/
  | always
  /-- Rejected with `BUSY_WRITE` while busy ("no"). -/
  | whileIdle
  /-- The command port (R140). -/
  | command
  deriving DecidableEq, Repr

/-- The write access of a register (R104). -/
def writeAccess : Reg → WriteAccess
  | .ctrl | .intStatus | .intEn | .errCode | .mode | .opa | .opb => .always
  | .wide .fopa _ | .wide .fopb _ => .always
  | .wide _ _ => .whileIdle
  | .frames | .inFlags | .gainComb _ | .gainAp _ | .filtThresh | .perfCal | .coef _ _ | .inBuf _ => .whileIdle
  | .cmd => .command
  | .id | .version | .status | .errInfo | .outFlags | .res | .acc _ | .filtDiff | .cycleLo | .cycleHi | .diagCount
  | .perfStat _ | .perfMean _ | .perfFrames | .dlLen _ | .paramMirror | .paramMaxFrames | .paramFirMaxTaps
  | .paramPerfSamples | .paramWarmup | .paramAccWidth | .perfSample _ _ | .outBuf _ => .readOnly

/-- The registers whose read while busy is a draw, all 32 bits of it (R119). `STATUS` is one in its bits 5:2 only. -/
def drawnWhileBusy : Reg → Bool
  | .outBuf _ | .outFlags | .filtDiff => true
  | .wide .oscW _ | .wide .oscS0 _ | .wide .oscS1 _ | .wide .chSweep _ | .wide .chStep _ => true
  | .perfStat _ | .perfMean _ | .perfSample _ _ | .perfFrames | .diagCount => true
  | _ => false

/-! ## 64-bit registers -/

/-- A 64-bit register (R53, R74, R75). -/
def State.wide (s : State) : WideReg → DWord
  | .fopa => s.fopa
  | .fopb => s.fopb
  | .oscW => s.osc.w
  | .oscS0 => s.osc.s0
  | .oscS1 => s.osc.s1
  | .chSweep => s.chorus.sweep
  | .chStep => s.chorus.step
  | .chMin => s.chorus.min
  | .chMax => s.chorus.max
  | .chMix => s.chorus.mix

/-- Write a 64-bit register (R53, R74, R75). -/
def State.setWide (s : State) (r : WideReg) (v : DWord) : State :=
  match r with
  | .fopa => { s with fopa := v }
  | .fopb => { s with fopb := v }
  | .oscW => s.setOsc { s.osc with w := v }
  | .oscS0 => s.setOsc { s.osc with s0 := v }
  | .oscS1 => s.setOsc { s.osc with s1 := v }
  | .chSweep => s.setChorus { s.chorus with sweep := v }
  | .chStep => s.setChorus { s.chorus with step := v }
  | .chMin => s.setChorus { s.chorus with min := v }
  | .chMax => s.setChorus { s.chorus with max := v }
  | .chMix => s.setChorus { s.chorus with mix := v }

/-- A half of a 64-bit value: `_LO` is bits 31:0, `_HI` bits 63:32 (R53). -/
def halfOf (v : DWord) (hi : Bool) : Word := if hi then v.extractLsb' 32 32 else v.extractLsb' 0 32

/-- A 64-bit value with one half replaced (R111). -/
def withHalf (v : DWord) (hi : Bool) (w : Word) : DWord :=
  if hi then w ++ v.extractLsb' 0 32 else v.extractLsb' 32 32 ++ w

/-! ## Reads -/

/-- What a read of a register returns, with no draw and no side effect (R104 and the rules it names). -/
def regValue (s : State) : Reg → Word
  | .id => 0x44535046#32
  | .version => 0x00010000#32
  | .ctrl => 0#32
  | .status => s.statusWord
  | .intStatus => s.intStatusWord
  | .intEn => s.intEnWord
  | .errCode => BitVec.ofNat 32 (errNumber s.errCode)
  | .errInfo => s.errInfo
  | .mode => BitVec.ofNat 32 (modeNumber s.mode)
  | .frames => s.frames.setWidth 32
  | .inFlags => BitVec.ofNat 32 (bit s.inSilent)
  | .outFlags => BitVec.ofNat 32 (bit s.outSilent)
  | .cmd => s.cmd
  | .opa => s.opa
  | .opb => s.opb
  | .res => s.res
  | .wide r hi => halfOf (s.wide r) hi
  | .acc hi => halfOf (bits64 s.acc) hi
  | .gainComb k => s.gainComb[k].setWidth 32
  | .gainAp k => s.gainAp[k].setWidth 32
  | .filtThresh => s.filtThresh
  | .filtDiff => s.filtDiff
  | .cycleLo => s.nextCycle.extractLsb' 0 32
  | .cycleHi => s.cycleShadow
  | .perfCal => s.perfCal
  | .diagCount => s.diagCount.setWidth 32
  | .perfStat t => s.timerStatWord t
  | .perfMean t => s.meanWord t
  | .perfFrames => s.perfFrames
  | .dlLen u => BitVec.ofNat 32 (s.cap u)
  | .paramMirror => BitVec.ofNat 32 s.params.mirror
  | .paramMaxFrames => BitVec.ofNat 32 s.params.maxFrames
  | .paramFirMaxTaps => BitVec.ofNat 32 s.params.firMaxTaps
  | .paramPerfSamples => BitVec.ofNat 32 s.params.perfSamples
  | .paramWarmup => BitVec.ofNat 32 s.params.warmupBuffers
  | .paramAccWidth => BitVec.ofNat 32 s.params.accWidth
  | .perfSample t i => (s.timer t).samples.getD i 0#32
  | .coef n i => s.coefWord n i
  | .inBuf f => s.ramWord (inBufOff f)
  | .outBuf f => s.ramWord (outBufOff f)

/-- The free value that the next read while busy takes (R119; log 6). -/
def State.busyDraw (s : State) : Word := Config.freeBusyRead s.draws

/-- `STATUS` while busy: bits 5:2 are a draw, the others as usual (R119). -/
def State.busyStatusWord (s : State) : Word := (s.statusWord &&& ~~~0x3C#32) ||| (s.busyDraw &&& 0x3C#32)

/-- One free value of a read while busy has been taken. -/
def State.countDraw (s : State) : State := { s with draws := s.draws + 1 }

/-- A read of a mapped word: its value, and its effect, which only a read of `CYCLE_LO` (R77, R551) and the draws while
busy (R119) have. -/
def readReg (s : State) (r : Reg) : State × Word :=
  if s.busy && drawnWhileBusy r then (s.countDraw, s.busyDraw)
  else if s.busy && (r == .status) then (s.countDraw, s.busyStatusWord)
  else if r = .cycleLo then ({ s.readCycle with cycleShadow := s.nextCycle.extractLsb' 32 32 }, regValue s r)
  else (s, regValue s r)

/-- A host read of `width` bytes at offset `off` in the window: misaligned first, then unmapped (R101, R105, R720); an
erroneous read returns 0 (R700). -/
def busRead (off width : Nat) (s : State) : State × Word :=
  if width ≠ 4 ∨ off % 4 ≠ 0 then (raiseError .busMisaligned (BitVec.ofNat 32 off) s, 0#32)
  else match regAt s.params off with
    | none => (raiseError .busUnmapped (BitVec.ofNat 32 off) s, 0#32)
    | some r => readReg s r

/-! ## Writes -/

/-- The effect of an accepted write (R104 and the rules it names); a write of a read-only word, or of `CMD`, has none
here. -/
def writeReg (s : State) (v : Word) : Reg → State
  | .ctrl => if v.getLsbD 0 then softReset s else s
  | .intStatus => clearInterrupts v s
  | .intEn => { s with doneEn := v.getLsbD 0, errEn := v.getLsbD 1 }
  | .errCode => clearError s
  | .mode => { s with mode := (modeOfWord v).getD s.mode }
  | .frames => { s with frames := v.extractLsb' 0 16 }
  | .inFlags => { s with inSilent := v.getLsbD 0 }
  | .opa => { s with opa := v }
  | .opb => { s with opb := v }
  | .wide r hi => s.setWide r (withHalf (s.wide r) hi v)
  | .gainComb k => { s with gainComb := s.gainComb.set k (v.extractLsb' 0 16) }
  | .gainAp k => { s with gainAp := s.gainAp.set k (v.extractLsb' 0 16) }
  | .filtThresh => { s with filtThresh := v }
  | .perfCal => { s with perfCal := v }
  | .coef n i => s.setRam (coefOff n i) (v &&& 0x0000FFFF#32)
  | .inBuf f => s.setRam (inBufOff f) v
  | .id | .version | .status | .errInfo | .outFlags | .cmd | .res | .acc _ | .filtDiff | .cycleLo | .cycleHi
  | .diagCount | .perfStat _ | .perfMean _ | .perfFrames | .dlLen _ | .paramMirror | .paramMaxFrames
  | .paramFirMaxTaps | .paramPerfSamples | .paramWarmup | .paramAccWidth | .perfSample _ _ | .outBuf _ => s

/-- A host write, other than a command, of `width` bytes at offset `off` in the window (R101, R105, R118, R720). -/
def busWrite (off width : Nat) (v : Word) (s : State) : State :=
  if width ≠ 4 ∨ off % 4 ≠ 0 then raiseError .busMisaligned (BitVec.ofNat 32 off) s
  else match regAt s.params off with
    | none => raiseError .busUnmapped (BitVec.ofNat 32 off) s
    | some r =>
      if s.busy && (writeAccess r == .whileIdle) then raiseError .busyWrite (BitVec.ofNat 32 off) s
      else writeReg s v r

/-! ## Events -/

/-- The offset of a byte address in the window; none outside it (R100). -/
def windowOff (p : Params) (addr : Nat) : Option Nat :=
  if p.base ≤ addr ∧ addr ≤ p.base + 0x3FFFF then some (addr - p.base) else none

/-- Log what a read returned to its actor (R840). -/
def State.reply (s : State) (a : Actor) (v : Word) : State := { s with readLog := ⟨a, v⟩ :: s.readLog }

/-- Take the oldest event out of the inbox (R115). A write access gives the unwritten RAM bytes new free contents (R109;
log 5). -/
def takeEvent (e : Event) (rest : List Event) (s : State) : State :=
  match e with
  | .write _ _ _ _ => { s with inbox := rest }.newEpoch
  | .read _ _ _ => { s with inbox := rest }
  | .sequencer => { s with inbox := rest }
  | .powerOn => { s with inbox := rest }

/-- Serve an event that is not a command word: a read, a write, the sequencer's turn or a power-on reset. An access
outside the window is none to this block (R100). -/
def serveEvent (e : Event) (s : State) : Host.Outcome State Fault Refusal :=
  match e with
  | .read a addr width =>
    match windowOff s.params addr with
    | some off => .next ((busRead off width s).1.reply a (busRead off width s).2)
    | none => .fault .outsideWindow
  | .write _ addr width v =>
    match windowOff s.params addr with
    | some off => .next (busWrite off width v s)
    | none => .fault .outsideWindow
  | .sequencer => .next (completeProcess s)
  | .powerOn => .next (powerOnReset s)

/-! ## The command port -/

/-- The command word an event presents: a 4-byte write at the offset of `CMD` (R55, R130). -/
def commandOf (p : Params) : Event → Option Word
  | .write _ addr width v => if width = 4 ∧ addr = p.base + 0x30 then some v else none
  | .read _ _ _ => none
  | .sequencer => none
  | .powerOn => none

/-- The checks of R140 on a command word, in its order: busy first, then the decoder's. -/
def acceptCommand (w : Word) (s : State) : Except ErrCode Instr :=
  if s.busy then .error .busyCmd
  else match decode w with
    | .ok i => .ok i
    | .error r => .error (rejectError r)

/-- `R[CMD] <- w`: the last accepted command word (R55, R140). -/
def latchCommand (w : Word) (s : State) : State := { s with cmd := w }

end Sys2Proof.Machine
end

