-- ==== Sys2Proof/Machine/Chorus.lean ====
section
/-!
DEFINITION. fractional_delay_interpolator_chorus (45_chorus.md): the interpolated read (R450), the triangle sweep
(R451) and the command (R470).
-/
namespace Sys2Proof.Machine

/-- The integer offset of the read: `floor(s)`, or 0 for a sweep that is not finite (R450, D24). -/
def chOffset (sweep : DWord) : Int := if fIsFinite sweep then fFloor sweep else 0

/-- The fraction of the read: `s - floor(s)`, or `+0.0` for a sweep that is not finite (R450, D24). -/
def chFraction (sweep : DWord) : DWord := if fIsFinite sweep then fSub sweep (fOfInt (fFloor sweep)) else fZero false

/-- `a + fr * (b - a)` in binary64, in the order written (R450). -/
def chWet (fr a b : DWord) : DWord := fAdd a (fMul fr (fSub b a))

/-- `chAdvance()` on the registers (R451): add the step; a sum that reaches a bound is clamped to it and the step's sign
flips. -/
def chAdvance (c : Chorus) : Chorus :=
  let n := fAdd c.sweep c.step
  if fLe c.max n then { c with sweep := c.max, step := fNeg c.step }
  else if fLe n c.min then { c with sweep := c.min, step := fNeg c.step }
  else { c with sweep := n }

/-- The value of `chStep(x)` (R450). -/
def chOut (x : Int) (s : State) : Int :=
  let t := dlWrite chorusLine x s
  let i := chOffset s.chorus.sweep
  let a := fOfInt (dlAt t chorusLine i)
  let b := fOfInt (dlAt t chorusLine (i + 1))
  satF (fAdd (fOfInt x) (fMul (chWet (chFraction s.chorus.sweep) a b) s.chorus.mix))

/-- The state after `chStep(x)` (R450, R451). -/
def chNext (x : Int) (s : State) : State := (dlWrite chorusLine x s).setChorus (chAdvance s.chorus)

/-- `CH.STEP` (R470). -/
def execChStep (s : State) : Host.Outcome State Fault Refusal :=
  .next ((chNext (opaSample s) s).setRes (chOut (opaSample s) s))

end Sys2Proof.Machine
end

