-- ==== Sys2Proof/Machine/Dispatch.lean ====
section
/-! DEFINITION. One arm per command (R134): its meaning. -/
namespace Sys2Proof.Machine

def exec (i : Instr) (s : State) : Host.Outcome State Fault Refusal :=
  match i with
  | .nop => Sys2Proof.Machine.execNop s
  | .accSet imm => Sys2Proof.Machine.execAccSet imm s
  | .accMac => Sys2Proof.Machine.execAccMac s
  | .accOut => Sys2Proof.Machine.execAccOut s
  | .sati => Sys2Proof.Machine.execSati s
  | .satf => Sys2Proof.Machine.execSatf s
  | .mulq15 => Sys2Proof.Machine.execMulq15 s
  | .dlWrite u => Sys2Proof.Machine.execDlWrite u s
  | .dlLatest u => Sys2Proof.Machine.execDlLatest u s
  | .dlReadi u imm => Sys2Proof.Machine.execDlReadi u imm s
  | .dlReadr u => Sys2Proof.Machine.execDlReadr u s
  | .dlCursor u => Sys2Proof.Machine.execDlCursor u s
  | .dlRaw u imm => Sys2Proof.Machine.execDlRaw u imm s
  | .dlClear u => Sys2Proof.Machine.execDlClear u s
  | .firStep n => Sys2Proof.Machine.execFirStep n s
  | .combStep k => Sys2Proof.Machine.execCombStep k s
  | .apStep k => Sys2Proof.Machine.execApStep k s
  | .revStep => Sys2Proof.Machine.execRevStep s
  | .chStep => Sys2Proof.Machine.execChStep s
  | .oscStep => Sys2Proof.Machine.execOscStep s
  | .oscSetfreq => Sys2Proof.Machine.execOscSetfreq s
  | .perfStart t => Sys2Proof.Machine.execPerfStart t s
  | .perfStop t => Sys2Proof.Machine.execPerfStop t s
  | .perfClear t => Sys2Proof.Machine.execPerfClear t s
  | .perfCalibrate => Sys2Proof.Machine.execPerfCalibrate s
  | .diagReset => Sys2Proof.Machine.execDiagReset s
  | .process => Sys2Proof.Machine.execProcess s

end Sys2Proof.Machine
end

