-- ==== Sys2Proof/Machine/Step.lean ====
section
/-!
DEFINITION. One step of the block (R17, R115, R721): the oldest event of the inbox is served; a command word that the port
accepts runs its command. With no event left, the sequencer completes a pending `PROCESS` (R830), and an idle block
keeps its state (R745).
-/
namespace Sys2Proof.Machine

/-- Run the command word `w` at the command port (R140): a rejected word records its error and nothing else. -/
def runCommand (w : Word) (s : State) : Host.Outcome State Fault Refusal :=
  match acceptCommand w s with
  | .ok i => exec i (latchCommand w s)
  | .error c => .next (raiseError c w s)

/-- One step. -/
def step (s : State) : Host.Outcome State Fault Refusal :=
  match s.inbox with
  | [] => .next (completeProcess s)
  | e :: rest =>
    match commandOf s.params e with
    | some w => runCommand w (takeEvent e rest s)
    | none => serveEvent e (takeEvent e rest s)

/-- The state with the audio actor's write of a command word to `CMD` delivered next (R55, R130; notes/assumptions/2.md).
A busy block would reject the word, so nothing is pending in the result. -/
def State.withFetchWord (s : State) (nbits w : Nat) : State :=
  { s with
    pending := none
    inbox := .write .audio (s.params.base + 0x30) 4 (BitVec.ofNat 32 (w % 2 ^ nbits)) :: s.inbox }

end Sys2Proof.Machine
end

