-- ==== Sys2Proof/Machine/HostProgram.lean ====
section
/-!
DEFINITION. What a host sends, as events (R145, R146): the statements `W`, `R` and `<MNEMONIC>` of the spec's program
syntax, its pseudo-instructions, and the host procedures that a rule spells out over them (R312, R650). Nothing of the
block's behaviour stands here. A `WAIT` (R146) ends only by the sequencer's step (R830), so it is that step and one read
of STATUS; further polls change nothing.
-/
namespace Sys2Proof.Machine

/-- `W <reg>, <value>`: a host write (R145). -/
def hostWrite (p : Params) (a : Actor) (r : Reg) (v : Word) : Event := .write a (p.base + regOff r) 4 v

/-- `R <reg>`: a host read (R145). -/
def hostRead (p : Params) (a : Actor) (r : Reg) : Event := .read a (p.base + regOff r) 4

/-- `<MNEMONIC> ...`: the write of the command's word to `CMD` (R145). -/
def hostCommand (p : Params) (a : Actor) (i : Instr) : Event := hostWrite p a .cmd (encode i)

/-- `ACC.CLR` (R146). -/
def accClr : Instr := .accSet 0#16
/-- `ACC.RND` (R146): loads the rounding constant of R20. -/
def accRnd : Instr := .accSet 0x4000#16

/-- `WF64 <reg>, <x>` (R146): the low half, then the high half. -/
def hostWriteF64 (p : Params) (a : Actor) (r : WideReg) (x : DWord) : List Event :=
  [hostWrite p a (.wide r false) (halfOf x false), hostWrite p a (.wide r true) (halfOf x true)]

/-- `WAIT` (R146), in the run where the sequencer completes before the poll that ends it. -/
def hostWait (p : Params) (a : Actor) : List Event := [.sequencer, hostRead p a .status]

/-- `RUN` (R146). -/
def hostRun (p : Params) (a : Actor) : List Event := hostCommand p a .process :: hostWait p a

/-- `STEP <mnemonic> [<unit>], <x>` (R146). -/
def hostStep (p : Params) (a : Actor) (i : Instr) (x : Int) : List Event :=
  [hostWrite p a .opa (bits32 x), hostCommand p a i, hostRead p a .res]

/-- The procedure of R312 on FIR `n`, with the amplitude of each step: `N = R[DL_LEN[n]]`, `DL.CLEAR n`, then one step per
tap. The build's capacity is the `N` that the read returns (R72), so it counts the steps. -/
def firResponse (p : Params) (a : Actor) (n : Fin 2) (amplitude : Nat → Int) : List Event :=
  [hostRead p a (.dlLen (firLine n)), hostCommand p a (.dlClear (BitVec.ofNat 4 n.val))] ++
    (List.range (p.cap (firLine n))).flatMap fun t =>
      hostStep p a (.firStep (BitVec.ofNat 4 n.val)) (amplitude t)

/-- The impulse response procedure of FIR `n` (R312): amplitude 32767 at the first step, 0 after it. -/
def impulseResponse (p : Params) (a : Actor) (n : Fin 2) : List Event :=
  firResponse p a n fun t => if t = 0 then 32767 else 0

/-- The step response procedure of FIR `n` (R312): amplitude 32767 at every step. -/
def stepResponse (p : Params) (a : Actor) (n : Fin 2) : List Event := firResponse p a n fun _ => 32767

/-- What the procedure of R312 returns, `(seq, N)`, from its replies, oldest first: the length, then `sext_32(R[RES])` of
each step. -/
def responseResult : List Reply → List Int × Nat
  | [] => ([], 0)
  | r :: rs => (rs.map fun x => sext32 x.value, r.value.toNat)

/-- One buffer of the callback contract (R650), the frame count being set: the input frames and flag, `RUN`, and the
reads of the output frames and flag. -/
def hostBuffer (p : Params) (a : Actor) (input : List Word) (silent : Bool) : List Event :=
  input.mapIdx (fun f w => hostWrite p a (.inBuf f) w) ++
    [hostWrite p a .inFlags (BitVec.ofNat 32 (bit silent))] ++ hostRun p a ++
    (List.range input.length).map (fun f => hostRead p a (.outBuf f)) ++ [hostRead p a .outFlags]

end Sys2Proof.Machine
end

