-- ==== Sys2Proof/Safety.lean ====
section
/-!
DEFINITION. What claims are stated in: the launch premises of R841, a run and its end (R840), the invariants of the block
(R54, R71, R79, R620, R600) gathered in `State.Inv`, which rules out only states no run of a build reaches, what every
register reads field by field, and the values of binary64 patterns (R14).
-/
namespace Sys2Proof.Machine

/-! ## Launch premises (R841) -/

/-- `NoErrorRecorded`. -/
abbrev NoErrorRecorded (s : State) : Prop := s.errCode = .none ∧ s.intErr = false

/-- `Idle`: `STATUS.BUSY = 0`. -/
abbrev Idle (s : State) : Prop := s.busy = false

/-- `AfterReset`: every value of R90 holds and no `PROCESS` is pending. A soft reset then changes nothing. -/
abbrev AfterReset (s : State) : Prop := softReset s = s

/-- `LinesClear(u...)`: the listed delay lines hold all zero slots and cursor 0. -/
abbrev LinesClear (us : List (Fin 9)) (s : State) : Prop :=
  ∀ u ∈ us, s.line u = DelayLine.cleared (s.cap u) s.params.mirror

/-- `CoefWritten(n)`: every `COEF_n[i]` with `i < DL_LEN[n]` has been written. -/
abbrev CoefWritten (n : Fin 2) (s : State) : Prop :=
  ∀ i < s.cap (firLine n), ∀ k < 4, Memory.get s.mem (coefOff n i + k) ≠ none

/-- `Configured(params)`: the listed registers hold the listed values. -/
abbrev Configured (l : List (Reg × Word)) (s : State) : Prop := ∀ c ∈ l, regValue s c.1 = c.2

/-- What a run's claims take at launch: `NoErrorRecorded` and `Idle`. -/
abbrev LaunchOk (s : State) : Prop := NoErrorRecorded s ∧ Idle s

/-! ## A run and its end (R840) -/

/-- A read or a write by the host: an access of the run. The sequencer's turns and power-on resets are none. -/
def isAccess : Event → Bool
  | .read _ _ _ => true
  | .write _ _ _ _ => true
  | .sequencer => false
  | .powerOn => false

/-- The accesses of a run, in bus order, delivered to a launch state whose replies are still to come; the sequencer's turns
and power-on resets stand among them where they happen (log 2, 3). -/
def launch (accesses : List Event) (s : State) : State := { s with inbox := accesses, readLog := [] }

/-- The state after `n` steps of a run, or the stop it met before. -/
def runFor : Nat → State → Host.Outcome State Fault Refusal
  | 0, s => .next s
  | n + 1, s =>
    match step s with
    | .next t => runFor n t
    | .fault f => .fault f
    | .refused r => .refused r

/-- (a) The host has made its last access and (c) every access has been served, whatever the sequencer and the platform may
still do; (b) no `PROCESS` is pending. -/
abbrev Ended (s : State) : Prop := s.inbox.all (!isAccess ·) = true ∧ s.busy = false

/-- The run from `s` ends after `n` steps, in the state `t`: the first state that is ended. -/
def EndsAt (n : Nat) (s t : State) : Prop :=
  runFor n s = .next t ∧ Ended t ∧ ∀ k < n, ∀ u, runFor k s = .next u → ¬ Ended u

/-- The observation of a launched run that ends in this state: every register, the RAM words, `ERR_CODE` and `ERR_INFO`,
and the values the reads of the run returned; what is left of the model's own inbox and counters (log 2, 4, 5) is no part
of it. -/
def observation (s : State) : State := { s with inbox := [], draws := 0, ramEpoch := 0 }

/-- After every event of the run from `s` has been served, in `t`, a `PROCESS` is accepted and neither completed nor
abandoned: the run has no end unless the sequencer moves once more. -/
def LeftPending (s t : State) : Prop := runFor s.inbox.length s = .next t ∧ t.busy = true

/-- A hang: the run goes on and has no end. The weak fairness of R830, which is the step of an empty inbox, rules it out. -/
def Hangs (s : State) : Prop := ∀ n, ∃ t, runFor n s = .next t ∧ ¬ Ended t

/-! ## Invariants -/

/-- A Sample (R10). -/
abbrev IsSample (i : Int) : Prop := -32768 ≤ i ∧ i ≤ 32767

/-- A delay line is well formed (R70, R71): `C + M` slots, the cursor in the ring, and the mirror invariant. -/
abbrev LineOk (C M : Nat) (l : DelayLine) : Prop :=
  l.buf.length = C + M ∧ l.cur < C ∧ ∀ j < M, l.buf.getD (C + j) 0#16 = l.buf.getD (j % C) 0#16

/-- `ACC` is a signed integer of `ACC_WIDTH` bits (R54). -/
abbrev AccOk (s : State) : Prop :=
  -(2 ^ (s.params.accWidth - 1)) ≤ s.acc ∧ s.acc ≤ 2 ^ (s.params.accWidth - 1) - 1

/-- A timer holds at most `PERF_SAMPLES` samples, in as many slots (R79). -/
abbrev TimerOk (perfSamples : Nat) (t : Timer) : Prop := t.count ≤ perfSamples ∧ t.samples.length = perfSamples

/-- The diagnostic machine's count is in the range of its phase (R620), so it never exceeds 65535. -/
abbrev DiagOk (s : State) : Prop :=
  match s.diagState with
  | .warmingUp => s.diagCount.toNat ≤ s.params.warmupBuffers
  | .samplingA => s.diagCount.toNat < s.params.perfSamples
  | .samplingB => s.diagCount.toNat < s.params.perfSamples
  | .settled => s.diagCount.toNat = s.params.perfSamples

/-- A pending `PROCESS` has the frame count that `FRAMES` still holds, in range, and the latched mode (R600, R602). -/
abbrev PendingOk (s : State) : Prop :=
  ∀ p ∈ s.pending, (1 ≤ p.frames ∧ p.frames ≤ s.params.maxFrames) ∧ p.frames = s.frames.toNat ∧ p.mode = s.modeLatched

/-- An offset of one of the four RAM windows (R104). -/
abbrev inRam (p : Params) (a : Nat) : Prop :=
  (0x1000 ≤ a ∧ a < 0x1000 + 4 * p.firMaxTaps) ∨ (0x2000 ≤ a ∧ a < 0x2000 + 4 * p.firMaxTaps) ∨
  (0x10000 ≤ a ∧ a < 0x10000 + 4 * p.maxFrames) ∨ (0x20000 ≤ a ∧ a < 0x20000 + 4 * p.maxFrames)

/-- The RAM list is canonical and lists only RAM offsets. -/
abbrev MemOk (s : State) : Prop := Memory.wf s.mem = true ∧ ∀ c ∈ s.mem, inRam s.params c.1

/-- The invariant of the block: what holds in every state the host can observe (R71 and the rules above). -/
structure State.Inv (s : State) : Prop where
  params : s.params.Ok
  lines : ∀ u : Fin 9, LineOk (s.cap u) s.params.mirror (s.line u)
  acc : AccOk s
  timers : ∀ t : Fin 2, TimerOk s.params.perfSamples (s.timer t)
  diag : DiagOk s
  pending : PendingOk s
  mem : MemOk s
  filtDiff : s.filtDiff.toNat ≤ 2 ^ 29

/-! ## What the registers read -/

/-- The fields of `STATUS` (R58, R64, R82). -/
structure StatusFields (s : State) (w : Word) : Prop where
  busy : w.getLsbD 0 = true ↔ s.pending ≠ none
  err : w.getLsbD 1 = true ↔ s.errCode ≠ .none
  diagState : w.extractLsb' 2 2 =
    match s.diagState with
    | .warmingUp => 0#2
    | .samplingA => 1#2
    | .samplingB => 2#2
    | .settled => 3#2
  t0Full : w.getLsbD 4 = true ↔ (s.timer 0).count = s.params.perfSamples
  t1Full : w.getLsbD 5 = true ↔ (s.timer 1).count = s.params.perfSamples
  bits7to6 : w.extractLsb' 6 2 = 0#2
  modeLatched : w.extractLsb' 8 3 =
    match s.modeLatched with
    | .stopped => 0#3
    | .passThrough => 1#3
    | .filter => 2#3
    | .sineGenerator => 3#3
    | .test => 4#3
  bits31to11 : w.extractLsb' 11 21 = 0#21

/-- The fields of `PERF_Tn_STAT` (R80). -/
structure TimerStatFields (s : State) (t : Fin 2) (w : Word) : Prop where
  count : w.extractLsb' 0 9 = BitVec.ofNat 9 (s.timer t).count
  bits15to9 : w.extractLsb' 9 7 = 0#7
  running : w.getLsbD 16 = (s.timer t).running
  full : w.getLsbD 17 = true ↔ (s.timer t).count = s.params.perfSamples
  bits31to18 : w.extractLsb' 18 14 = 0#14

/-- A register whose bits 0 and 1 are these and whose other bits read 0 (R85). -/
abbrev TwoBits (w : Word) (b0 b1 : Bool) : Prop :=
  w.getLsbD 0 = b0 ∧ w.getLsbD 1 = b1 ∧ w.extractLsb' 2 30 = 0#30

/-- The word of `ERR_CODE` (R61, R701). -/
def errCodeWord : ErrCode → Word
  | .none => 0x00000000#32
  | .illegalOpcode => 0x00000001#32
  | .reservedField => 0x00000002#32
  | .illegalUnit => 0x00000003#32
  | .rawIndex => 0x00000004#32
  | .busyCmd => 0x00000005#32
  | .busyWrite => 0x00000006#32
  | .framesRange => 0x00000007#32
  | .busUnmapped => 0x00000008#32
  | .busMisaligned => 0x00000009#32

/-- What a read of each register but `CYCLE_LO`, whose read is a draw (R551), returns, field by field: the rules of
10_state.md that name the register. A 64-bit register is its `_HI` word before its `_LO` word (R53). -/
structure RegisterViews (s : State) (read : Reg → Word) : Prop where
  /-- R56, R57. -/
  identity : read .id = 0x44535046#32 ∧ read .version = 0x00010000#32 ∧ read .ctrl = 0#32
  /-- R58. -/
  status : StatusFields s (read .status)
  /-- R59. -/
  intStatus : TwoBits (read .intStatus) s.intDone s.intErr
  /-- R60. -/
  intEn : TwoBits (read .intEn) s.doneEn s.errEn
  /-- R61, R62. -/
  error : read .errCode = errCodeWord s.errCode ∧ read .errInfo = s.errInfo
  /-- R63. -/
  mode : read .mode =
    match s.mode with
    | .stopped => 0#32
    | .passThrough => 1#32
    | .filter => 2#32
    | .sineGenerator => 3#32
    | .test => 4#32
  /-- R65. -/
  frames : read .frames = 0#16 ++ s.frames
  /-- R66, R67. -/
  flags : TwoBits (read .inFlags) s.inSilent false ∧ TwoBits (read .outFlags) s.outSilent false
  /-- R50, R52, R55. -/
  operands : read .opa = s.opa ∧ read .opb = s.opb ∧ read .res = s.res ∧ read .cmd = s.cmd
  /-- R53. -/
  floats : read (.wide .fopa true) ++ read (.wide .fopa false) = s.fopa ∧
    read (.wide .fopb true) ++ read (.wide .fopb false) = s.fopb
  /-- R54. -/
  acc : read (.acc true) ++ read (.acc false) = BitVec.ofInt 64 s.acc
  /-- R68. -/
  gains : (∀ k, read (.gainComb k) = 0#16 ++ s.gainComb[k]) ∧ ∀ k, read (.gainAp k) = 0#16 ++ s.gainAp[k]
  /-- R69. -/
  filter : read .filtThresh = s.filtThresh ∧ read .filtDiff = s.filtDiff
  /-- R70, R72. -/
  lineLengths : read (.dlLen 0) = BitVec.ofNat 32 s.params.firLenA ∧ read (.dlLen 1) = BitVec.ofNat 32 s.params.firLenB ∧
    read (.dlLen 2) = BitVec.ofNat 32 s.params.combLen[0] ∧ read (.dlLen 3) = BitVec.ofNat 32 s.params.combLen[1] ∧
    read (.dlLen 4) = BitVec.ofNat 32 s.params.combLen[2] ∧ read (.dlLen 5) = BitVec.ofNat 32 s.params.combLen[3] ∧
    read (.dlLen 6) = BitVec.ofNat 32 s.params.apLen[0] ∧ read (.dlLen 7) = BitVec.ofNat 32 s.params.apLen[1] ∧
    read (.dlLen 8) = BitVec.ofNat 32 s.params.chLen
  /-- R72. -/
  params : read .paramMirror = BitVec.ofNat 32 s.params.mirror ∧
    read .paramMaxFrames = BitVec.ofNat 32 s.params.maxFrames ∧
    read .paramFirMaxTaps = BitVec.ofNat 32 s.params.firMaxTaps ∧
    read .paramPerfSamples = BitVec.ofNat 32 s.params.perfSamples ∧
    read .paramWarmup = BitVec.ofNat 32 s.params.warmupBuffers ∧
    read .paramAccWidth = BitVec.ofNat 32 s.params.accWidth
  /-- R74. -/
  oscillator : read (.wide .oscW true) ++ read (.wide .oscW false) = s.osc.w ∧
    read (.wide .oscS0 true) ++ read (.wide .oscS0 false) = s.osc.s0 ∧
    read (.wide .oscS1 true) ++ read (.wide .oscS1 false) = s.osc.s1
  /-- R75. -/
  chorus : read (.wide .chSweep true) ++ read (.wide .chSweep false) = s.chorus.sweep ∧
    read (.wide .chStep true) ++ read (.wide .chStep false) = s.chorus.step ∧
    read (.wide .chMin true) ++ read (.wide .chMin false) = s.chorus.min ∧
    read (.wide .chMax true) ++ read (.wide .chMax false) = s.chorus.max ∧
    read (.wide .chMix true) ++ read (.wide .chMix false) = s.chorus.mix
  /-- R77, R78. -/
  counter : read .cycleHi = s.cycleShadow ∧ read .perfCal = s.perfCal
  /-- R79, R80. -/
  timers : (∀ t, TimerStatFields s t (read (.perfStat t))) ∧
    ∀ t i, read (.perfSample t i) = (s.timer t).samples.getD i 0#32
  /-- R81, R560. -/
  statistics : read .perfFrames = s.perfFrames ∧
    ∀ t, read (.perfMean t) =
      BitVec.ofNat 32 (trimmedMean (((s.timer t).samples.take (s.timer t).count).map BitVec.toNat) s.perfCal.toNat)
  /-- R82. -/
  diagCount : read .diagCount = 0#16 ++ s.diagCount
  /-- R73, R102; that the upper half of an unwritten word reads 0 too is the model's reading (log 10). -/
  coefs : ∀ n i, read (.coef n i) =
    0#16 ++ (s.ramByte (0x1000 + 0x1000 * n.val + 4 * i + 1) ++ s.ramByte (0x1000 + 0x1000 * n.val + 4 * i))
  /-- R83, R102. -/
  buffers : ∀ f, ∀ k < 4, (read (.inBuf f)).extractLsb' (8 * k) 8 = s.ramByte (0x10000 + 4 * f + k) ∧
    (read (.outBuf f)).extractLsb' (8 * k) 8 = s.ramByte (0x20000 + 4 * f + k)

/-! ## Values of binary64 patterns (R14) -/

/-- The exponent field, bits 62:52. -/
def expField (b : DWord) : Nat := b.toNat / 2 ^ 52 % 2048
/-- The fraction field, bits 51:0. -/
def fracField (b : DWord) : Nat := b.toNat % 2 ^ 52
/-- The significand: the fraction, with the hidden bit of a normal number. -/
def significand (b : DWord) : Nat := fracField b + if expField b = 0 then 0 else 2 ^ 52
/-- The exponent of the significand's lowest bit; a subnormal has that of the smallest normal number. -/
def lowExponent (b : DWord) : Int := (max (expField b) 1 : Nat) - 1075
/-- `isfinite`: the exponent field is not all ones. -/
abbrev Finite64 (b : DWord) : Prop := expField b ≠ 2047
/-- `real(x)`, the exact value of a finite pattern. -/
def real64 (b : DWord) : ℚ := (if b.msb then -1 else 1) * (significand b : ℚ) * 2 ^ lowExponent b

/-- The pattern `r` has this sign and is the exact value `v` rounded once to nearest, ties to even: an infinity where `v`
reaches the midpoint between the largest finite value and `2^1024`, and else a finite pattern than which no other is
nearer, its lowest bit 0 where another value is as near. -/
def RoundedOnce (neg : Bool) (v : ℚ) (r : DWord) : Prop :=
  r.msb = neg ∧
  if (2 ^ 54 - 1) * 2 ^ 970 ≤ |v| then expField r = 2047 ∧ fracField r = 0
  else Finite64 r ∧ ∀ b, Finite64 b →
    |real64 r - v| ≤ |real64 b - v| ∧ (real64 b ≠ real64 r → |real64 b - v| = |real64 r - v| → r.getLsbD 0 = false)

/-! ## Terms of the statements -/

/-- Every word with this opcode, `RSV = 0` and `IMM = 0`: it decodes to the command on its unit, or is rejected where the
opcode has no such unit (R134, R136, R140). -/
abbrev UnitWords (opc : BitVec 8) (units : Nat) (f : BitVec 4 → Instr) : Prop :=
  ∀ u : BitVec 4, decode (opc ++ u ++ 0#20) = if u.toNat < units then .ok (f u) else .error .illegalUnit

/-- The index of a window register is below its parameter (R104, R105). -/
abbrev inBounds (p : Params) : Reg → Prop
  | .perfSample _ i => i < p.perfSamples
  | .coef _ i => i < p.firMaxTaps
  | .inBuf f => f < p.maxFrames
  | .outBuf f => f < p.maxFrames
  | _ => True

/-- The single registers of the address map as the spec's table lists them (R104): offset, register, and what its columns
"access" and "busy-W" let a host write do. A 64-bit register has its `_LO` row before its `_HI` row. -/
def addressMap : List (Nat × Reg × WriteAccess) :=
  List.flatten [
    [(0x00, .id, .readOnly), (0x04, .version, .readOnly), (0x08, .ctrl, .always), (0x0C, .status, .readOnly),
      (0x10, .intStatus, .always), (0x14, .intEn, .always), (0x18, .errCode, .always),
      (0x1C, .errInfo, .readOnly)],
    [(0x20, .mode, .always), (0x24, .frames, .whileIdle), (0x28, .inFlags, .whileIdle),
      (0x2C, .outFlags, .readOnly), (0x30, .cmd, .command), (0x34, .opa, .always), (0x38, .opb, .always),
      (0x3C, .res, .readOnly)],
    [(0x40, .wide .fopa false, .always), (0x44, .wide .fopa true, .always), (0x48, .wide .fopb false, .always),
      (0x4C, .wide .fopb true, .always), (0x50, .acc false, .readOnly), (0x54, .acc true, .readOnly)],
    [(0x60, .wide .oscW false, .whileIdle), (0x64, .wide .oscW true, .whileIdle),
      (0x68, .wide .oscS0 false, .whileIdle), (0x6C, .wide .oscS0 true, .whileIdle),
      (0x70, .wide .oscS1 false, .whileIdle), (0x74, .wide .oscS1 true, .whileIdle)],
    [(0x80, .wide .chSweep false, .whileIdle), (0x84, .wide .chSweep true, .whileIdle),
      (0x88, .wide .chStep false, .whileIdle), (0x8C, .wide .chStep true, .whileIdle),
      (0x90, .wide .chMin false, .whileIdle), (0x94, .wide .chMin true, .whileIdle),
      (0x98, .wide .chMax false, .whileIdle), (0x9C, .wide .chMax true, .whileIdle),
      (0xA0, .wide .chMix false, .whileIdle), (0xA4, .wide .chMix true, .whileIdle)],
    [(0xC0, .gainComb 0, .whileIdle), (0xC4, .gainComb 1, .whileIdle), (0xC8, .gainComb 2, .whileIdle),
      (0xCC, .gainComb 3, .whileIdle), (0xD0, .gainAp 0, .whileIdle), (0xD4, .gainAp 1, .whileIdle),
      (0xE0, .filtThresh, .whileIdle), (0xE4, .filtDiff, .readOnly)],
    [(0x100, .cycleLo, .readOnly), (0x104, .cycleHi, .readOnly), (0x108, .perfCal, .whileIdle),
      (0x10C, .diagCount, .readOnly), (0x110, .perfStat 0, .readOnly), (0x114, .perfStat 1, .readOnly),
      (0x118, .perfMean 0, .readOnly), (0x11C, .perfMean 1, .readOnly), (0x120, .perfFrames, .readOnly)],
    [(0x140, .dlLen 0, .readOnly), (0x144, .dlLen 1, .readOnly), (0x148, .dlLen 2, .readOnly),
      (0x14C, .dlLen 3, .readOnly), (0x150, .dlLen 4, .readOnly), (0x154, .dlLen 5, .readOnly),
      (0x158, .dlLen 6, .readOnly), (0x15C, .dlLen 7, .readOnly), (0x160, .dlLen 8, .readOnly)],
    [(0x180, .paramMirror, .readOnly), (0x184, .paramMaxFrames, .readOnly), (0x188, .paramFirMaxTaps, .readOnly),
      (0x18C, .paramPerfSamples, .readOnly), (0x190, .paramWarmup, .readOnly), (0x194, .paramAccWidth, .readOnly)]]

/-- The windows of the address map (R104): the offset of each word, its register, its parameter bound and its access. -/
def addressWindows (p : Params) : List ((Nat → Nat) × (Nat → Reg) × Nat × WriteAccess) :=
  [(fun i => 0x00800 + 4 * i, .perfSample 0, p.perfSamples, .readOnly),
    (fun i => 0x00C00 + 4 * i, .perfSample 1, p.perfSamples, .readOnly),
    (fun i => 0x01000 + 4 * i, .coef 0, p.firMaxTaps, .whileIdle),
    (fun i => 0x02000 + 4 * i, .coef 1, p.firMaxTaps, .whileIdle),
    (fun f => 0x10000 + 4 * f, .inBuf, p.maxFrames, .whileIdle),
    (fun f => 0x20000 + 4 * f, .outBuf, p.maxFrames, .readOnly)]

/-- Run one unit over a list of inputs: the state after it and its outputs in order (R402). -/
def runUnit (next : Int → State → State) (out : Int → State → Int) : List Int → State → State × List Int
  | [], s => (s, [])
  | x :: xs, s => ((runUnit next out xs (next x s)).1, out x s :: (runUnit next out xs (next x s)).2)

/-- The mix of the four comb buffers, each shifted right by 2 (R400, R402). -/
def mixBuffers : List Int → List Int → List Int → List Int → List Int
  | a :: as, b :: bs, c :: cs, d :: ds => (asr a 2 + asr b 2 + asr c 2 + asr d 2) :: mixBuffers as bs cs ds
  | _, _, _, _ => []

/-- The network over a whole buffer, unit by unit (R402): each comb over the dry buffer, then allpass 0 over the mix, then
allpass 1. -/
def reverbByUnits (xs : List Int) (s : State) : State × List Int :=
  let r0 := runUnit (combNext 0) (combOut 0) xs s
  let r1 := runUnit (combNext 1) (combOut 1) xs r0.1
  let r2 := runUnit (combNext 2) (combOut 2) xs r1.1
  let r3 := runUnit (combNext 3) (combOut 3) xs r2.1
  let a := runUnit (apNext 0) (apOut 0) (mixBuffers r0.2 r1.2 r2.2 r3.2) r3.1
  runUnit (apNext 1) (apOut 1) a.2 a.1

/-- The rows of the opcode map as the spec's table lists them (R134, R136): `OPC`, the largest unit where `UNIT` is used,
and whether `IMM` is used. -/
def opcodeMap : List (Nat × Option Nat × Bool) :=
  [(0x00, none, false), (0x10, none, true), (0x11, none, false), (0x12, none, false), (0x13, none, false),
    (0x14, none, false), (0x15, none, false)] ++
  [(0x20, some 8, false), (0x21, some 8, false), (0x22, some 8, true), (0x23, some 8, false), (0x24, some 8, false),
    (0x25, some 8, true), (0x26, some 8, false)] ++
  [(0x30, some 1, false), (0x40, some 3, false), (0x41, some 1, false), (0x48, none, false), (0x50, none, false),
    (0x58, none, false), (0x59, none, false)] ++
  [(0x60, some 1, false), (0x61, some 1, false), (0x62, some 1, false), (0x63, none, false), (0x64, none, false),
    (0x70, none, false)]

end Sys2Proof.Machine
end

