-- ==== Sys2Proof/Certificates/Slice0/Obligations.lean ====
section
/-!
DEFINITION. The statements about DSPF-CORE, from the numbered rules of spec/. Every statement quantifies over all states
(and so over all builds, R7) that meet its hypotheses. Where a statement names a free value (`Config.free...`), it holds
whatever that value is.
-/
open Sys2Proof Sys2Proof.Machine

/-! ## Encoding and the command port -/

/-- Decoding an encoded well-formed command gives it back, with every unit and immediate (R134, R136, R142). -/
def Obligations.DecodeInvertsEncode : Prop :=
  ∀ i : Instr, i.wellFormed = true → decode (encode i) = .ok i

/-- A word that decodes is the word of the command it decodes to, and that command is well formed (R142: no two rows
share a word). -/
def Obligations.EncodeInvertsDecode : Prop :=
  ∀ (w : Word) (i : Instr), decode w = .ok i → encode i = w ∧ i.wellFormed = true

/-- Words the spec assembles by hand decode to their commands (R145 and the rules of each family). -/
def Obligations.WordsOfTheSpecDecode : Prop :=
  decode 0x2220FFFF#32 = .ok (.dlReadi 2 0xFFFF) ∧ decode 0x10004000#32 = .ok (.accSet 0x4000) ∧
  decode 0x30100000#32 = .ok (.firStep 1) ∧ decode 0x40300000#32 = .ok (.combStep 3) ∧
  decode 0x41100000#32 = .ok (.apStep 1) ∧ decode 0x48000000#32 = .ok .revStep ∧
  decode 0x50000000#32 = .ok .chStep ∧ decode 0x59000000#32 = .ok .oscSetfreq ∧
  decode 0x60100000#32 = .ok (.perfStart 1) ∧ decode 0x70000000#32 = .ok .process ∧
  decode 0x2520000C#32 = .ok (.dlRaw 2 12) ∧ decode 0x00000000#32 = .ok .nop

/-- The checks on a word written to `CMD`, in the order of R140: busy, opcode, reserved and unused fields, unit; the
first that fails records its error and nothing else, and a word that passes them all is latched in `CMD` and executed.
The inbox, replies, draws and epoch are the model's own fields (log 2 to 6). -/
def Obligations.CommandWordChecks : Prop :=
  ∀ (s : State) (a : Actor) (w : Word) (rest : List Event),
    s.inbox = .write a (s.params.base + 0x30) 4 w :: rest →
    let s' := { s with inbox := rest, ramEpoch := s.ramEpoch + 1 }
    let opc := w.toNat / 2 ^ 24
    let unit := w.toNat / 2 ^ 20 % 16
    let rsv := w.toNat / 2 ^ 16 % 16
    let imm := w.toNat % 2 ^ 16
    if s.busy then step s = .next (raiseError .busyCmd w s')
    else match opcodeMap.find? (fun r => r.1 == opc) with
      | none => step s = .next (raiseError .illegalOpcode w s')
      | some (_, maxUnit, usesImm) =>
        if rsv ≠ 0 ∨ (maxUnit = none ∧ unit ≠ 0) ∨ (usesImm = false ∧ imm ≠ 0) then
          step s = .next (raiseError .reservedField w s')
        else if ∃ m ∈ maxUnit, m < unit then step s = .next (raiseError .illegalUnit w s')
        else ∃ i, encode i = w ∧ step s = exec i { s' with cmd := w }

/-- A step runs the decoded command: around `exec` it takes the access out of the inbox, latches `CMD`, and gives the
unwritten RAM words new free contents (R115, R140; the epoch is the model's own, log 5). -/
def Obligations.StepRunsDecodedCommand : Prop :=
  ∀ (s : State) (a : Actor) (w : Word) (rest : List Event) (i : Instr),
    s.inbox = .write a (s.params.base + 0x30) 4 w :: rest → s.busy = false → decode w = .ok i →
    step s = exec i { s with inbox := rest, ramEpoch := s.ramEpoch + 1, cmd := w }

/-- `NOP` changes nothing beyond the decode step, which latches its word (R640). The inbox, replies, draws and epoch
are the model's own fields (log 2 to 6). -/
def Obligations.NopChangesOnlyCmd : Prop :=
  decode 0x00000000#32 = .ok .nop ∧
  (∀ s : State, exec .nop s = .next s) ∧
  ∀ (s : State) (a : Actor) (rest : List Event),
    s.inbox = .write a (s.params.base + 0x30) 4 0x00000000#32 :: rest → s.busy = false →
    step s = .next { s with inbox := rest, ramEpoch := s.ramEpoch + 1, cmd := 0#32 }

/-! ## Accumulator and saturation -/

/-- `ACC.SET imm` loads the sign-extended immediate and changes nothing else (R210). -/
def Obligations.AccSetLoadsImmediate : Prop :=
  ∀ (imm : Half) (s : State),
    decode (0x1000#16 ++ imm) = .ok (.accSet imm) ∧
    exec (.accSet imm) s = .next { s with acc := imm.toInt } ∧
    regValue { s with acc := imm.toInt } (.acc true) = (if imm.msb then 0xFFFFFFFF#32 else 0#32)

/-- `ACC.MAC` adds the exact product of the two Samples and saturates to the accumulator's width (R211, R13). -/
def Obligations.AccMacSaturates : Prop :=
  decode 0x11000000#32 = .ok .accMac ∧
  ∀ s : State,
    let x := (s.opa.extractLsb' 0 16).toInt
    let y := (s.opb.extractLsb' 0 16).toInt
    let hi : Int := 2 ^ (s.params.accWidth - 1)
    exec .accMac s = .next { s with acc := max (-hi) (min (s.acc + x * y) (hi - 1)) }

/-- `ACC.OUT`, `SATI` and `MULQ15` write `RES` alone: the shifted and saturated accumulator, the saturated integer,
and the unsaturated Q15 product, which leaves the Sample range for one pair of operands only (R212, R213, R215). -/
def Obligations.IntegerResults : Prop :=
  decode 0x12000000#32 = .ok .accOut ∧ decode 0x13000000#32 = .ok .sati ∧ decode 0x15000000#32 = .ok .mulq15 ∧
  ∀ s : State,
    let a := (s.opa.extractLsb' 0 16).toInt
    let b := (s.opb.extractLsb' 0 16).toInt
    exec .accOut s = .next { s with res := BitVec.ofInt 32 (max (-32768) (min (s.acc.fdiv 32768) 32767)) } ∧
    exec .sati s = .next { s with res := BitVec.ofInt 32 (max (-32768) (min s.opa.toInt 32767)) } ∧
    (∃ q : Int, exec .mulq15 s = .next { s with res := BitVec.ofInt 32 q } ∧ q * 32768 ≤ a * b ∧
      a * b < (q + 1) * 32768 ∧ -32767 ≤ q ∧ q ≤ 32768 ∧ (q = 32768 ↔ a = -32768 ∧ b = -32768))

/-- `SATF` writes `RES` alone: 0 for a NaN, the bounds for infinities, and else the nearest integer of the exact
value, halves away from zero, clamped (R214, R18, R15). -/
def Obligations.SatfRoundsAndClamps : Prop :=
  decode 0x14000000#32 = .ok .satf ∧
  ∀ s : State, ∃ r : Int, exec .satf s = .next { s with res := BitVec.ofInt 32 r } ∧
    match fUnpack s.fopa with
    | .nan => r = 0
    | .inf neg => r = if neg then -32768 else 32767
    | .fin neg m e =>
      let v : ℚ := (if neg then -1 else 1) * (m : ℚ) * (2 : ℚ) ^ e
      r = max (-32768) (min (if 0 ≤ v then ⌊v + 1 / 2⌋ else -⌊-v + 1 / 2⌋) 32767)

/-! ## Delay lines -/

/-- `DL.WRITE u` moves the cursor back circularly, stores the Sample there and in every mirror slot of that ring slot,
and changes nothing else, of this line or any other (R250, R256). -/
def Obligations.DlWriteStoresAndMirrors : Prop :=
  UnitWords 0x20 9 .dlWrite ∧
  ∀ (u : BitVec 4) (h : u.toNat < 9) (s : State),
    let k : Fin 9 := ⟨u.toNat, h⟩
    let C := s.cap k
    LineOk C s.params.mirror (s.line k) →
    ∃ l : DelayLine,
      exec (.dlWrite u) s = .next { s with lines := s.lines.set k l } ∧
      l.cur = (if (s.line k).cur = 0 then C - 1 else (s.line k).cur - 1) ∧
      l.buf.length = C + s.params.mirror ∧
      ∀ p < C + s.params.mirror,
        l.buf.getD p 0#16 =
          if p = l.cur ∨ (C ≤ p ∧ (p - C) % C = l.cur) then s.opa.extractLsb' 0 16 else (s.line k).buf.getD p 0#16

/-- `DL.LATEST u` and `DL.CURSOR u` write `RES` alone: the Sample at the cursor, and the cursor (R257, R260, R251). -/
def Obligations.DlLatestAndCursor : Prop :=
  UnitWords 0x21 9 .dlLatest ∧ UnitWords 0x24 9 .dlCursor ∧
  ∀ (u : BitVec 4) (h : u.toNat < 9) (s : State),
    let l := s.lines[u.toNat]
    exec (.dlLatest u) s = .next { s with res := (l.buf.getD l.cur 0#16).signExtend 32 } ∧
    exec (.dlCursor u) s = .next { s with res := BitVec.ofNat 32 l.cur }

/-- `DL.READI u, imm` and `DL.READR u` write `RES` alone: the Sample of the ring slot that the cursor plus the signed
offset names modulo the capacity, for every offset (R252, R258, R259). -/
def Obligations.DlReadsNormaliseOffsets : Prop :=
  UnitWords 0x23 9 .dlReadr ∧
  (∀ (u : BitVec 4) (imm : Half), u.toNat < 9 → decode (0x22#8 ++ u ++ 0#4 ++ imm) = .ok (.dlReadi u imm)) ∧
  ∀ (u : BitVec 4) (h : u.toNat < 9) (imm : Half) (s : State),
    let k : Fin 9 := ⟨u.toNat, h⟩
    1 ≤ s.cap k →
    ∃ i j : Nat, i < s.cap k ∧ j < s.cap k ∧
      ((s.cap k : Int) ∣ (s.line k).cur + imm.toInt - i) ∧ ((s.cap k : Int) ∣ (s.line k).cur + s.opa.toInt - j) ∧
      exec (.dlReadi u imm) s = .next { s with res := ((s.line k).buf.getD i 0#16).signExtend 32 } ∧
      exec (.dlReadr u) s = .next { s with res := ((s.line k).buf.getD j 0#16).signExtend 32 }

/-- `DL.RAW u, imm` reads a physical slot, ring or mirror, into `RES`; beyond the slots it records `RAW_INDEX` with
the command word and nothing else (R262). -/
def Obligations.DlRawReadsSlotOrErrs : Prop :=
  (∀ (u : BitVec 4) (imm : Half), u.toNat < 9 → decode (0x25#8 ++ u ++ 0#4 ++ imm) = .ok (.dlRaw u imm)) ∧
  ∀ (u : BitVec 4) (h : u.toNat < 9) (imm : Half) (s : State),
    let k : Fin 9 := ⟨u.toNat, h⟩
    exec (.dlRaw u imm) s =
      if imm.toNat < s.cap k + s.params.mirror then
        .next { s with res := ((s.line k).buf.getD imm.toNat 0#16).signExtend 32 }
      else
        .next { s with errCode := .rawIndex, errInfo := 0x25#8 ++ u ++ 0#4 ++ imm, intErr := true }

/-- `DL.CLEAR u` makes every slot of the line 0 and its cursor 0, and changes nothing else (R263). -/
def Obligations.DlClearZeroesLine : Prop :=
  UnitWords 0x26 9 .dlClear ∧
  ∀ (u : BitVec 4) (h : u.toNat < 9) (s : State),
    let k : Fin 9 := ⟨u.toNat, h⟩
    exec (.dlClear u) s =
      .next { s with lines := s.lines.set k ⟨List.replicate (s.cap k + s.params.mirror) 0#16, 0⟩ }

/-- Writing `N <= C` Samples and reading back gives them in reverse order of writing; the read is periodic in the
capacity (R255); and up to `M + 1` consecutive physical slots from the cursor hold the Samples of those offsets, so
that such a read never wraps (R254). -/
def Obligations.ReadsReverseWriteOrder : Prop :=
  (∀ (C M : Nat) (l : DelayLine) (xs : List Int), LineOk C M l → xs.length ≤ C → (∀ x ∈ xs, IsSample x) →
    ∀ k < xs.length, lineAt C (xs.foldl (fun l x => lineWrite C M x l) l) k = xs.getD (xs.length - 1 - k) 0) ∧
  (∀ (s : State) (u : Fin 9), dlAt s u (s.cap u) = dlAt s u 0) ∧
  ∀ (C M : Nat) (l : DelayLine), LineOk C M l → ∀ k ≤ M, lineSlot l (l.cur + k) = lineAt C l k

/-! ## FIR, comb, allpass, reverb -/

/-- `FIR.STEP n` writes its Sample into its own line and `RES`, and nothing else: the result is the accumulator that
starts at 16384 and adds tap after tap in ascending order, saturated after every addition, shifted and saturated
(R300, R310). The epoch, which only unwritten words see, is the model's own (log 5). -/
def Obligations.FirStepConvolves : Prop :=
  UnitWords 0x30 2 .firStep ∧
  ∀ (n : BitVec 4) (h : n.toNat < 2) (s : State),
    let k : Fin 2 := ⟨n.toNat, h⟩
    let u : Fin 9 := ⟨n.toNat, by omega⟩
    let N := s.cap u
    let hi : Int := 2 ^ (s.params.accWidth - 1)
    let l := lineWrite N s.params.mirror (s.opa.extractLsb' 0 16).toInt (s.line u)
    ∃ acc : Nat → Int,
      acc 0 = 16384 ∧
      (∀ i < N, acc (i + 1) = max (-hi) (min (acc i + lineAt N l i * ((s.coefWord k i).extractLsb' 0 16).toInt) (hi - 1))) ∧
      exec (.firStep n) s =
        .next { s with
          lines := s.lines.set u l
          res := BitVec.ofInt 32 (max (-32768) (min ((acc N).fdiv 32768) 32767))
          ramEpoch := s.ramEpoch + 1 }

/-- With a 40-bit accumulator and at most 511 taps no partial sum saturates: the FIR's output is the rounded exact sum
(R204, R301). -/
def Obligations.FirIsExactUpTo511Taps : Prop :=
  ∀ (n : Fin 2) (x : Int) (s : State), s.params.accWidth = 40 → s.cap (firLine n) ≤ 511 →
    let t := firWrite n x s
    firOut n x s =
      max (-32768) (min
        ((16384 + ((List.range (s.cap (firLine n))).map fun i : Nat => dlAt t (firLine n) (i : Int) * t.coef n i).sum).fdiv 32768) 32767)

/-- `COMB.STEP k` adds the Q15-scaled oldest Sample of its line to the input, saturates, stores the result in its line
and returns it, and changes nothing else (R350, R370). -/
def Obligations.CombStepFeedsBack : Prop :=
  UnitWords 0x40 4 .combStep ∧
  ∀ (k : BitVec 4) (h : k.toNat < 4) (s : State),
    let u : Fin 9 := ⟨2 + k.toNat, by omega⟩
    let C := s.cap u
    let d := lineAt C (s.line u) ((C : Int) - 1)
    let y := max (-32768) (min ((s.opa.extractLsb' 0 16).toInt + (d * (s.gainComb[k.toNat]).toInt).fdiv 32768) 32767)
    exec (.combStep k) s =
      .next { s with lines := s.lines.set u (lineWrite C s.params.mirror y (s.line u)), res := BitVec.ofInt 32 y }

/-- `AP.STEP k` stores the saturated input less the scaled oldest Sample, returns the saturated sum of the scaled
stored value and that oldest Sample, and changes nothing else (R351, R371). -/
def Obligations.ApStepFeedsThrough : Prop :=
  UnitWords 0x41 2 .apStep ∧
  ∀ (k : BitVec 4) (h : k.toNat < 2) (s : State),
    let u : Fin 9 := ⟨6 + k.toNat, by omega⟩
    let C := s.cap u
    let g := (s.gainAp[k.toNat]).toInt
    let d := lineAt C (s.line u) ((C : Int) - 1)
    let w := max (-32768) (min ((s.opa.extractLsb' 0 16).toInt - (d * g).fdiv 32768) 32767)
    exec (.apStep k) s =
      .next { s with
        lines := s.lines.set u (lineWrite C s.params.mirror w (s.line u))
        res := BitVec.ofInt 32 (max (-32768) (min ((w * g).fdiv 32768 + d) 32767)) }

/-- `REV.STEP` runs the four combs on the input, sums their outputs shifted right by 2, which is a Sample without any
saturation, and passes the sum through the two allpasses; only the lines and `RES` change (R400, R401, R410). -/
def Obligations.RevStepRunsNetwork : Prop :=
  decode 0x48000000#32 = .ok .revStep ∧
  ∀ s : State,
    let x := (s.opa.extractLsb' 0 16).toInt
    let s1 := combNext 0 x s
    let s2 := combNext 1 x s1
    let s3 := combNext 2 x s2
    let s4 := combNext 3 x s3
    let m := (combOut 0 x s).fdiv 4 + (combOut 1 x s1).fdiv 4 + (combOut 2 x s2).fdiv 4 + (combOut 3 x s3).fdiv 4
    let s5 := apNext 0 m s4
    let a := apOut 0 m s4
    let s6 := apNext 1 a s5
    (-32768 ≤ m ∧ m ≤ 32764) ∧
    exec .revStep s = .next { s with lines := s6.lines, res := BitVec.ofInt 32 (apOut 1 a s5) }

/-- The network frame by frame equals the network unit by unit over the whole buffer: the same outputs and the same
state (R402). -/
def Obligations.ReverbBufferForm : Prop :=
  ∀ (xs : List Int) (s : State),
    runUnit (fun x s => (reverbRun x s).1) (fun x s => (reverbRun x s).2) xs s = reverbByUnits xs s

/-! ## Chorus, oscillator, binary64 -/

/-- `CH.STEP` writes the Sample into line 8, reads the two neighbours of the sweep position (offset 0 and fraction
+0.0 for a sweep that is not finite), interpolates, scales, adds the dry input and saturates, then advances the sweep,
clamping it at a bound and flipping the step's sign there; nothing else changes (R450, R451, R470). -/
def Obligations.ChStepInterpolatesAndSweeps : Prop :=
  decode 0x50000000#32 = .ok .chStep ∧
  ∀ s : State,
    let x := (s.opa.extractLsb' 0 16).toInt
    let C := s.cap 8
    let l := lineWrite C s.params.mirror x (s.line 8)
    let c := s.chorus
    let i : Int := if fIsFinite c.sweep then fFloor c.sweep else 0
    let fr := if fIsFinite c.sweep then fSub c.sweep (fOfInt (fFloor c.sweep)) else 0#64
    let a := fOfInt (lineAt C l i)
    let b := fOfInt (lineAt C l (i + 1))
    let wet := fAdd a (fMul fr (fSub b a))
    let y := satF (fAdd (fOfInt x) (fMul wet c.mix))
    let n := fAdd c.sweep c.step
    let c' :=
      if fLe c.max n then { c with sweep := c.max, step := c.step ^^^ 0x8000000000000000#64 }
      else if fLe n c.min then { c with sweep := c.min, step := c.step ^^^ 0x8000000000000000#64 }
      else { c with sweep := n }
    exec .chStep s = .next { s with lines := s.lines.set 8 l, chorus := c', res := BitVec.ofInt 32 y }

/-- The sweep never leaves its bounds: from a finite sweep in `[min, max]` and a finite step, one `chStep` leaves it
in `[min, max]`, and the step changes sign exactly when the unclamped sum reaches or passes a bound (R452). -/
def Obligations.SweepStaysInBounds : Prop :=
  ∀ (x : Int) (s : State), fLe s.chorus.min s.chorus.max = true → fIsFinite s.chorus.sweep = true →
    fLe s.chorus.min s.chorus.sweep = true → fLe s.chorus.sweep s.chorus.max = true → fIsFinite s.chorus.step = true →
    let n := fAdd s.chorus.sweep s.chorus.step
    let c := (chNext x s).chorus
    fLe s.chorus.min c.sweep = true ∧ fLe c.sweep s.chorus.max = true ∧
    c.min = s.chorus.min ∧ c.max = s.chorus.max ∧
    (c.step = fNeg s.chorus.step ↔ (fLe s.chorus.max n = true ∨ fLe n s.chorus.min = true)) ∧
    (c.step = s.chorus.step ∨ c.step = fNeg s.chorus.step)

/-- `OSC.STEP` emits the older state sample scaled by 32767 and steps the recurrence `(2w) * y1 - y2`; `OSC.SETFREQ`
copies the two operand patterns and zeroes the older sample (R500, R520, R521). -/
def Obligations.OscillatorStepsAndSeeds : Prop :=
  decode 0x58000000#32 = .ok .oscStep ∧ decode 0x59000000#32 = .ok .oscSetfreq ∧
  fUnpack 0x40DFFFC000000000#64 = .fin false (32767 * 2 ^ 38) (-38) ∧
  fUnpack 0x4000000000000000#64 = .fin false (2 * 2 ^ 51) (-51) ∧
  ∀ s : State,
    exec .oscStep s =
      .next { s with
        res := BitVec.ofInt 32 (satF (fMul 0x40DFFFC000000000#64 s.osc.s0))
        osc := ⟨s.osc.w, s.osc.s1, fSub (fMul (fMul 0x4000000000000000#64 s.osc.w) s.osc.s1) s.osc.s0⟩ } ∧
    exec .oscSetfreq s = .next { s with osc := ⟨s.fopa, 0#64, s.fopb⟩ }

/-- Binary64 (R14): a pattern denotes what its sign, exponent and fraction fields say, subnormals included; `fadd`,
`fsub` and `fmul` of finite operands, and `int2f` of every integer, return the exact result rounded once to nearest, ties
to even, an overflow being an infinity, with the exact result's sign; the sign of a zero result and the overflow bound are
those of IEEE 754, which R14 names and does not spell out (log 18). Comparison and floor of finite values are those of the
exact values (R450, R451). Rounding of a natural number is to the nearest multiple, ties to even; `int2f` is exact for
every Sample, so that rounding or flooring it back gives the Sample. -/
def Obligations.RoundsToNearestEven : Prop :=
  (∀ b : DWord, fUnpack b =
    if expField b = 2047 then (if fracField b = 0 then .inf b.msb else .nan)
    else .fin b.msb (significand b) (lowExponent b)) ∧
  (∀ b : DWord, fIsFinite b = true ↔ Finite64 b) ∧
  (∀ (neg : Bool) (m : Nat) (e : Int),
    RoundedOnce neg ((if neg then -1 else 1) * (m : ℚ) * 2 ^ e) (fRound neg m e)) ∧
  (∀ a b : DWord, Finite64 a → Finite64 b →
    let sum := real64 a + real64 b
    let diff := real64 a - real64 b
    RoundedOnce (if sum = 0 then a.msb && b.msb else decide (sum < 0)) sum (fAdd a b) ∧
    RoundedOnce (if diff = 0 then a.msb && !b.msb else decide (diff < 0)) diff (fSub a b) ∧
    RoundedOnce (a.msb != b.msb) (real64 a * real64 b) (fMul a b) ∧
    (fLe a b = true ↔ real64 a ≤ real64 b) ∧ fFloor a = ⌊real64 a⌋) ∧
  (∀ i : Int, RoundedOnce (decide (i < 0)) (i : ℚ) (fOfInt i)) ∧
  (∀ m k : Nat,
    (∀ q : Nat, |((roundEven m k * 2 ^ k : Nat) : Int) - m| ≤ |((q * 2 ^ k : Nat) : Int) - m|) ∧
    (∀ q : Nat, q ≠ roundEven m k → |((roundEven m k * 2 ^ k : Nat) : Int) - m| = |((q * 2 ^ k : Nat) : Int) - m| →
      roundEven m k % 2 = 0)) ∧
  ∀ i : Int, IsSample i →
    real64 (fOfInt i) = i ∧ satF (fOfInt i) = i ∧ fFloor (fOfInt i) = i ∧ fIsFinite (fOfInt i) = true

/-- Every NaN that an operation returns is the canonical one (R27), and a comparison with a NaN is false (R451). With an
infinite operand the result is the infinity of the right sign, or the canonical NaN for opposite infinities in a sum and
for an infinity times a zero: these cases are those of IEEE 754, which R14 names and does not spell out (log 18). -/
def Obligations.ArithmeticNaNsAreCanonical : Prop :=
  ∀ a b : DWord,
    let inf := fun x : DWord => x = 0x7FF0000000000000#64 ∨ x = 0xFFF0000000000000#64
    (fIsNaN a = true ↔ expField a = 2047 ∧ fracField a ≠ 0) ∧
    ((fIsNaN a = true ∨ fIsNaN b = true) → fLe a b = false) ∧
    (inf a → Finite64 b →
      fAdd a b = a ∧ fAdd b a = a ∧ fSub a b = a ∧ fSub b a = fNeg a ∧
      (fMul a b = if significand b = 0 then 0x7FF8000000000000#64 else if b.msb then fNeg a else a) ∧
      fMul b a = fMul a b ∧ fLe a b = a.msb ∧ fLe b a = !a.msb) ∧
    (inf a → inf b →
      (fAdd a b = if a = b then a else 0x7FF8000000000000#64) ∧
      (fSub a b = if a = b then 0x7FF8000000000000#64 else a) ∧
      (fMul a b = if b.msb then fNeg a else a) ∧ (fLe a b = true ↔ a.msb = true ∨ b.msb = false)) ∧
    (fIsNaN (fAdd a b) = true → fAdd a b = 0x7FF8000000000000#64) ∧
    (fIsNaN (fSub a b) = true → fSub a b = 0x7FF8000000000000#64) ∧
    (fIsNaN (fMul a b) = true → fMul a b = 0x7FF8000000000000#64) ∧
    ((fIsNaN a = true ∨ fIsNaN b = true) →
      fAdd a b = 0x7FF8000000000000#64 ∧ fSub a b = 0x7FF8000000000000#64 ∧ fMul a b = 0x7FF8000000000000#64)

/-! ## Counter and timers -/

/-- A host that reads `CYCLE_LO` and then `CYCLE_HI` gets the two halves of one counter value (R551, R77), which is
not less than the value read before, and any such value is possible: it is the free value of the draw wherever that is
not less (R550; that R76's wrap is left out, and how the draw is written, is the model's reading, log 4). The inbox, replies, draws and epoch are the model's own fields (log 2 to 6). -/
def Obligations.CyclePairIsConsistent : Prop :=
  ∀ (s : State) (a b : Actor) (rest : List Event),
    s.inbox = .read a (s.params.base + 0x100) 4 :: .read b (s.params.base + 0x104) 4 :: rest →
    ∃ (t u : State) (v : DWord), step s = .next t ∧ step t = .next u ∧
      u.readLog = ⟨b, v.extractLsb' 32 32⟩ :: ⟨a, v.extractLsb' 0 32⟩ :: s.readLog ∧
      u = { s with
        inbox := rest, readLog := u.readLog, cycle := v, cycleShadow := v.extractLsb' 32 32, draws := s.draws + 1 } ∧
      s.cycle.toNat ≤ v.toNat ∧
      (s.cycle.toNat ≤ (Config.freeCycleRead s.draws).toNat → v = Config.freeCycleRead s.draws)

/-- `PERF.START t` latches one counter read in its timer and sets it running; nothing else changes but the counter
(R552, R570). A counter read is the model's form of the draw (log 4). -/
def Obligations.PerfStartLatches : Prop :=
  UnitWords 0x60 2 .perfStart ∧
  ∀ (t : BitVec 4) (h : t.toNat < 2) (s : State),
    let k : Fin 2 := ⟨t.toNat, h⟩
    exec (.perfStart t) s =
      .next { s with
        timers := s.timers.set k { s.timer k with start := s.nextCycle, running := true }
        cycle := s.nextCycle
        draws := s.draws + 1 }

/-- `PERF.STOP t` does nothing to a stopped timer. On a running one it takes one counter read, stops the timer, and,
while the list is not full, appends the elapsed cycles modulo `2^64`, saturated to 32 bits (R553, R571). A counter
read is the model's form of the draw (log 4). -/
def Obligations.PerfStopRecords : Prop :=
  UnitWords 0x61 2 .perfStop ∧
  ∀ (t : BitVec 4) (h : t.toNat < 2) (s : State),
    let k : Fin 2 := ⟨t.toNat, h⟩
    let T := s.timer k
    let e := (s.nextCycle.toNat + 2 ^ 64 - T.start.toNat) % 2 ^ 64
    exec (.perfStop t) s =
      if T.running = false then .next s
      else .next { s with
        timers := s.timers.set k
          (if T.count < s.params.perfSamples then
            ⟨T.start, false, T.count + 1, T.samples.set T.count (BitVec.ofNat 32 (min e 4294967295))⟩
          else ⟨T.start, false, T.count, T.samples⟩)
        cycle := s.nextCycle
        draws := s.draws + 1 }

/-- `PERF.CLEAR t` empties its timer; `DIAG.RESET` empties both, restarts the diagnostic machine and clears
`PERF_FRAMES`, keeping `PERF_CAL`; nothing else changes (R554, R572, R574). -/
def Obligations.PerfClearAndDiagReset : Prop :=
  UnitWords 0x62 2 .perfClear ∧ decode 0x64000000#32 = .ok .diagReset ∧
  (∀ (t : BitVec 4) (h : t.toNat < 2) (s : State),
    exec (.perfClear t) s =
      .next { s with timers := s.timers.set t.toNat ⟨0#64, false, 0, List.replicate s.params.perfSamples 0#32⟩ }) ∧
  ∀ s : State,
    let T : Timer := ⟨0#64, false, 0, List.replicate s.params.perfSamples 0#32⟩
    exec .diagReset s =
      .next { s with timers := #v[T, T], diagState := .warmingUp, diagCount := 0#16, perfFrames := 0#32 }

/-- `PERF.CALIBRATE` takes two counter reads and stores their difference, saturated to 32 bits, in `PERF_CAL`; timers
and `RES` are untouched (R573). A counter read is the model's form of the draw (log 4). -/
def Obligations.PerfCalibrateMeasures : Prop :=
  decode 0x63000000#32 = .ok .perfCalibrate ∧
  ∀ s : State,
    let c1 := s.nextCycle
    let c2 := s.readCycle.nextCycle
    exec .perfCalibrate s =
      .next { s with
        perfCal := BitVec.ofNat 32 (min ((c2.toNat + 2 ^ 64 - c1.toNat) % 2 ^ 64) 4294967295)
        cycle := c2
        draws := s.draws + 2 }

/-- The trimmed mean is computed from any ascending arrangement of the recorded samples: a tenth dropped at each end,
the floor of the mean of the at least one sample left, less `PERF_CAL` and at least 0; 0 of no samples; and reading it
changes no state (R560). -/
def Obligations.TrimmedMeanOfSortedSamples : Prop :=
  (∀ cal : Nat, trimmedMean [] cal = 0) ∧
  (∀ (l v : List Nat) (cal : Nat), l ≠ [] → v.Perm l → v.Pairwise (· ≤ ·) →
    1 ≤ l.length - 2 * (l.length / 10) ∧
    trimmedMean l cal =
      ((List.range (l.length - 2 * (l.length / 10))).map fun i => v.getD (l.length / 10 + i) 0).sum
        / (l.length - 2 * (l.length / 10)) - cal) ∧
  ∀ (s : State) (a : Actor) (t : Fin 2) (rest : List Event),
    s.inbox = .read a (s.params.base + 0x118 + 4 * t.val) 4 :: rest → s.busy = false →
    step s =
      .next { s with
        inbox := rest
        readLog := ⟨a, BitVec.ofNat 32
          (trimmedMean (((s.timer t).samples.take (s.timer t).count).map BitVec.toNat) s.perfCal.toNat)⟩ :: s.readLog }

/-! ## The sequencer -/

/-- `PROCESS` with a frame count in `[1, MAX_FRAMES]` latches the mode, becomes busy and changes nothing else; with
any other count it records `FRAMES_RANGE` with its word and changes nothing else (R600, its acceptance step; R601). -/
def Obligations.ProcessAcceptance : Prop :=
  decode 0x70000000#32 = .ok .process ∧
  ∀ s : State,
    ((1 ≤ s.frames.toNat ∧ s.frames.toNat ≤ s.params.maxFrames) →
      exec .process s = .next { s with modeLatched := s.mode, pending := some ⟨s.mode, s.frames.toNat⟩ }) ∧
    (¬ (1 ≤ s.frames.toNat ∧ s.frames.toNat ≤ s.params.maxFrames) →
      exec .process s = .next { s with errCode := .framesRange, errInfo := 0x70000000#32, intErr := true })

/-- A completed STOPPED buffer outputs zero frames and the silent flag, a PASS_THROUGH buffer the effective input
frames and the input flag; the sequencer is idle again, DONE is set, and no unit, register or other RAM byte changes
(R605, R606, R603, R600's completion step). The inbox, replies, draws and epoch are the model's own fields (log 2 to
6). -/
def Obligations.StoppedAndPassBuffers : Prop :=
  ∀ (s : State) (n : Nat) (mode : Mode) (rest : List Event),
    s.inbox = .sequencer :: rest → s.pending = some ⟨mode, n⟩ → (mode = .stopped ∨ mode = .passThrough) →
    ∃ t : State, step s = .next t ∧
      t = { s with
        inbox := rest, pending := none, intDone := true, mem := t.mem, ramEpoch := t.ramEpoch
        outSilent := if mode = .stopped then true else s.inSilent } ∧
      (∀ f < n, t.ramWord (0x20000 + 4 * f) =
        if mode = .stopped ∨ s.inSilent = true then 0#32
        else { s with ramEpoch := s.ramEpoch + 1 }.ramWord (0x10000 + 4 * f)) ∧
      ∀ x, ¬ (0x20000 ≤ x ∧ x < 0x20000 + 4 * n) → Memory.get t.mem x = Memory.get s.mem x

/-- A completed SINE_GENERATOR buffer outputs one oscillator Sample a frame on both channels, advances the oscillator
`n` steps, clears the output flag, and changes nothing else but the completion bits (R607). The inbox, replies, draws
and epoch are the model's own fields (log 2 to 6). -/
def Obligations.SineBuffer : Prop :=
  ∀ (s : State) (n : Nat) (rest : List Event),
    s.inbox = .sequencer :: rest → s.pending = some ⟨.sineGenerator, n⟩ →
    ∃ t : State, step s = .next t ∧
      t = { s with
        inbox := rest, pending := none, intDone := true, mem := t.mem, ramEpoch := t.ramEpoch
        outSilent := false, osc := oscAdvance^[n] s.osc } ∧
      (∀ f < n, t.ramWord (0x20000 + 4 * f) =
        (let y := BitVec.ofInt 16 (satF (fMul 0x40DFFFC000000000#64 (oscAdvance^[f] s.osc).s0)); y ++ y)) ∧
      ∀ x, ¬ (0x20000 ≤ x ∧ x < 0x20000 + 4 * n) → Memory.get t.mem x = Memory.get s.mem x

/-- A completed TEST buffer outputs the reverb network's Sample of each frame's left channel on both channels,
advances the network frame by frame, clears the output flag, and changes nothing else but the completion bits (R609).
The inbox, replies, draws and epoch are the model's own fields (log 2 to 6). -/
def Obligations.ReverbBuffer : Prop :=
  ∀ (s : State) (n : Nat) (rest : List Event),
    s.inbox = .sequencer :: rest → s.pending = some ⟨.test, n⟩ →
    ∃ (t : State) (L : Nat → Vector DelayLine 9), step s = .next t ∧ L 0 = s.lines ∧
      (∀ f < n,
        let w := if s.inSilent then 0#32 else { s with ramEpoch := s.ramEpoch + 1 }.ramWord (0x10000 + 4 * f)
        let x := (w.extractLsb' 0 16).toInt
        let r := reverbRun x { s with lines := L f }
        L (f + 1) = r.1.lines ∧ t.ramWord (0x20000 + 4 * f) = BitVec.ofInt 16 r.2 ++ BitVec.ofInt 16 r.2) ∧
      t = { s with
        inbox := rest, pending := none, intDone := true, mem := t.mem, ramEpoch := t.ramEpoch
        outSilent := false, lines := L n } ∧
      ∀ x, ¬ (0x20000 ≤ x ∧ x < 0x20000 + 4 * n) → Memory.get t.mem x = Memory.get s.mem x

/-- The FILTER path runs both FIRs on each frame's left channel, outputs FIR A's Sample, sums the absolute difference
of the rectified outputs exactly in `FILT_DIFF` (at most `n * 32768`), and flags the buffer when the sum exceeds the
threshold (R608, R611). The inbox, replies, draws and epoch are the model's own fields (log 2 to 6). -/
def Obligations.FilterPathIntegratesDifference : Prop :=
  ∀ (s : State) (n : Nat), s.params.Ok → n ≤ s.params.maxFrames →
    ∃ (L : Nat → Vector DelayLine 9) (a b : Nat → Int),
      L 0 = s.lines ∧
      (∀ f < n,
        let σ := { s with lines := L f, ramEpoch := s.ramEpoch + 2 * f }
        let x := mono (if s.inSilent then 0#32 else s.ramWord (0x10000 + 4 * f))
        a f = firOut 0 x σ ∧ b f = firOut 1 x (firNext 0 x σ) ∧ L (f + 1) = (firNext 1 x (firNext 0 x σ)).lines) ∧
      let t := filterPath n s
      let diff := ((List.range n).map fun f => ((a f).natAbs - (b f).natAbs : Int).natAbs).sum
      (∀ f < n, t.ramWord (0x20000 + 4 * f) = BitVec.ofInt 16 (a f) ++ BitVec.ofInt 16 (a f)) ∧
      t.filtDiff.toNat = diff ∧ diff ≤ n * 32768 ∧ (t.outSilent = true ↔ s.filtThresh.toNat < diff) ∧
      t = { s with
        lines := L n, mem := t.mem, ramEpoch := t.ramEpoch, filtDiff := t.filtDiff, outSilent := t.outSilent } ∧
      ∀ x, ¬ (0x20000 ≤ x ∧ x < 0x20000 + 4 * n) → Memory.get t.mem x = Memory.get s.mem x

/-- A completed FILTER buffer runs the path once, whatever the phase, and steps the diagnostic machine (R620 to R623):
WARMING_UP counts; SAMPLING_A starts `T1` then `T0`, records one `T0` sample around the path, with three counter reads in
that order; SAMPLING_B stops `T1`, counts the pair, records the frame count and settles after `PERF_SAMPLES` pairs;
SETTLED changes no part of the machine. Beside the diagnostic machine's own fields, the timers and the counter, a buffer
changes what the path changes and nothing else. The counter reads are the model's form of the draw (log 4), the epoch is the
model's own (log 5). -/
def Obligations.DiagnosticMachineSteps : Prop :=
  ∀ (s : State) (n : Nat),
    let t := filterBuffer n s
    let entersA := s.diagState = .samplingA ∨
      (s.diagState = .warmingUp ∧ s.params.warmupBuffers ≤ s.diagCount.toNat)
    (∀ rest, s.inbox = .sequencer :: rest → s.pending = some ⟨.filter, n⟩ →
      let u := filterBuffer n { s with inbox := rest, ramEpoch := s.ramEpoch + 1 }
      step s = .next { u with ramEpoch := u.ramEpoch + 1, pending := none, intDone := true }) ∧
    (t.lines = (filterPath n s).lines ∧ t.mem = (filterPath n s).mem ∧ t.filtDiff = (filterPath n s).filtDiff ∧
      t.outSilent = (filterPath n s).outSilent) ∧
    t = { filterPath n s with
      diagState := t.diagState, diagCount := t.diagCount, timers := t.timers, cycle := t.cycle, draws := t.draws
      perfFrames := t.perfFrames } ∧
    ((s.diagState = .warmingUp ∧ s.diagCount.toNat < s.params.warmupBuffers) →
      t.diagState = .warmingUp ∧ t.diagCount = s.diagCount + 1 ∧ t.timers = s.timers ∧ t.draws = s.draws ∧
        t.cycle = s.cycle ∧ t.perfFrames = s.perfFrames) ∧
    (entersA →
      t.diagState = .samplingB ∧ t.diagCount = (if s.diagState = .samplingA then s.diagCount else 0#16) ∧
        t.draws = s.draws + 3 ∧ t.cycle = s.readCycle.readCycle.nextCycle ∧ t.perfFrames = s.perfFrames ∧
        t.timer 1 = { s.timer 1 with start := s.nextCycle, running := true } ∧
        t.timer 0 = timerRecord s.params.perfSamples (s.readCycle.readCycle.nextCycle - s.readCycle.nextCycle)
          { s.timer 0 with start := s.readCycle.nextCycle, running := false }) ∧
    (s.diagState = .samplingB →
      t.diagCount = s.diagCount + 1 ∧ t.perfFrames = BitVec.ofNat 32 n ∧ t.timers = (timerStop 1 s).timers ∧
        t.draws = (timerStop 1 s).draws ∧ t.cycle = (timerStop 1 s).cycle ∧
        t.diagState = (if s.params.perfSamples ≤ (s.diagCount + 1).toNat then .settled else .samplingA)) ∧
    (s.diagState = .settled →
      t.diagState = .settled ∧ t.diagCount = s.diagCount ∧ t.timers = s.timers ∧ t.draws = s.draws ∧
        t.cycle = s.cycle ∧ t.perfFrames = s.perfFrames)

/-- A completed buffer is full in every mode: every byte of its output frames has been written, whatever the mode, and
the completion never stops (R631, R703), both where the sequencer's turn comes in the midst of other accesses and where
no access is left (R830). With nothing pending the sequencer's turn, and a step with no access left, keep all state: no
`DONE` is set and the block stays idle (R711, R745). With no access left a step is the sequencer's turn. The inbox is the
model's own (log 2). -/
def Obligations.OutputBufferIsAlwaysFull : Prop :=
  (∀ (s : State) (rest : List Event), s.pending = none →
    (s.inbox = .sequencer :: rest → step s = .next { s with inbox := rest }) ∧
    (s.inbox = [] → step s = .next s)) ∧
  (∀ s : State, step { s with inbox := [] } = step { s with inbox := [.sequencer] }) ∧
  ∀ (s : State) (p : Pending) (rest : List Event),
    (s.inbox = .sequencer :: rest ∨ (s.inbox = [] ∧ rest = [])) → s.pending = some p →
    ∃ t : State, step s = .next t ∧ t.inbox = rest ∧ t.pending = none ∧ t.intDone = true ∧ t.errCode = s.errCode ∧
      ∀ f < p.frames, ∀ k < 4, Memory.get t.mem (0x20000 + 4 * f + k) ≠ none

/-- Only the lines, the oscillator and the diagnostic state that a mode's path names advance in its buffer, and no
mode touches the chorus (R612). -/
def Obligations.ModesAdvanceOnlyTheirUnits : Prop :=
  ∀ (mode : Mode) (n : Nat) (s : State),
    let t := processBuffer mode n s
    t.chorus = s.chorus ∧ t.line 8 = s.line 8 ∧ t.acc = s.acc ∧ t.res = s.res ∧
    (mode ≠ .filter → t.line 0 = s.line 0 ∧ t.line 1 = s.line 1 ∧ t.diagState = s.diagState ∧
      t.diagCount = s.diagCount ∧ t.timers = s.timers ∧ t.filtDiff = s.filtDiff ∧ t.cycle = s.cycle ∧ t.draws = s.draws) ∧
    (mode ≠ .test → ∀ u : Fin 9, 2 ≤ u.val → t.line u = s.line u) ∧
    (mode ≠ .sineGenerator → t.osc = s.osc)

/-! ## The bus -/

/-- The address map is R104's table, row by row: each register and each window word below its parameter bound is found at
the offset the table gives, with the write access of its columns, and nothing else is found anywhere. It is one to one:
each register in bounds is found at its offset, and an aligned offset is the offset of the register found there. -/
def Obligations.AddressMapIsOneToOne : Prop :=
  ∀ p : Params, p.Ok →
    (∀ row ∈ addressMap,
      regAt p row.1 = some row.2.1 ∧ regOff row.2.1 = row.1 ∧ writeAccess row.2.1 = row.2.2) ∧
    (∀ row ∈ addressWindows p, ∀ i < row.2.2.1,
      regAt p (row.1 i) = some (row.2.1 i) ∧ regOff (row.2.1 i) = row.1 i ∧ writeAccess (row.2.1 i) = row.2.2.2) ∧
    (∀ (off : Nat) (r : Reg), off % 4 = 0 → regAt p off = some r →
      (∃ access, (off, r, access) ∈ addressMap) ∨
        ∃ row ∈ addressWindows p, ∃ i < row.2.2.1, off = row.1 i ∧ r = row.2.1 i) ∧
    (∀ r : Reg, inBounds p r → regAt p (regOff r) = some r) ∧
    ∀ (off : Nat) (r : Reg), off % 4 = 0 → regAt p off = some r → regOff r = off ∧ inBounds p r

/-- An access that is not an aligned 4-byte one records `BUS_MISALIGNED`; an aligned one to an offset where nothing is
mapped records `BUS_UNMAPPED`; both with the offset; a read returns 0 and nothing else changes (R101, R105). The
inbox, replies, draws and epoch are the model's own fields (log 2 to 6). -/
def Obligations.BadAccessesRecordErrors : Prop :=
  ∀ (s : State) (a : Actor) (addr width : Nat) (v : Word) (rest : List Event), s.params.Ok →
    s.params.base ≤ addr → addr ≤ s.params.base + 0x3FFFF →
    let off := addr - s.params.base
    let bad := width ≠ 4 ∨ off % 4 ≠ 0
    let unmapped := ¬ bad ∧ ∀ r : Reg, inBounds s.params r → regOff r ≠ off
    let rd := { s with inbox := rest, readLog := ⟨a, 0#32⟩ :: s.readLog }
    let wr := { s with inbox := rest, ramEpoch := s.ramEpoch + 1 }
    (s.inbox = .read a addr width :: rest →
      (bad → step s = .next { rd with errCode := .busMisaligned, errInfo := BitVec.ofNat 32 off, intErr := true }) ∧
      (unmapped → step s = .next { rd with errCode := .busUnmapped, errInfo := BitVec.ofNat 32 off, intErr := true })) ∧
    (s.inbox = .write a addr width v :: rest →
      (bad → step s = .next { wr with errCode := .busMisaligned, errInfo := BitVec.ofNat 32 off, intErr := true }) ∧
      (unmapped → step s = .next { wr with errCode := .busUnmapped, errInfo := BitVec.ofNat 32 off, intErr := true }))

/-- While busy, a write to an input of the running buffer or to unit state is ignored and records `BUSY_WRITE` with
its offset; a command word records `BUSY_CMD` with the word; the registers writable at any time take the write (R118).
The inbox, replies, draws and epoch are the model's own fields (log 2 to 6). -/
def Obligations.BusyWritesAreRejected : Prop :=
  ∀ (s : State) (a : Actor) (r : Reg) (v : Word) (rest : List Event), s.params.Ok → s.busy = true →
    s.inbox = .write a (s.params.base + regOff r) 4 v :: rest → inBounds s.params r →
    let s' := { s with inbox := rest, ramEpoch := s.ramEpoch + 1 }
    ((r = .frames ∨ r = .inFlags ∨ r = .filtThresh ∨ r = .perfCal ∨ (∃ k, r = .gainComb k) ∨ (∃ k, r = .gainAp k) ∨
      (∃ n i, r = .coef n i) ∨ (∃ f, r = .inBuf f) ∨
      (∃ w hi, r = .wide w hi ∧ w ≠ .fopa ∧ w ≠ .fopb)) →
      step s = .next (raiseError .busyWrite (BitVec.ofNat 32 (regOff r)) s')) ∧
    (r = .cmd → step s = .next (raiseError .busyCmd v s')) ∧
    ((r = .opa → step s = .next { s' with opa := v }) ∧ (r = .opb → step s = .next { s' with opb := v }) ∧
      (r = .intEn → step s = .next { s' with doneEn := v.getLsbD 0, errEn := v.getLsbD 1 }) ∧
      (r = .errCode → step s = .next { s' with errCode := .none, errInfo := 0#32 }) ∧
      (∀ hi, r = .wide .fopa hi → step s = .next { s' with fopa := withHalf s.fopa hi v }) ∧
      (∀ hi, r = .wide .fopb hi → step s = .next { s' with fopb := withHalf s.fopb hi v }) ∧
      (r = .mode → step s = .next { s' with mode := (modeOfWord v).getD s.mode }) ∧
      (r = .ctrl → step s = .next (if v.getLsbD 0 then softReset s' else s')) ∧
      (writeAccess r = .readOnly → step s = .next s') ∧
      (r = .intStatus → step s = .next { s' with
        intDone := s.intDone && !v.getLsbD 0, intErr := s.intErr && !v.getLsbD 1 }))

/-- A host write of a read-only register or RAM word has no effect and raises no error, busy or not (R85). The inbox,
replies, draws and epoch are the model's own fields (log 2 to 6). -/
def Obligations.ReadOnlyWritesAreIgnored : Prop :=
  ∀ (s : State) (a : Actor) (r : Reg) (v : Word) (rest : List Event), s.params.Ok → inBounds s.params r →
    (r ∈ [Reg.id, .version, .status, .errInfo, .outFlags, .res, .acc false, .acc true, .filtDiff, .cycleLo, .cycleHi,
        .diagCount, .perfFrames, .paramMirror, .paramMaxFrames, .paramFirMaxTaps, .paramPerfSamples, .paramWarmup,
        .paramAccWidth] ∨
      (∃ t, r = .perfStat t) ∨ (∃ t, r = .perfMean t) ∨ (∃ u, r = .dlLen u) ∨ (∃ t i, r = .perfSample t i) ∨
      ∃ f, r = .outBuf f) →
    s.inbox = .write a (s.params.base + regOff r) 4 v :: rest →
    step s = .next { s with inbox := rest, ramEpoch := s.ramEpoch + 1 }

/-- An idle host write to a read-write register stores its defined bits, which read back with the undefined bits 0; a
write to one half of a 64-bit register keeps the other half; nothing else changes (R85, R111 and the registers' own
rules). The inbox, replies, draws and epoch are the model's own fields (log 2 to 6). -/
def Obligations.RegisterWritesReadBack : Prop :=
  ∀ (s : State) (a : Actor) (r : Reg) (v : Word) (rest : List Event), s.params.Ok → s.busy = false →
    s.inbox = .write a (s.params.base + regOff r) 4 v :: rest → inBounds s.params r →
    let s' := { s with inbox := rest, ramEpoch := s.ramEpoch + 1 }
    let low := (v.extractLsb' 0 16).setWidth 32
    (r = .opa → step s = .next { s' with opa := v }) ∧
    (r = .opb → step s = .next { s' with opb := v }) ∧
    (r = .filtThresh → step s = .next { s' with filtThresh := v }) ∧
    (r = .perfCal → step s = .next { s' with perfCal := v }) ∧
    (r = .frames → ∃ x, step s = .next { s' with frames := x } ∧ x.setWidth 32 = low) ∧
    (∀ k, r = .gainComb k → ∃ t, step s = .next t ∧ t = { s' with gainComb := t.gainComb } ∧
      regValue t (.gainComb k) = low ∧ ∀ j, j ≠ k → t.gainComb[j] = s.gainComb[j]) ∧
    (∀ k, r = .gainAp k → ∃ t, step s = .next t ∧ t = { s' with gainAp := t.gainAp } ∧
      regValue t (.gainAp k) = low ∧ ∀ j, j ≠ k → t.gainAp[j] = s.gainAp[j]) ∧
    (r = .inFlags → ∃ t, step s = .next t ∧ t = { s' with inSilent := v.getLsbD 0 } ∧
      regValue t .inFlags = v &&& 1#32) ∧
    (r = .intEn → ∃ t, step s = .next t ∧ t = { s' with doneEn := v.getLsbD 0, errEn := v.getLsbD 1 } ∧
      regValue t .intEn = v &&& 3#32) ∧
    (∀ w hi, r = .wide w hi → ∃ t, step s = .next t ∧
      t = { s' with fopa := t.fopa, fopb := t.fopb, osc := t.osc, chorus := t.chorus } ∧
      regValue t (.wide w hi) = v ∧ regValue t (.wide w (!hi)) = regValue s (.wide w (!hi)) ∧
      ∀ w' h, w' ≠ w → regValue t (.wide w' h) = regValue s (.wide w' h))

/-- A host write to a RAM word stores all of it (a coefficient keeps its low half, the rest reads 0) and leaves every
other byte alone; reading it back gives the stored word (R73, R83, R85, R102). The inbox, replies, draws and epoch are
the model's own fields (log 2 to 6). -/
def Obligations.RamWritesReadBack : Prop :=
  ∀ (s : State) (a : Actor) (v : Word) (rest : List Event), s.params.Ok → s.busy = false →
    (∀ f < s.params.maxFrames, s.inbox = .write a (s.params.base + 0x10000 + 4 * f) 4 v :: rest →
      ∃ t, step s = .next t ∧ regValue t (.inBuf f) = v ∧
        t = { s with inbox := rest, ramEpoch := s.ramEpoch + 1, mem := t.mem } ∧
        (∀ k < 4, Memory.get t.mem (0x10000 + 4 * f + k) = some (v.extractLsb' (8 * k) 8)) ∧
        ∀ x, ¬ (0x10000 + 4 * f ≤ x ∧ x < 0x10000 + 4 * f + 4) → Memory.get t.mem x = Memory.get s.mem x) ∧
    (∀ (n : Fin 2), ∀ i < s.params.firMaxTaps,
      s.inbox = .write a (s.params.base + 0x1000 + 0x1000 * n.val + 4 * i) 4 v :: rest →
      ∃ t, step s = .next t ∧ regValue t (.coef n i) = (v.extractLsb' 0 16).setWidth 32 ∧
        t.coef n i = (v.extractLsb' 0 16).toInt ∧
        t = { s with inbox := rest, ramEpoch := s.ramEpoch + 1, mem := t.mem } ∧
        ∀ x, ¬ (0x1000 + 0x1000 * n.val + 4 * i ≤ x ∧ x < 0x1000 + 0x1000 * n.val + 4 * i + 4) →
          Memory.get t.mem x = Memory.get s.mem x)

/-- `MODE` stores each of the values 0 to 4 and ignores every other, at any time; nothing else changes (R63). The
inbox, replies, draws and epoch are the model's own fields (log 2 to 6). -/
def Obligations.ModeWritesAreFiltered : Prop :=
  ∀ (s : State) (a : Actor) (v : Word) (rest : List Event),
    s.inbox = .write a (s.params.base + 0x20) 4 v :: rest →
    ∃ m, step s = .next { s with inbox := rest, ramEpoch := s.ramEpoch + 1, mode := m } ∧
      (v = 0#32 → m = .stopped) ∧ (v = 1#32 → m = .passThrough) ∧ (v = 2#32 → m = .filter) ∧
      (v = 3#32 → m = .sineGenerator) ∧ (v = 4#32 → m = .test) ∧ (4 < v.toNat → m = s.mode)

/-- An idle read of any mapped word but `CYCLE_LO` changes nothing but the reply it logs (R109), and what it returns is,
field by field, what the rule that names the register says (`RegisterViews`: `STATUS` R58, `INT_STATUS` R59, the code
numbers R61 and R701, `ACC` R54, `DL_LEN` and `PARAM_*` R72, `PERF_Tn_STAT` R80, and every other register and RAM word).
That bits 31:16 of a coefficient word read 0 also while it is unwritten is the model's reading of R73 and R85 beside R95,
which makes such a read a draw (log 10, DEDUCED).
The inbox, replies, draws and epoch are the model's own fields (log 2 to 6). -/
def Obligations.ReadsHaveNoSideEffect : Prop :=
  ∀ s : State, s.params.Ok → s.busy = false →
    ∃ read : Reg → Word, RegisterViews s read ∧
      ∀ (a : Actor) (r : Reg) (rest : List Event), inBounds s.params r → r ≠ .cycleLo →
        s.inbox = .read a (s.params.base + regOff r) 4 :: rest →
        step s = .next { s with inbox := rest, readLog := ⟨a, read r⟩ :: s.readLog }

/-- While busy, a read of state that a `PROCESS` may write returns a free 32-bit value; `STATUS` returns one in its
bits 5:2 and the others as usual, BUSY as 1; every other read but that of `CYCLE_LO` returns its value as usual
(R119), field by field what the rule that names the register says (`RegisterViews`). That all 32 bits of a narrow
register are free, by R119 and against R85, is the model's reading (log 6, DEDUCED), and so is that bits 31:16 of an
unwritten coefficient word read 0, by R73 and R85 beside R95 (log 10, DEDUCED). The inbox, replies, draws and
epoch are the model's own fields (log 2 to 6). -/
def Obligations.BusyReadsAreFree : Prop :=
  ∀ s : State, s.params.Ok → s.busy = true → ∃ read : Reg → Word, RegisterViews s read ∧
  ∀ (a : Actor) (r : Reg) (rest : List Event), inBounds s.params r →
    s.inbox = .read a (s.params.base + regOff r) 4 :: rest →
    let drawn := r ∈ [Reg.outFlags, .filtDiff, .perfFrames, .diagCount] ∨ (∃ f, r = .outBuf f) ∨
      (∃ w hi, r = .wide w hi ∧ w ∈ [WideReg.oscW, .oscS0, .oscS1, .chSweep, .chStep]) ∨
      (∃ t, r = .perfStat t ∨ r = .perfMean t) ∨ ∃ t i, r = .perfSample t i
    (drawn →
      step s = .next { s with
        inbox := rest, draws := s.draws + 1, readLog := ⟨a, Config.freeBusyRead s.draws⟩ :: s.readLog }) ∧
    (r = .status → ∃ v : Word, v.getLsbD 0 = true ∧
      (∀ i < 32, v.getLsbD i =
        if 2 ≤ i ∧ i ≤ 5 then (Config.freeBusyRead s.draws).getLsbD i else (read .status).getLsbD i) ∧
      step s = .next { s with inbox := rest, draws := s.draws + 1, readLog := ⟨a, v⟩ :: s.readLog }) ∧
    (¬ drawn → r ≠ .status → r ≠ .cycleLo →
      step s = .next { s with inbox := rest, readLog := ⟨a, read r⟩ :: s.readLog })

/-- The interrupt line is the level of R710; a host write of `INT_STATUS`, busy or idle, clears the bits written 1 and
changes nothing else; a host write of any value to `ERR_CODE`, busy or idle, clears `ERR_CODE` and `ERR_INFO` and
changes nothing else, `INT_STATUS` not (R59, R61, R710, R711); and what the two registers and `STATUS` read then. The
inbox, replies, draws and epoch are the model's own fields (log 2 to 6). -/
def Obligations.InterruptsAndErrorClears : Prop :=
  ∀ (s : State) (v : Word),
    (s.irq = true ↔ (s.intDone = true ∧ s.doneEn = true) ∨ (s.intErr = true ∧ s.errEn = true)) ∧
    (let t := writeReg s v .intStatus
     (t.intDone = true ↔ s.intDone = true ∧ v.getLsbD 0 = false) ∧
     (t.intErr = true ↔ s.intErr = true ∧ v.getLsbD 1 = false) ∧ t.errCode = s.errCode ∧ t.errInfo = s.errInfo) ∧
    (let t := writeReg s v .errCode
     t.errCode = .none ∧ t.errInfo = 0#32 ∧ t.intErr = s.intErr ∧ regValue t .errCode = 0#32 ∧
     (regValue t .status).getLsbD 1 = false) ∧
    ∀ (a : Actor) (rest : List Event),
      (s.inbox = .write a (s.params.base + 0x10) 4 v :: rest → ∃ t, step s = .next t ∧
        t = { s with
          inbox := rest, ramEpoch := s.ramEpoch + 1
          intDone := s.intDone && !v.getLsbD 0, intErr := s.intErr && !v.getLsbD 1 } ∧
        TwoBits (regValue t .intStatus) (s.intDone && !v.getLsbD 0) (s.intErr && !v.getLsbD 1)) ∧
      (s.inbox = .write a (s.params.base + 0x18) 4 v :: rest → ∃ t, step s = .next t ∧
        t = { s with inbox := rest, ramEpoch := s.ramEpoch + 1, errCode := .none, errInfo := 0#32 } ∧
        regValue t .errCode = 0#32 ∧ regValue t .errInfo = 0#32 ∧ (regValue t .status).getLsbD 1 = false)

/-- The two host actors have the same rights: the same access by either leaves the same state, but for the actor its
reply is logged for (R108, R740). -/
def Obligations.ActorsHaveTheSameRights : Prop :=
  ∀ (s : State) (a b : Actor) (addr width : Nat) (v : Word) (rest : List Event),
    step { s with inbox := .write a addr width v :: rest } = step { s with inbox := .write b addr width v :: rest } ∧
    ∀ t, step { s with inbox := .read a addr width :: rest } = .next t →
      ∃ x, t.readLog = ⟨a, x⟩ :: s.readLog ∧
        step { s with inbox := .read b addr width :: rest } = .next { t with readLog := ⟨b, x⟩ :: s.readLog }

/-! ## Reset and the whole machine -/

/-- After power-on every register reads the value of R90, every delay line is clear, every RAM word is unwritten, and
no interrupt is pending or enabled (R90, R712, R802), in every build; the power-on event leads there from every state,
with the model's own inbox, replies and counters kept (R800; log 2, 3, 4, 5). -/
def Obligations.ResetValues : Prop :=
  (∀ (p : Params) (r : Reg),
    (r ∈ [Reg.opa, .opb, .res, .acc false, .acc true, .cmd, .ctrl, .status, .intStatus, .intEn, .errCode, .errInfo, .mode,
        .frames, .inFlags, .outFlags, .filtDiff, .cycleHi, .perfCal, .diagCount, .perfFrames] ∨
      (∃ w hi, r = .wide w hi) ∨ (∃ k, r = .gainComb k) ∨ (∃ k, r = .gainAp k) ∨ (∃ t i, r = .perfSample t i) ∨
      ∃ t, r = .perfMean t) →
    1 ≤ p.perfSamples → regValue (State.resetOf p) r = 0#32) ∧
  (∀ (p : Params) (t : Fin 2), 1 ≤ p.perfSamples → regValue (State.resetOf p) (.perfStat t) = 0#32) ∧
  (∀ p : Params,
    regValue (State.resetOf p) .filtThresh = 0xFFFFFFFF#32 ∧
    regValue (State.resetOf p) .id = 0x44535046#32 ∧ regValue (State.resetOf p) .version = 0x00010000#32 ∧
    (∀ u : Fin 9, (State.resetOf p).line u = DelayLine.cleared (p.cap u) p.mirror) ∧
    (∀ t : Fin 2, (State.resetOf p).timer t = Timer.cleared p.perfSamples) ∧
    (∀ x, Memory.get (State.resetOf p).mem x = none) ∧ (State.resetOf p).irq = false ∧
    (State.resetOf p).busy = false ∧ (State.resetOf p).cycle = 0#64) ∧
  ∀ (s : State) (rest : List Event), s.inbox = .powerOn :: rest →
    step s = .next { State.resetOf s.params with
      inbox := rest, readLog := s.readLog, draws := s.draws, ramEpoch := s.ramEpoch + 1 }

/-- A soft reset, at any time, abandons a pending `PROCESS` without completion, gives every state of R90 its reset
value, records nothing, and keeps every RAM byte (R801). The inbox, replies, draws and epoch are the model's own
fields (log 2 to 6). -/
def Obligations.SoftResetAbandonsAndKeepsRam : Prop :=
  ∀ (s : State) (a : Actor) (v : Word) (rest : List Event),
    s.inbox = .write a (s.params.base + 0x08) 4 v :: rest →
    (v.getLsbD 0 = true → ∃ t, step s = .next t ∧ t.mem = s.mem ∧ t.inbox = rest ∧ t.readLog = s.readLog ∧
      t = { State.resetOf s.params with
        mem := s.mem, inbox := rest, readLog := s.readLog, draws := s.draws, ramEpoch := s.ramEpoch + 1 } ∧
      AfterReset t ∧ t.pending = none ∧ t.intDone = false ∧ NoErrorRecorded t) ∧
    (v.getLsbD 0 = false → step s = .next { s with inbox := rest, ramEpoch := s.ramEpoch + 1 })

/-- The invariant of the block holds after power-on reset, in every build whose parameters are in range. -/
def Obligations.InvariantHoldsAtReset : Prop :=
  (∀ p : Params, p.Ok → (State.resetOf p).Inv) ∧ State.reset.Inv

/-- Every step keeps the invariant: the build in range, the mirror of every delay line exact (R71), `ACC` in its width
(R54), timers, diagnostic machine and pending buffer in their ranges (R79, R620, R600), `FILT_DIFF` exact (R611), and
the RAM list canonical. -/
def Obligations.EveryStepKeepsTheInvariant : Prop :=
  ∀ s t : State, s.Inv → step s = .next t → t.Inv

/-- The build never changes: no step changes a parameter, a capacity among them (R7, R71). -/
def Obligations.ParametersNeverChange : Prop :=
  ∀ s t : State, step s = .next t → t.params = s.params

/-- The block never stops by itself: a step answers a next state unless the oldest event is a bus access outside the
window. The rules record errors and never stop the block (R700, R730). That an access outside the window, which is none
to this block (R100), stops the model with `Fault.outsideWindow` is the model's own choice (log 9, DESIGN CHOICE): no
rule gives it. -/
def Obligations.StopsOnlyOutsideTheWindow : Prop :=
  ∀ s : State,
    (step s = .fault .outsideWindow ∧ ∃ a addr width v rest,
      (s.inbox = .read a addr width :: rest ∨ s.inbox = .write a addr width v :: rest) ∧
      (addr < s.params.base ∨ s.params.base + 0x3FFFF < addr)) ∨
    ((∃ t, step s = .next t) ∧ ∀ a addr width v rest,
      (s.inbox = .read a addr width :: rest ∨ s.inbox = .write a addr width v :: rest) →
      s.params.base ≤ addr ∧ addr ≤ s.params.base + 0x3FFFF)

/-- What `exec` of a command leaves unchanged: the build, the operand registers (R50, R53), the host's configuration
(R60, R63, R65, R66, R68, R69, R75), the flags that only a completed buffer writes (R67, R69), and every byte of the RAM
windows; and, of the model's own fields, the inbox and the replies (log 2, 3). `CMD` is unchanged by `exec` alone, which is
the model's choice (log 12, DESIGN CHOICE): an accepted command does update `CMD` (R55, R140), in the step around
`exec`, as StepRunsDecodedCommand says. -/
def Obligations.CommandFrame : Prop :=
  ∀ (i : Instr) (s t : State), exec i s = .next t →
    t.params = s.params ∧ t.inbox = s.inbox ∧ t.readLog = s.readLog ∧ t.cmd = s.cmd ∧
    t.opa = s.opa ∧ t.opb = s.opb ∧ t.fopa = s.fopa ∧ t.fopb = s.fopb ∧
    t.mode = s.mode ∧ t.frames = s.frames ∧ t.inSilent = s.inSilent ∧ t.outSilent = s.outSilent ∧
    t.gainComb = s.gainComb ∧ t.gainAp = s.gainAp ∧ t.filtThresh = s.filtThresh ∧ t.filtDiff = s.filtDiff ∧
    t.doneEn = s.doneEn ∧ t.errEn = s.errEn ∧ t.intDone = s.intDone ∧ t.cycleShadow = s.cycleShadow ∧
    t.chorus.min = s.chorus.min ∧ t.chorus.max = s.chorus.max ∧ t.chorus.mix = s.chorus.mix ∧
    ∀ a, Memory.get t.mem a = Memory.get s.mem a

/-- Each command writes only its own unit: `ACC` only by `ACC.SET` and `ACC.MAC` (R54), the oscillator only by `OSC.*`
(R74), the chorus only by `CH.STEP` (R75), timers and the counter only by `PERF.*` and `DIAG.RESET` (R79, R550),
`PERF_CAL` only by `PERF.CALIBRATE` (R78), a pending buffer only by `PROCESS` (R600), the lines only by the commands
of their owners (R70); `RES` by none that produces no value (R52); and no legal command but `DL.RAW` and `PROCESS`
records an error. -/
def Obligations.CommandsWriteOnlyTheirUnit : Prop :=
  ∀ (i : Instr) (s t : State), exec i s = .next t →
    ((∀ imm, i ≠ .accSet imm) → i ≠ .accMac → t.acc = s.acc) ∧
    (i ≠ .oscStep → i ≠ .oscSetfreq → t.osc = s.osc) ∧
    (i ≠ .chStep → t.chorus = s.chorus) ∧
    (i ≠ .perfCalibrate → t.perfCal = s.perfCal) ∧
    ((∀ k, i ≠ .perfStart k) → (∀ k, i ≠ .perfStop k) → (∀ k, i ≠ .perfClear k) → i ≠ .diagReset →
      t.timers = s.timers) ∧
    ((∀ k, i ≠ .perfStart k) → (∀ k, i ≠ .perfStop k) → i ≠ .perfCalibrate → t.cycle = s.cycle ∧ t.draws = s.draws) ∧
    (i ≠ .diagReset → t.diagState = s.diagState ∧ t.diagCount = s.diagCount ∧ t.perfFrames = s.perfFrames) ∧
    (i ≠ .process → t.pending = s.pending ∧ t.modeLatched = s.modeLatched) ∧
    (∀ u : Fin 9, (∀ k, i ≠ .dlWrite k) → (∀ k, i ≠ .dlClear k) →
      (u.val ≤ 1 → ∀ k, i ≠ .firStep k) → (2 ≤ u.val ∧ u.val ≤ 5 → (∀ k, i ≠ .combStep k) ∧ i ≠ .revStep) →
      (6 ≤ u.val ∧ u.val ≤ 7 → (∀ k, i ≠ .apStep k) ∧ i ≠ .revStep) → (u.val = 8 → i ≠ .chStep) →
      t.line u = s.line u) ∧
    ((i ∈ [Instr.nop, .accMac, .oscSetfreq, .perfCalibrate, .diagReset, .process] ∨ (∃ imm, i = .accSet imm) ∨
      ∃ k, i = .dlWrite k ∨ i = .dlClear k ∨ i = .perfStart k ∨ i = .perfStop k ∨ i = .perfClear k) → t.res = s.res) ∧
    (i.wellFormed = true → (∀ u imm, i ≠ .dlRaw u imm) → i ≠ .process →
      t.errCode = s.errCode ∧ t.errInfo = s.errInfo ∧ t.intErr = s.intErr)
end

