-- ==== Sys2Proof/Laws/Decode.lean ====
section
/-!
SUPPORT. The fields of an assembled word (R130): each is the one it was assembled from, and `RSV` is 0.
-/
namespace Sys2Proof

@[simp] theorem opcOf_mkWord (o : BitVec 8) (u : BitVec 4) (i : Half) : opcOf (mkWord o u i) = o := by
  ext j hj
  simp only [opcOf, mkWord, BitVec.getElem_extractLsb', BitVec.getLsbD_append]
  rw [if_neg (by omega), if_neg (by omega), if_neg (by omega)]
  have : 24 + j - 16 - 4 - 4 = j := by omega
  rw [this, BitVec.getLsbD_eq_getElem hj]

@[simp] theorem unitOf_mkWord (o : BitVec 8) (u : BitVec 4) (i : Half) : unitOf (mkWord o u i) = u := by
  ext j hj
  simp only [unitOf, mkWord, BitVec.getElem_extractLsb', BitVec.getLsbD_append]
  rw [if_neg (by omega), if_neg (by omega), if_pos (by omega)]
  have : 20 + j - 16 - 4 = j := by omega
  rw [this, BitVec.getLsbD_eq_getElem hj]

@[simp] theorem rsvOf_mkWord (o : BitVec 8) (u : BitVec 4) (i : Half) : rsvOf (mkWord o u i) = 0#4 := by
  ext j hj
  simp only [rsvOf, mkWord, BitVec.getElem_extractLsb', BitVec.getLsbD_append]
  rw [if_neg (by omega), if_pos (by omega)]
  simp

@[simp] theorem immOf_mkWord (o : BitVec 8) (u : BitVec 4) (i : Half) : immOf (mkWord o u i) = i := by
  ext j hj
  simp only [immOf, mkWord, BitVec.getElem_extractLsb', BitVec.getLsbD_append]
  rw [if_pos (by omega)]
  have : 0 + j = j := by omega
  rw [this, BitVec.getLsbD_eq_getElem hj]

/-- A word is assembled from its own fields when its reserved field is 0 (R130). -/
theorem mkWord_fields (w : Word) (h : rsvOf w = 0#4) : mkWord (opcOf w) (unitOf w) (immOf w) = w := by
  unfold mkWord
  rw [← h]
  ext j hj
  simp only [opcOf, unitOf, rsvOf, immOf, BitVec.getElem_append, BitVec.getElem_extractLsb']
  repeat' split
  all_goals
    rw [BitVec.getLsbD_eq_getElem (by omega)]
    congr 1
    omega

end Sys2Proof
end

