-- ==== Sys2Proof/Laws/State.lean ====
section
/-!
SUPPORT. Beside State: for each named update, one lemma per field, so that no proof unfolds a record update. An update
not listed here (a soft reset, a bus write) is taken apart by the laws of its own file.
-/
namespace Sys2Proof.Machine

section setRes
variable (s : State) (v : Int)

@[simp] theorem setRes_params : (s.setRes v).params = s.params := rfl
@[simp] theorem setRes_opa : (s.setRes v).opa = s.opa := rfl
@[simp] theorem setRes_opb : (s.setRes v).opb = s.opb := rfl
@[simp] theorem setRes_res : (s.setRes v).res = bits32 v := rfl
@[simp] theorem setRes_fopa : (s.setRes v).fopa = s.fopa := rfl
@[simp] theorem setRes_fopb : (s.setRes v).fopb = s.fopb := rfl
@[simp] theorem setRes_acc : (s.setRes v).acc = s.acc := rfl
@[simp] theorem setRes_cmd : (s.setRes v).cmd = s.cmd := rfl
@[simp] theorem setRes_intDone : (s.setRes v).intDone = s.intDone := rfl
@[simp] theorem setRes_intErr : (s.setRes v).intErr = s.intErr := rfl
@[simp] theorem setRes_doneEn : (s.setRes v).doneEn = s.doneEn := rfl
@[simp] theorem setRes_errEn : (s.setRes v).errEn = s.errEn := rfl
@[simp] theorem setRes_errCode : (s.setRes v).errCode = s.errCode := rfl
@[simp] theorem setRes_errInfo : (s.setRes v).errInfo = s.errInfo := rfl
@[simp] theorem setRes_mode : (s.setRes v).mode = s.mode := rfl
@[simp] theorem setRes_modeLatched : (s.setRes v).modeLatched = s.modeLatched := rfl
@[simp] theorem setRes_pending : (s.setRes v).pending = s.pending := rfl
@[simp] theorem setRes_frames : (s.setRes v).frames = s.frames := rfl
@[simp] theorem setRes_inSilent : (s.setRes v).inSilent = s.inSilent := rfl
@[simp] theorem setRes_outSilent : (s.setRes v).outSilent = s.outSilent := rfl
@[simp] theorem setRes_gainComb : (s.setRes v).gainComb = s.gainComb := rfl
@[simp] theorem setRes_gainAp : (s.setRes v).gainAp = s.gainAp := rfl
@[simp] theorem setRes_filtThresh : (s.setRes v).filtThresh = s.filtThresh := rfl
@[simp] theorem setRes_filtDiff : (s.setRes v).filtDiff = s.filtDiff := rfl
@[simp] theorem setRes_lines : (s.setRes v).lines = s.lines := rfl
@[simp] theorem setRes_osc : (s.setRes v).osc = s.osc := rfl
@[simp] theorem setRes_chorus : (s.setRes v).chorus = s.chorus := rfl
@[simp] theorem setRes_cycle : (s.setRes v).cycle = s.cycle := rfl
@[simp] theorem setRes_cycleShadow : (s.setRes v).cycleShadow = s.cycleShadow := rfl
@[simp] theorem setRes_perfCal : (s.setRes v).perfCal = s.perfCal := rfl
@[simp] theorem setRes_timers : (s.setRes v).timers = s.timers := rfl
@[simp] theorem setRes_perfFrames : (s.setRes v).perfFrames = s.perfFrames := rfl
@[simp] theorem setRes_diagState : (s.setRes v).diagState = s.diagState := rfl
@[simp] theorem setRes_diagCount : (s.setRes v).diagCount = s.diagCount := rfl
@[simp] theorem setRes_mem : (s.setRes v).mem = s.mem := rfl
@[simp] theorem setRes_inbox : (s.setRes v).inbox = s.inbox := rfl
@[simp] theorem setRes_readLog : (s.setRes v).readLog = s.readLog := rfl
@[simp] theorem setRes_draws : (s.setRes v).draws = s.draws := rfl
@[simp] theorem setRes_ramEpoch : (s.setRes v).ramEpoch = s.ramEpoch := rfl

end setRes

section setAcc
variable (s : State) (v : Int)

@[simp] theorem setAcc_params : (s.setAcc v).params = s.params := rfl
@[simp] theorem setAcc_opa : (s.setAcc v).opa = s.opa := rfl
@[simp] theorem setAcc_opb : (s.setAcc v).opb = s.opb := rfl
@[simp] theorem setAcc_res : (s.setAcc v).res = s.res := rfl
@[simp] theorem setAcc_fopa : (s.setAcc v).fopa = s.fopa := rfl
@[simp] theorem setAcc_fopb : (s.setAcc v).fopb = s.fopb := rfl
@[simp] theorem setAcc_acc : (s.setAcc v).acc = v := rfl
@[simp] theorem setAcc_cmd : (s.setAcc v).cmd = s.cmd := rfl
@[simp] theorem setAcc_intDone : (s.setAcc v).intDone = s.intDone := rfl
@[simp] theorem setAcc_intErr : (s.setAcc v).intErr = s.intErr := rfl
@[simp] theorem setAcc_doneEn : (s.setAcc v).doneEn = s.doneEn := rfl
@[simp] theorem setAcc_errEn : (s.setAcc v).errEn = s.errEn := rfl
@[simp] theorem setAcc_errCode : (s.setAcc v).errCode = s.errCode := rfl
@[simp] theorem setAcc_errInfo : (s.setAcc v).errInfo = s.errInfo := rfl
@[simp] theorem setAcc_mode : (s.setAcc v).mode = s.mode := rfl
@[simp] theorem setAcc_modeLatched : (s.setAcc v).modeLatched = s.modeLatched := rfl
@[simp] theorem setAcc_pending : (s.setAcc v).pending = s.pending := rfl
@[simp] theorem setAcc_frames : (s.setAcc v).frames = s.frames := rfl
@[simp] theorem setAcc_inSilent : (s.setAcc v).inSilent = s.inSilent := rfl
@[simp] theorem setAcc_outSilent : (s.setAcc v).outSilent = s.outSilent := rfl
@[simp] theorem setAcc_gainComb : (s.setAcc v).gainComb = s.gainComb := rfl
@[simp] theorem setAcc_gainAp : (s.setAcc v).gainAp = s.gainAp := rfl
@[simp] theorem setAcc_filtThresh : (s.setAcc v).filtThresh = s.filtThresh := rfl
@[simp] theorem setAcc_filtDiff : (s.setAcc v).filtDiff = s.filtDiff := rfl
@[simp] theorem setAcc_lines : (s.setAcc v).lines = s.lines := rfl
@[simp] theorem setAcc_osc : (s.setAcc v).osc = s.osc := rfl
@[simp] theorem setAcc_chorus : (s.setAcc v).chorus = s.chorus := rfl
@[simp] theorem setAcc_cycle : (s.setAcc v).cycle = s.cycle := rfl
@[simp] theorem setAcc_cycleShadow : (s.setAcc v).cycleShadow = s.cycleShadow := rfl
@[simp] theorem setAcc_perfCal : (s.setAcc v).perfCal = s.perfCal := rfl
@[simp] theorem setAcc_timers : (s.setAcc v).timers = s.timers := rfl
@[simp] theorem setAcc_perfFrames : (s.setAcc v).perfFrames = s.perfFrames := rfl
@[simp] theorem setAcc_diagState : (s.setAcc v).diagState = s.diagState := rfl
@[simp] theorem setAcc_diagCount : (s.setAcc v).diagCount = s.diagCount := rfl
@[simp] theorem setAcc_mem : (s.setAcc v).mem = s.mem := rfl
@[simp] theorem setAcc_inbox : (s.setAcc v).inbox = s.inbox := rfl
@[simp] theorem setAcc_readLog : (s.setAcc v).readLog = s.readLog := rfl
@[simp] theorem setAcc_draws : (s.setAcc v).draws = s.draws := rfl
@[simp] theorem setAcc_ramEpoch : (s.setAcc v).ramEpoch = s.ramEpoch := rfl

end setAcc

section setLine
variable (s : State) (u : Fin 9) (l : DelayLine)

@[simp] theorem setLine_params : (s.setLine u l).params = s.params := rfl
@[simp] theorem setLine_opa : (s.setLine u l).opa = s.opa := rfl
@[simp] theorem setLine_opb : (s.setLine u l).opb = s.opb := rfl
@[simp] theorem setLine_res : (s.setLine u l).res = s.res := rfl
@[simp] theorem setLine_fopa : (s.setLine u l).fopa = s.fopa := rfl
@[simp] theorem setLine_fopb : (s.setLine u l).fopb = s.fopb := rfl
@[simp] theorem setLine_acc : (s.setLine u l).acc = s.acc := rfl
@[simp] theorem setLine_cmd : (s.setLine u l).cmd = s.cmd := rfl
@[simp] theorem setLine_intDone : (s.setLine u l).intDone = s.intDone := rfl
@[simp] theorem setLine_intErr : (s.setLine u l).intErr = s.intErr := rfl
@[simp] theorem setLine_doneEn : (s.setLine u l).doneEn = s.doneEn := rfl
@[simp] theorem setLine_errEn : (s.setLine u l).errEn = s.errEn := rfl
@[simp] theorem setLine_errCode : (s.setLine u l).errCode = s.errCode := rfl
@[simp] theorem setLine_errInfo : (s.setLine u l).errInfo = s.errInfo := rfl
@[simp] theorem setLine_mode : (s.setLine u l).mode = s.mode := rfl
@[simp] theorem setLine_modeLatched : (s.setLine u l).modeLatched = s.modeLatched := rfl
@[simp] theorem setLine_pending : (s.setLine u l).pending = s.pending := rfl
@[simp] theorem setLine_frames : (s.setLine u l).frames = s.frames := rfl
@[simp] theorem setLine_inSilent : (s.setLine u l).inSilent = s.inSilent := rfl
@[simp] theorem setLine_outSilent : (s.setLine u l).outSilent = s.outSilent := rfl
@[simp] theorem setLine_gainComb : (s.setLine u l).gainComb = s.gainComb := rfl
@[simp] theorem setLine_gainAp : (s.setLine u l).gainAp = s.gainAp := rfl
@[simp] theorem setLine_filtThresh : (s.setLine u l).filtThresh = s.filtThresh := rfl
@[simp] theorem setLine_filtDiff : (s.setLine u l).filtDiff = s.filtDiff := rfl
@[simp] theorem setLine_lines : (s.setLine u l).lines = s.lines.set u l := rfl
@[simp] theorem setLine_osc : (s.setLine u l).osc = s.osc := rfl
@[simp] theorem setLine_chorus : (s.setLine u l).chorus = s.chorus := rfl
@[simp] theorem setLine_cycle : (s.setLine u l).cycle = s.cycle := rfl
@[simp] theorem setLine_cycleShadow : (s.setLine u l).cycleShadow = s.cycleShadow := rfl
@[simp] theorem setLine_perfCal : (s.setLine u l).perfCal = s.perfCal := rfl
@[simp] theorem setLine_timers : (s.setLine u l).timers = s.timers := rfl
@[simp] theorem setLine_perfFrames : (s.setLine u l).perfFrames = s.perfFrames := rfl
@[simp] theorem setLine_diagState : (s.setLine u l).diagState = s.diagState := rfl
@[simp] theorem setLine_diagCount : (s.setLine u l).diagCount = s.diagCount := rfl
@[simp] theorem setLine_mem : (s.setLine u l).mem = s.mem := rfl
@[simp] theorem setLine_inbox : (s.setLine u l).inbox = s.inbox := rfl
@[simp] theorem setLine_readLog : (s.setLine u l).readLog = s.readLog := rfl
@[simp] theorem setLine_draws : (s.setLine u l).draws = s.draws := rfl
@[simp] theorem setLine_ramEpoch : (s.setLine u l).ramEpoch = s.ramEpoch := rfl

end setLine

section setOsc
variable (s : State) (o : Osc)

@[simp] theorem setOsc_params : (s.setOsc o).params = s.params := rfl
@[simp] theorem setOsc_opa : (s.setOsc o).opa = s.opa := rfl
@[simp] theorem setOsc_opb : (s.setOsc o).opb = s.opb := rfl
@[simp] theorem setOsc_res : (s.setOsc o).res = s.res := rfl
@[simp] theorem setOsc_fopa : (s.setOsc o).fopa = s.fopa := rfl
@[simp] theorem setOsc_fopb : (s.setOsc o).fopb = s.fopb := rfl
@[simp] theorem setOsc_acc : (s.setOsc o).acc = s.acc := rfl
@[simp] theorem setOsc_cmd : (s.setOsc o).cmd = s.cmd := rfl
@[simp] theorem setOsc_intDone : (s.setOsc o).intDone = s.intDone := rfl
@[simp] theorem setOsc_intErr : (s.setOsc o).intErr = s.intErr := rfl
@[simp] theorem setOsc_doneEn : (s.setOsc o).doneEn = s.doneEn := rfl
@[simp] theorem setOsc_errEn : (s.setOsc o).errEn = s.errEn := rfl
@[simp] theorem setOsc_errCode : (s.setOsc o).errCode = s.errCode := rfl
@[simp] theorem setOsc_errInfo : (s.setOsc o).errInfo = s.errInfo := rfl
@[simp] theorem setOsc_mode : (s.setOsc o).mode = s.mode := rfl
@[simp] theorem setOsc_modeLatched : (s.setOsc o).modeLatched = s.modeLatched := rfl
@[simp] theorem setOsc_pending : (s.setOsc o).pending = s.pending := rfl
@[simp] theorem setOsc_frames : (s.setOsc o).frames = s.frames := rfl
@[simp] theorem setOsc_inSilent : (s.setOsc o).inSilent = s.inSilent := rfl
@[simp] theorem setOsc_outSilent : (s.setOsc o).outSilent = s.outSilent := rfl
@[simp] theorem setOsc_gainComb : (s.setOsc o).gainComb = s.gainComb := rfl
@[simp] theorem setOsc_gainAp : (s.setOsc o).gainAp = s.gainAp := rfl
@[simp] theorem setOsc_filtThresh : (s.setOsc o).filtThresh = s.filtThresh := rfl
@[simp] theorem setOsc_filtDiff : (s.setOsc o).filtDiff = s.filtDiff := rfl
@[simp] theorem setOsc_lines : (s.setOsc o).lines = s.lines := rfl
@[simp] theorem setOsc_osc : (s.setOsc o).osc = o := rfl
@[simp] theorem setOsc_chorus : (s.setOsc o).chorus = s.chorus := rfl
@[simp] theorem setOsc_cycle : (s.setOsc o).cycle = s.cycle := rfl
@[simp] theorem setOsc_cycleShadow : (s.setOsc o).cycleShadow = s.cycleShadow := rfl
@[simp] theorem setOsc_perfCal : (s.setOsc o).perfCal = s.perfCal := rfl
@[simp] theorem setOsc_timers : (s.setOsc o).timers = s.timers := rfl
@[simp] theorem setOsc_perfFrames : (s.setOsc o).perfFrames = s.perfFrames := rfl
@[simp] theorem setOsc_diagState : (s.setOsc o).diagState = s.diagState := rfl
@[simp] theorem setOsc_diagCount : (s.setOsc o).diagCount = s.diagCount := rfl
@[simp] theorem setOsc_mem : (s.setOsc o).mem = s.mem := rfl
@[simp] theorem setOsc_inbox : (s.setOsc o).inbox = s.inbox := rfl
@[simp] theorem setOsc_readLog : (s.setOsc o).readLog = s.readLog := rfl
@[simp] theorem setOsc_draws : (s.setOsc o).draws = s.draws := rfl
@[simp] theorem setOsc_ramEpoch : (s.setOsc o).ramEpoch = s.ramEpoch := rfl

end setOsc

section setChorus
variable (s : State) (c : Chorus)

@[simp] theorem setChorus_params : (s.setChorus c).params = s.params := rfl
@[simp] theorem setChorus_opa : (s.setChorus c).opa = s.opa := rfl
@[simp] theorem setChorus_opb : (s.setChorus c).opb = s.opb := rfl
@[simp] theorem setChorus_res : (s.setChorus c).res = s.res := rfl
@[simp] theorem setChorus_fopa : (s.setChorus c).fopa = s.fopa := rfl
@[simp] theorem setChorus_fopb : (s.setChorus c).fopb = s.fopb := rfl
@[simp] theorem setChorus_acc : (s.setChorus c).acc = s.acc := rfl
@[simp] theorem setChorus_cmd : (s.setChorus c).cmd = s.cmd := rfl
@[simp] theorem setChorus_intDone : (s.setChorus c).intDone = s.intDone := rfl
@[simp] theorem setChorus_intErr : (s.setChorus c).intErr = s.intErr := rfl
@[simp] theorem setChorus_doneEn : (s.setChorus c).doneEn = s.doneEn := rfl
@[simp] theorem setChorus_errEn : (s.setChorus c).errEn = s.errEn := rfl
@[simp] theorem setChorus_errCode : (s.setChorus c).errCode = s.errCode := rfl
@[simp] theorem setChorus_errInfo : (s.setChorus c).errInfo = s.errInfo := rfl
@[simp] theorem setChorus_mode : (s.setChorus c).mode = s.mode := rfl
@[simp] theorem setChorus_modeLatched : (s.setChorus c).modeLatched = s.modeLatched := rfl
@[simp] theorem setChorus_pending : (s.setChorus c).pending = s.pending := rfl
@[simp] theorem setChorus_frames : (s.setChorus c).frames = s.frames := rfl
@[simp] theorem setChorus_inSilent : (s.setChorus c).inSilent = s.inSilent := rfl
@[simp] theorem setChorus_outSilent : (s.setChorus c).outSilent = s.outSilent := rfl
@[simp] theorem setChorus_gainComb : (s.setChorus c).gainComb = s.gainComb := rfl
@[simp] theorem setChorus_gainAp : (s.setChorus c).gainAp = s.gainAp := rfl
@[simp] theorem setChorus_filtThresh : (s.setChorus c).filtThresh = s.filtThresh := rfl
@[simp] theorem setChorus_filtDiff : (s.setChorus c).filtDiff = s.filtDiff := rfl
@[simp] theorem setChorus_lines : (s.setChorus c).lines = s.lines := rfl
@[simp] theorem setChorus_osc : (s.setChorus c).osc = s.osc := rfl
@[simp] theorem setChorus_chorus : (s.setChorus c).chorus = c := rfl
@[simp] theorem setChorus_cycle : (s.setChorus c).cycle = s.cycle := rfl
@[simp] theorem setChorus_cycleShadow : (s.setChorus c).cycleShadow = s.cycleShadow := rfl
@[simp] theorem setChorus_perfCal : (s.setChorus c).perfCal = s.perfCal := rfl
@[simp] theorem setChorus_timers : (s.setChorus c).timers = s.timers := rfl
@[simp] theorem setChorus_perfFrames : (s.setChorus c).perfFrames = s.perfFrames := rfl
@[simp] theorem setChorus_diagState : (s.setChorus c).diagState = s.diagState := rfl
@[simp] theorem setChorus_diagCount : (s.setChorus c).diagCount = s.diagCount := rfl
@[simp] theorem setChorus_mem : (s.setChorus c).mem = s.mem := rfl
@[simp] theorem setChorus_inbox : (s.setChorus c).inbox = s.inbox := rfl
@[simp] theorem setChorus_readLog : (s.setChorus c).readLog = s.readLog := rfl
@[simp] theorem setChorus_draws : (s.setChorus c).draws = s.draws := rfl
@[simp] theorem setChorus_ramEpoch : (s.setChorus c).ramEpoch = s.ramEpoch := rfl

end setChorus

section setTimer
variable (s : State) (t : Fin 2) (x : Timer)

@[simp] theorem setTimer_params : (s.setTimer t x).params = s.params := rfl
@[simp] theorem setTimer_opa : (s.setTimer t x).opa = s.opa := rfl
@[simp] theorem setTimer_opb : (s.setTimer t x).opb = s.opb := rfl
@[simp] theorem setTimer_res : (s.setTimer t x).res = s.res := rfl
@[simp] theorem setTimer_fopa : (s.setTimer t x).fopa = s.fopa := rfl
@[simp] theorem setTimer_fopb : (s.setTimer t x).fopb = s.fopb := rfl
@[simp] theorem setTimer_acc : (s.setTimer t x).acc = s.acc := rfl
@[simp] theorem setTimer_cmd : (s.setTimer t x).cmd = s.cmd := rfl
@[simp] theorem setTimer_intDone : (s.setTimer t x).intDone = s.intDone := rfl
@[simp] theorem setTimer_intErr : (s.setTimer t x).intErr = s.intErr := rfl
@[simp] theorem setTimer_doneEn : (s.setTimer t x).doneEn = s.doneEn := rfl
@[simp] theorem setTimer_errEn : (s.setTimer t x).errEn = s.errEn := rfl
@[simp] theorem setTimer_errCode : (s.setTimer t x).errCode = s.errCode := rfl
@[simp] theorem setTimer_errInfo : (s.setTimer t x).errInfo = s.errInfo := rfl
@[simp] theorem setTimer_mode : (s.setTimer t x).mode = s.mode := rfl
@[simp] theorem setTimer_modeLatched : (s.setTimer t x).modeLatched = s.modeLatched := rfl
@[simp] theorem setTimer_pending : (s.setTimer t x).pending = s.pending := rfl
@[simp] theorem setTimer_frames : (s.setTimer t x).frames = s.frames := rfl
@[simp] theorem setTimer_inSilent : (s.setTimer t x).inSilent = s.inSilent := rfl
@[simp] theorem setTimer_outSilent : (s.setTimer t x).outSilent = s.outSilent := rfl
@[simp] theorem setTimer_gainComb : (s.setTimer t x).gainComb = s.gainComb := rfl
@[simp] theorem setTimer_gainAp : (s.setTimer t x).gainAp = s.gainAp := rfl
@[simp] theorem setTimer_filtThresh : (s.setTimer t x).filtThresh = s.filtThresh := rfl
@[simp] theorem setTimer_filtDiff : (s.setTimer t x).filtDiff = s.filtDiff := rfl
@[simp] theorem setTimer_lines : (s.setTimer t x).lines = s.lines := rfl
@[simp] theorem setTimer_osc : (s.setTimer t x).osc = s.osc := rfl
@[simp] theorem setTimer_chorus : (s.setTimer t x).chorus = s.chorus := rfl
@[simp] theorem setTimer_cycle : (s.setTimer t x).cycle = s.cycle := rfl
@[simp] theorem setTimer_cycleShadow : (s.setTimer t x).cycleShadow = s.cycleShadow := rfl
@[simp] theorem setTimer_perfCal : (s.setTimer t x).perfCal = s.perfCal := rfl
@[simp] theorem setTimer_timers : (s.setTimer t x).timers = s.timers.set t x := rfl
@[simp] theorem setTimer_perfFrames : (s.setTimer t x).perfFrames = s.perfFrames := rfl
@[simp] theorem setTimer_diagState : (s.setTimer t x).diagState = s.diagState := rfl
@[simp] theorem setTimer_diagCount : (s.setTimer t x).diagCount = s.diagCount := rfl
@[simp] theorem setTimer_mem : (s.setTimer t x).mem = s.mem := rfl
@[simp] theorem setTimer_inbox : (s.setTimer t x).inbox = s.inbox := rfl
@[simp] theorem setTimer_readLog : (s.setTimer t x).readLog = s.readLog := rfl
@[simp] theorem setTimer_draws : (s.setTimer t x).draws = s.draws := rfl
@[simp] theorem setTimer_ramEpoch : (s.setTimer t x).ramEpoch = s.ramEpoch := rfl

end setTimer

section setRam
variable (s : State) (a : Nat) (w : Word)

@[simp] theorem setRam_params : (s.setRam a w).params = s.params := rfl
@[simp] theorem setRam_opa : (s.setRam a w).opa = s.opa := rfl
@[simp] theorem setRam_opb : (s.setRam a w).opb = s.opb := rfl
@[simp] theorem setRam_res : (s.setRam a w).res = s.res := rfl
@[simp] theorem setRam_fopa : (s.setRam a w).fopa = s.fopa := rfl
@[simp] theorem setRam_fopb : (s.setRam a w).fopb = s.fopb := rfl
@[simp] theorem setRam_acc : (s.setRam a w).acc = s.acc := rfl
@[simp] theorem setRam_cmd : (s.setRam a w).cmd = s.cmd := rfl
@[simp] theorem setRam_intDone : (s.setRam a w).intDone = s.intDone := rfl
@[simp] theorem setRam_intErr : (s.setRam a w).intErr = s.intErr := rfl
@[simp] theorem setRam_doneEn : (s.setRam a w).doneEn = s.doneEn := rfl
@[simp] theorem setRam_errEn : (s.setRam a w).errEn = s.errEn := rfl
@[simp] theorem setRam_errCode : (s.setRam a w).errCode = s.errCode := rfl
@[simp] theorem setRam_errInfo : (s.setRam a w).errInfo = s.errInfo := rfl
@[simp] theorem setRam_mode : (s.setRam a w).mode = s.mode := rfl
@[simp] theorem setRam_modeLatched : (s.setRam a w).modeLatched = s.modeLatched := rfl
@[simp] theorem setRam_pending : (s.setRam a w).pending = s.pending := rfl
@[simp] theorem setRam_frames : (s.setRam a w).frames = s.frames := rfl
@[simp] theorem setRam_inSilent : (s.setRam a w).inSilent = s.inSilent := rfl
@[simp] theorem setRam_outSilent : (s.setRam a w).outSilent = s.outSilent := rfl
@[simp] theorem setRam_gainComb : (s.setRam a w).gainComb = s.gainComb := rfl
@[simp] theorem setRam_gainAp : (s.setRam a w).gainAp = s.gainAp := rfl
@[simp] theorem setRam_filtThresh : (s.setRam a w).filtThresh = s.filtThresh := rfl
@[simp] theorem setRam_filtDiff : (s.setRam a w).filtDiff = s.filtDiff := rfl
@[simp] theorem setRam_lines : (s.setRam a w).lines = s.lines := rfl
@[simp] theorem setRam_osc : (s.setRam a w).osc = s.osc := rfl
@[simp] theorem setRam_chorus : (s.setRam a w).chorus = s.chorus := rfl
@[simp] theorem setRam_cycle : (s.setRam a w).cycle = s.cycle := rfl
@[simp] theorem setRam_cycleShadow : (s.setRam a w).cycleShadow = s.cycleShadow := rfl
@[simp] theorem setRam_perfCal : (s.setRam a w).perfCal = s.perfCal := rfl
@[simp] theorem setRam_timers : (s.setRam a w).timers = s.timers := rfl
@[simp] theorem setRam_perfFrames : (s.setRam a w).perfFrames = s.perfFrames := rfl
@[simp] theorem setRam_diagState : (s.setRam a w).diagState = s.diagState := rfl
@[simp] theorem setRam_diagCount : (s.setRam a w).diagCount = s.diagCount := rfl
@[simp] theorem setRam_mem : (s.setRam a w).mem = Memory.setWord s.mem a w := rfl
@[simp] theorem setRam_inbox : (s.setRam a w).inbox = s.inbox := rfl
@[simp] theorem setRam_readLog : (s.setRam a w).readLog = s.readLog := rfl
@[simp] theorem setRam_draws : (s.setRam a w).draws = s.draws := rfl
@[simp] theorem setRam_ramEpoch : (s.setRam a w).ramEpoch = s.ramEpoch := rfl

end setRam

section setOutSilent
variable (s : State) (b : Bool)

@[simp] theorem setOutSilent_params : (s.setOutSilent b).params = s.params := rfl
@[simp] theorem setOutSilent_opa : (s.setOutSilent b).opa = s.opa := rfl
@[simp] theorem setOutSilent_opb : (s.setOutSilent b).opb = s.opb := rfl
@[simp] theorem setOutSilent_res : (s.setOutSilent b).res = s.res := rfl
@[simp] theorem setOutSilent_fopa : (s.setOutSilent b).fopa = s.fopa := rfl
@[simp] theorem setOutSilent_fopb : (s.setOutSilent b).fopb = s.fopb := rfl
@[simp] theorem setOutSilent_acc : (s.setOutSilent b).acc = s.acc := rfl
@[simp] theorem setOutSilent_cmd : (s.setOutSilent b).cmd = s.cmd := rfl
@[simp] theorem setOutSilent_intDone : (s.setOutSilent b).intDone = s.intDone := rfl
@[simp] theorem setOutSilent_intErr : (s.setOutSilent b).intErr = s.intErr := rfl
@[simp] theorem setOutSilent_doneEn : (s.setOutSilent b).doneEn = s.doneEn := rfl
@[simp] theorem setOutSilent_errEn : (s.setOutSilent b).errEn = s.errEn := rfl
@[simp] theorem setOutSilent_errCode : (s.setOutSilent b).errCode = s.errCode := rfl
@[simp] theorem setOutSilent_errInfo : (s.setOutSilent b).errInfo = s.errInfo := rfl
@[simp] theorem setOutSilent_mode : (s.setOutSilent b).mode = s.mode := rfl
@[simp] theorem setOutSilent_modeLatched : (s.setOutSilent b).modeLatched = s.modeLatched := rfl
@[simp] theorem setOutSilent_pending : (s.setOutSilent b).pending = s.pending := rfl
@[simp] theorem setOutSilent_frames : (s.setOutSilent b).frames = s.frames := rfl
@[simp] theorem setOutSilent_inSilent : (s.setOutSilent b).inSilent = s.inSilent := rfl
@[simp] theorem setOutSilent_outSilent : (s.setOutSilent b).outSilent = b := rfl
@[simp] theorem setOutSilent_gainComb : (s.setOutSilent b).gainComb = s.gainComb := rfl
@[simp] theorem setOutSilent_gainAp : (s.setOutSilent b).gainAp = s.gainAp := rfl
@[simp] theorem setOutSilent_filtThresh : (s.setOutSilent b).filtThresh = s.filtThresh := rfl
@[simp] theorem setOutSilent_filtDiff : (s.setOutSilent b).filtDiff = s.filtDiff := rfl
@[simp] theorem setOutSilent_lines : (s.setOutSilent b).lines = s.lines := rfl
@[simp] theorem setOutSilent_osc : (s.setOutSilent b).osc = s.osc := rfl
@[simp] theorem setOutSilent_chorus : (s.setOutSilent b).chorus = s.chorus := rfl
@[simp] theorem setOutSilent_cycle : (s.setOutSilent b).cycle = s.cycle := rfl
@[simp] theorem setOutSilent_cycleShadow : (s.setOutSilent b).cycleShadow = s.cycleShadow := rfl
@[simp] theorem setOutSilent_perfCal : (s.setOutSilent b).perfCal = s.perfCal := rfl
@[simp] theorem setOutSilent_timers : (s.setOutSilent b).timers = s.timers := rfl
@[simp] theorem setOutSilent_perfFrames : (s.setOutSilent b).perfFrames = s.perfFrames := rfl
@[simp] theorem setOutSilent_diagState : (s.setOutSilent b).diagState = s.diagState := rfl
@[simp] theorem setOutSilent_diagCount : (s.setOutSilent b).diagCount = s.diagCount := rfl
@[simp] theorem setOutSilent_mem : (s.setOutSilent b).mem = s.mem := rfl
@[simp] theorem setOutSilent_inbox : (s.setOutSilent b).inbox = s.inbox := rfl
@[simp] theorem setOutSilent_readLog : (s.setOutSilent b).readLog = s.readLog := rfl
@[simp] theorem setOutSilent_draws : (s.setOutSilent b).draws = s.draws := rfl
@[simp] theorem setOutSilent_ramEpoch : (s.setOutSilent b).ramEpoch = s.ramEpoch := rfl

end setOutSilent

section newEpoch
variable (s : State)

@[simp] theorem newEpoch_params : (s.newEpoch).params = s.params := rfl
@[simp] theorem newEpoch_opa : (s.newEpoch).opa = s.opa := rfl
@[simp] theorem newEpoch_opb : (s.newEpoch).opb = s.opb := rfl
@[simp] theorem newEpoch_res : (s.newEpoch).res = s.res := rfl
@[simp] theorem newEpoch_fopa : (s.newEpoch).fopa = s.fopa := rfl
@[simp] theorem newEpoch_fopb : (s.newEpoch).fopb = s.fopb := rfl
@[simp] theorem newEpoch_acc : (s.newEpoch).acc = s.acc := rfl
@[simp] theorem newEpoch_cmd : (s.newEpoch).cmd = s.cmd := rfl
@[simp] theorem newEpoch_intDone : (s.newEpoch).intDone = s.intDone := rfl
@[simp] theorem newEpoch_intErr : (s.newEpoch).intErr = s.intErr := rfl
@[simp] theorem newEpoch_doneEn : (s.newEpoch).doneEn = s.doneEn := rfl
@[simp] theorem newEpoch_errEn : (s.newEpoch).errEn = s.errEn := rfl
@[simp] theorem newEpoch_errCode : (s.newEpoch).errCode = s.errCode := rfl
@[simp] theorem newEpoch_errInfo : (s.newEpoch).errInfo = s.errInfo := rfl
@[simp] theorem newEpoch_mode : (s.newEpoch).mode = s.mode := rfl
@[simp] theorem newEpoch_modeLatched : (s.newEpoch).modeLatched = s.modeLatched := rfl
@[simp] theorem newEpoch_pending : (s.newEpoch).pending = s.pending := rfl
@[simp] theorem newEpoch_frames : (s.newEpoch).frames = s.frames := rfl
@[simp] theorem newEpoch_inSilent : (s.newEpoch).inSilent = s.inSilent := rfl
@[simp] theorem newEpoch_outSilent : (s.newEpoch).outSilent = s.outSilent := rfl
@[simp] theorem newEpoch_gainComb : (s.newEpoch).gainComb = s.gainComb := rfl
@[simp] theorem newEpoch_gainAp : (s.newEpoch).gainAp = s.gainAp := rfl
@[simp] theorem newEpoch_filtThresh : (s.newEpoch).filtThresh = s.filtThresh := rfl
@[simp] theorem newEpoch_filtDiff : (s.newEpoch).filtDiff = s.filtDiff := rfl
@[simp] theorem newEpoch_lines : (s.newEpoch).lines = s.lines := rfl
@[simp] theorem newEpoch_osc : (s.newEpoch).osc = s.osc := rfl
@[simp] theorem newEpoch_chorus : (s.newEpoch).chorus = s.chorus := rfl
@[simp] theorem newEpoch_cycle : (s.newEpoch).cycle = s.cycle := rfl
@[simp] theorem newEpoch_cycleShadow : (s.newEpoch).cycleShadow = s.cycleShadow := rfl
@[simp] theorem newEpoch_perfCal : (s.newEpoch).perfCal = s.perfCal := rfl
@[simp] theorem newEpoch_timers : (s.newEpoch).timers = s.timers := rfl
@[simp] theorem newEpoch_perfFrames : (s.newEpoch).perfFrames = s.perfFrames := rfl
@[simp] theorem newEpoch_diagState : (s.newEpoch).diagState = s.diagState := rfl
@[simp] theorem newEpoch_diagCount : (s.newEpoch).diagCount = s.diagCount := rfl
@[simp] theorem newEpoch_mem : (s.newEpoch).mem = s.mem := rfl
@[simp] theorem newEpoch_inbox : (s.newEpoch).inbox = s.inbox := rfl
@[simp] theorem newEpoch_readLog : (s.newEpoch).readLog = s.readLog := rfl
@[simp] theorem newEpoch_draws : (s.newEpoch).draws = s.draws := rfl
@[simp] theorem newEpoch_ramEpoch : (s.newEpoch).ramEpoch = s.ramEpoch + 1 := rfl

end newEpoch

section readCycle
variable (s : State)

@[simp] theorem readCycle_params : (s.readCycle).params = s.params := rfl
@[simp] theorem readCycle_opa : (s.readCycle).opa = s.opa := rfl
@[simp] theorem readCycle_opb : (s.readCycle).opb = s.opb := rfl
@[simp] theorem readCycle_res : (s.readCycle).res = s.res := rfl
@[simp] theorem readCycle_fopa : (s.readCycle).fopa = s.fopa := rfl
@[simp] theorem readCycle_fopb : (s.readCycle).fopb = s.fopb := rfl
@[simp] theorem readCycle_acc : (s.readCycle).acc = s.acc := rfl
@[simp] theorem readCycle_cmd : (s.readCycle).cmd = s.cmd := rfl
@[simp] theorem readCycle_intDone : (s.readCycle).intDone = s.intDone := rfl
@[simp] theorem readCycle_intErr : (s.readCycle).intErr = s.intErr := rfl
@[simp] theorem readCycle_doneEn : (s.readCycle).doneEn = s.doneEn := rfl
@[simp] theorem readCycle_errEn : (s.readCycle).errEn = s.errEn := rfl
@[simp] theorem readCycle_errCode : (s.readCycle).errCode = s.errCode := rfl
@[simp] theorem readCycle_errInfo : (s.readCycle).errInfo = s.errInfo := rfl
@[simp] theorem readCycle_mode : (s.readCycle).mode = s.mode := rfl
@[simp] theorem readCycle_modeLatched : (s.readCycle).modeLatched = s.modeLatched := rfl
@[simp] theorem readCycle_pending : (s.readCycle).pending = s.pending := rfl
@[simp] theorem readCycle_frames : (s.readCycle).frames = s.frames := rfl
@[simp] theorem readCycle_inSilent : (s.readCycle).inSilent = s.inSilent := rfl
@[simp] theorem readCycle_outSilent : (s.readCycle).outSilent = s.outSilent := rfl
@[simp] theorem readCycle_gainComb : (s.readCycle).gainComb = s.gainComb := rfl
@[simp] theorem readCycle_gainAp : (s.readCycle).gainAp = s.gainAp := rfl
@[simp] theorem readCycle_filtThresh : (s.readCycle).filtThresh = s.filtThresh := rfl
@[simp] theorem readCycle_filtDiff : (s.readCycle).filtDiff = s.filtDiff := rfl
@[simp] theorem readCycle_lines : (s.readCycle).lines = s.lines := rfl
@[simp] theorem readCycle_osc : (s.readCycle).osc = s.osc := rfl
@[simp] theorem readCycle_chorus : (s.readCycle).chorus = s.chorus := rfl
@[simp] theorem readCycle_cycle : (s.readCycle).cycle = s.nextCycle := rfl
@[simp] theorem readCycle_cycleShadow : (s.readCycle).cycleShadow = s.cycleShadow := rfl
@[simp] theorem readCycle_perfCal : (s.readCycle).perfCal = s.perfCal := rfl
@[simp] theorem readCycle_timers : (s.readCycle).timers = s.timers := rfl
@[simp] theorem readCycle_perfFrames : (s.readCycle).perfFrames = s.perfFrames := rfl
@[simp] theorem readCycle_diagState : (s.readCycle).diagState = s.diagState := rfl
@[simp] theorem readCycle_diagCount : (s.readCycle).diagCount = s.diagCount := rfl
@[simp] theorem readCycle_mem : (s.readCycle).mem = s.mem := rfl
@[simp] theorem readCycle_inbox : (s.readCycle).inbox = s.inbox := rfl
@[simp] theorem readCycle_readLog : (s.readCycle).readLog = s.readLog := rfl
@[simp] theorem readCycle_draws : (s.readCycle).draws = s.draws + 1 := rfl
@[simp] theorem readCycle_ramEpoch : (s.readCycle).ramEpoch = s.ramEpoch := rfl

end readCycle

section countDraw
variable (s : State)

@[simp] theorem countDraw_params : (s.countDraw).params = s.params := rfl
@[simp] theorem countDraw_opa : (s.countDraw).opa = s.opa := rfl
@[simp] theorem countDraw_opb : (s.countDraw).opb = s.opb := rfl
@[simp] theorem countDraw_res : (s.countDraw).res = s.res := rfl
@[simp] theorem countDraw_fopa : (s.countDraw).fopa = s.fopa := rfl
@[simp] theorem countDraw_fopb : (s.countDraw).fopb = s.fopb := rfl
@[simp] theorem countDraw_acc : (s.countDraw).acc = s.acc := rfl
@[simp] theorem countDraw_cmd : (s.countDraw).cmd = s.cmd := rfl
@[simp] theorem countDraw_intDone : (s.countDraw).intDone = s.intDone := rfl
@[simp] theorem countDraw_intErr : (s.countDraw).intErr = s.intErr := rfl
@[simp] theorem countDraw_doneEn : (s.countDraw).doneEn = s.doneEn := rfl
@[simp] theorem countDraw_errEn : (s.countDraw).errEn = s.errEn := rfl
@[simp] theorem countDraw_errCode : (s.countDraw).errCode = s.errCode := rfl
@[simp] theorem countDraw_errInfo : (s.countDraw).errInfo = s.errInfo := rfl
@[simp] theorem countDraw_mode : (s.countDraw).mode = s.mode := rfl
@[simp] theorem countDraw_modeLatched : (s.countDraw).modeLatched = s.modeLatched := rfl
@[simp] theorem countDraw_pending : (s.countDraw).pending = s.pending := rfl
@[simp] theorem countDraw_frames : (s.countDraw).frames = s.frames := rfl
@[simp] theorem countDraw_inSilent : (s.countDraw).inSilent = s.inSilent := rfl
@[simp] theorem countDraw_outSilent : (s.countDraw).outSilent = s.outSilent := rfl
@[simp] theorem countDraw_gainComb : (s.countDraw).gainComb = s.gainComb := rfl
@[simp] theorem countDraw_gainAp : (s.countDraw).gainAp = s.gainAp := rfl
@[simp] theorem countDraw_filtThresh : (s.countDraw).filtThresh = s.filtThresh := rfl
@[simp] theorem countDraw_filtDiff : (s.countDraw).filtDiff = s.filtDiff := rfl
@[simp] theorem countDraw_lines : (s.countDraw).lines = s.lines := rfl
@[simp] theorem countDraw_osc : (s.countDraw).osc = s.osc := rfl
@[simp] theorem countDraw_chorus : (s.countDraw).chorus = s.chorus := rfl
@[simp] theorem countDraw_cycle : (s.countDraw).cycle = s.cycle := rfl
@[simp] theorem countDraw_cycleShadow : (s.countDraw).cycleShadow = s.cycleShadow := rfl
@[simp] theorem countDraw_perfCal : (s.countDraw).perfCal = s.perfCal := rfl
@[simp] theorem countDraw_timers : (s.countDraw).timers = s.timers := rfl
@[simp] theorem countDraw_perfFrames : (s.countDraw).perfFrames = s.perfFrames := rfl
@[simp] theorem countDraw_diagState : (s.countDraw).diagState = s.diagState := rfl
@[simp] theorem countDraw_diagCount : (s.countDraw).diagCount = s.diagCount := rfl
@[simp] theorem countDraw_mem : (s.countDraw).mem = s.mem := rfl
@[simp] theorem countDraw_inbox : (s.countDraw).inbox = s.inbox := rfl
@[simp] theorem countDraw_readLog : (s.countDraw).readLog = s.readLog := rfl
@[simp] theorem countDraw_draws : (s.countDraw).draws = s.draws + 1 := rfl
@[simp] theorem countDraw_ramEpoch : (s.countDraw).ramEpoch = s.ramEpoch := rfl

end countDraw

section reply
variable (s : State) (a : Actor) (v : Word)

@[simp] theorem reply_params : (s.reply a v).params = s.params := rfl
@[simp] theorem reply_opa : (s.reply a v).opa = s.opa := rfl
@[simp] theorem reply_opb : (s.reply a v).opb = s.opb := rfl
@[simp] theorem reply_res : (s.reply a v).res = s.res := rfl
@[simp] theorem reply_fopa : (s.reply a v).fopa = s.fopa := rfl
@[simp] theorem reply_fopb : (s.reply a v).fopb = s.fopb := rfl
@[simp] theorem reply_acc : (s.reply a v).acc = s.acc := rfl
@[simp] theorem reply_cmd : (s.reply a v).cmd = s.cmd := rfl
@[simp] theorem reply_intDone : (s.reply a v).intDone = s.intDone := rfl
@[simp] theorem reply_intErr : (s.reply a v).intErr = s.intErr := rfl
@[simp] theorem reply_doneEn : (s.reply a v).doneEn = s.doneEn := rfl
@[simp] theorem reply_errEn : (s.reply a v).errEn = s.errEn := rfl
@[simp] theorem reply_errCode : (s.reply a v).errCode = s.errCode := rfl
@[simp] theorem reply_errInfo : (s.reply a v).errInfo = s.errInfo := rfl
@[simp] theorem reply_mode : (s.reply a v).mode = s.mode := rfl
@[simp] theorem reply_modeLatched : (s.reply a v).modeLatched = s.modeLatched := rfl
@[simp] theorem reply_pending : (s.reply a v).pending = s.pending := rfl
@[simp] theorem reply_frames : (s.reply a v).frames = s.frames := rfl
@[simp] theorem reply_inSilent : (s.reply a v).inSilent = s.inSilent := rfl
@[simp] theorem reply_outSilent : (s.reply a v).outSilent = s.outSilent := rfl
@[simp] theorem reply_gainComb : (s.reply a v).gainComb = s.gainComb := rfl
@[simp] theorem reply_gainAp : (s.reply a v).gainAp = s.gainAp := rfl
@[simp] theorem reply_filtThresh : (s.reply a v).filtThresh = s.filtThresh := rfl
@[simp] theorem reply_filtDiff : (s.reply a v).filtDiff = s.filtDiff := rfl
@[simp] theorem reply_lines : (s.reply a v).lines = s.lines := rfl
@[simp] theorem reply_osc : (s.reply a v).osc = s.osc := rfl
@[simp] theorem reply_chorus : (s.reply a v).chorus = s.chorus := rfl
@[simp] theorem reply_cycle : (s.reply a v).cycle = s.cycle := rfl
@[simp] theorem reply_cycleShadow : (s.reply a v).cycleShadow = s.cycleShadow := rfl
@[simp] theorem reply_perfCal : (s.reply a v).perfCal = s.perfCal := rfl
@[simp] theorem reply_timers : (s.reply a v).timers = s.timers := rfl
@[simp] theorem reply_perfFrames : (s.reply a v).perfFrames = s.perfFrames := rfl
@[simp] theorem reply_diagState : (s.reply a v).diagState = s.diagState := rfl
@[simp] theorem reply_diagCount : (s.reply a v).diagCount = s.diagCount := rfl
@[simp] theorem reply_mem : (s.reply a v).mem = s.mem := rfl
@[simp] theorem reply_inbox : (s.reply a v).inbox = s.inbox := rfl
@[simp] theorem reply_readLog : (s.reply a v).readLog = ⟨a, v⟩ :: s.readLog := rfl
@[simp] theorem reply_draws : (s.reply a v).draws = s.draws := rfl
@[simp] theorem reply_ramEpoch : (s.reply a v).ramEpoch = s.ramEpoch := rfl

end reply

section raiseError
variable (s : State) (c : ErrCode) (w : Word)

@[simp] theorem raiseError_params : (raiseError c w s).params = s.params := rfl
@[simp] theorem raiseError_opa : (raiseError c w s).opa = s.opa := rfl
@[simp] theorem raiseError_opb : (raiseError c w s).opb = s.opb := rfl
@[simp] theorem raiseError_res : (raiseError c w s).res = s.res := rfl
@[simp] theorem raiseError_fopa : (raiseError c w s).fopa = s.fopa := rfl
@[simp] theorem raiseError_fopb : (raiseError c w s).fopb = s.fopb := rfl
@[simp] theorem raiseError_acc : (raiseError c w s).acc = s.acc := rfl
@[simp] theorem raiseError_cmd : (raiseError c w s).cmd = s.cmd := rfl
@[simp] theorem raiseError_intDone : (raiseError c w s).intDone = s.intDone := rfl
@[simp] theorem raiseError_intErr : (raiseError c w s).intErr = true := rfl
@[simp] theorem raiseError_doneEn : (raiseError c w s).doneEn = s.doneEn := rfl
@[simp] theorem raiseError_errEn : (raiseError c w s).errEn = s.errEn := rfl
@[simp] theorem raiseError_errCode : (raiseError c w s).errCode = c := rfl
@[simp] theorem raiseError_errInfo : (raiseError c w s).errInfo = w := rfl
@[simp] theorem raiseError_mode : (raiseError c w s).mode = s.mode := rfl
@[simp] theorem raiseError_modeLatched : (raiseError c w s).modeLatched = s.modeLatched := rfl
@[simp] theorem raiseError_pending : (raiseError c w s).pending = s.pending := rfl
@[simp] theorem raiseError_frames : (raiseError c w s).frames = s.frames := rfl
@[simp] theorem raiseError_inSilent : (raiseError c w s).inSilent = s.inSilent := rfl
@[simp] theorem raiseError_outSilent : (raiseError c w s).outSilent = s.outSilent := rfl
@[simp] theorem raiseError_gainComb : (raiseError c w s).gainComb = s.gainComb := rfl
@[simp] theorem raiseError_gainAp : (raiseError c w s).gainAp = s.gainAp := rfl
@[simp] theorem raiseError_filtThresh : (raiseError c w s).filtThresh = s.filtThresh := rfl
@[simp] theorem raiseError_filtDiff : (raiseError c w s).filtDiff = s.filtDiff := rfl
@[simp] theorem raiseError_lines : (raiseError c w s).lines = s.lines := rfl
@[simp] theorem raiseError_osc : (raiseError c w s).osc = s.osc := rfl
@[simp] theorem raiseError_chorus : (raiseError c w s).chorus = s.chorus := rfl
@[simp] theorem raiseError_cycle : (raiseError c w s).cycle = s.cycle := rfl
@[simp] theorem raiseError_cycleShadow : (raiseError c w s).cycleShadow = s.cycleShadow := rfl
@[simp] theorem raiseError_perfCal : (raiseError c w s).perfCal = s.perfCal := rfl
@[simp] theorem raiseError_timers : (raiseError c w s).timers = s.timers := rfl
@[simp] theorem raiseError_perfFrames : (raiseError c w s).perfFrames = s.perfFrames := rfl
@[simp] theorem raiseError_diagState : (raiseError c w s).diagState = s.diagState := rfl
@[simp] theorem raiseError_diagCount : (raiseError c w s).diagCount = s.diagCount := rfl
@[simp] theorem raiseError_mem : (raiseError c w s).mem = s.mem := rfl
@[simp] theorem raiseError_inbox : (raiseError c w s).inbox = s.inbox := rfl
@[simp] theorem raiseError_readLog : (raiseError c w s).readLog = s.readLog := rfl
@[simp] theorem raiseError_draws : (raiseError c w s).draws = s.draws := rfl
@[simp] theorem raiseError_ramEpoch : (raiseError c w s).ramEpoch = s.ramEpoch := rfl

end raiseError

section latchCommand
variable (s : State) (w : Word)

@[simp] theorem latchCommand_params : (latchCommand w s).params = s.params := rfl
@[simp] theorem latchCommand_opa : (latchCommand w s).opa = s.opa := rfl
@[simp] theorem latchCommand_opb : (latchCommand w s).opb = s.opb := rfl
@[simp] theorem latchCommand_res : (latchCommand w s).res = s.res := rfl
@[simp] theorem latchCommand_fopa : (latchCommand w s).fopa = s.fopa := rfl
@[simp] theorem latchCommand_fopb : (latchCommand w s).fopb = s.fopb := rfl
@[simp] theorem latchCommand_acc : (latchCommand w s).acc = s.acc := rfl
@[simp] theorem latchCommand_cmd : (latchCommand w s).cmd = w := rfl
@[simp] theorem latchCommand_intDone : (latchCommand w s).intDone = s.intDone := rfl
@[simp] theorem latchCommand_intErr : (latchCommand w s).intErr = s.intErr := rfl
@[simp] theorem latchCommand_doneEn : (latchCommand w s).doneEn = s.doneEn := rfl
@[simp] theorem latchCommand_errEn : (latchCommand w s).errEn = s.errEn := rfl
@[simp] theorem latchCommand_errCode : (latchCommand w s).errCode = s.errCode := rfl
@[simp] theorem latchCommand_errInfo : (latchCommand w s).errInfo = s.errInfo := rfl
@[simp] theorem latchCommand_mode : (latchCommand w s).mode = s.mode := rfl
@[simp] theorem latchCommand_modeLatched : (latchCommand w s).modeLatched = s.modeLatched := rfl
@[simp] theorem latchCommand_pending : (latchCommand w s).pending = s.pending := rfl
@[simp] theorem latchCommand_frames : (latchCommand w s).frames = s.frames := rfl
@[simp] theorem latchCommand_inSilent : (latchCommand w s).inSilent = s.inSilent := rfl
@[simp] theorem latchCommand_outSilent : (latchCommand w s).outSilent = s.outSilent := rfl
@[simp] theorem latchCommand_gainComb : (latchCommand w s).gainComb = s.gainComb := rfl
@[simp] theorem latchCommand_gainAp : (latchCommand w s).gainAp = s.gainAp := rfl
@[simp] theorem latchCommand_filtThresh : (latchCommand w s).filtThresh = s.filtThresh := rfl
@[simp] theorem latchCommand_filtDiff : (latchCommand w s).filtDiff = s.filtDiff := rfl
@[simp] theorem latchCommand_lines : (latchCommand w s).lines = s.lines := rfl
@[simp] theorem latchCommand_osc : (latchCommand w s).osc = s.osc := rfl
@[simp] theorem latchCommand_chorus : (latchCommand w s).chorus = s.chorus := rfl
@[simp] theorem latchCommand_cycle : (latchCommand w s).cycle = s.cycle := rfl
@[simp] theorem latchCommand_cycleShadow : (latchCommand w s).cycleShadow = s.cycleShadow := rfl
@[simp] theorem latchCommand_perfCal : (latchCommand w s).perfCal = s.perfCal := rfl
@[simp] theorem latchCommand_timers : (latchCommand w s).timers = s.timers := rfl
@[simp] theorem latchCommand_perfFrames : (latchCommand w s).perfFrames = s.perfFrames := rfl
@[simp] theorem latchCommand_diagState : (latchCommand w s).diagState = s.diagState := rfl
@[simp] theorem latchCommand_diagCount : (latchCommand w s).diagCount = s.diagCount := rfl
@[simp] theorem latchCommand_mem : (latchCommand w s).mem = s.mem := rfl
@[simp] theorem latchCommand_inbox : (latchCommand w s).inbox = s.inbox := rfl
@[simp] theorem latchCommand_readLog : (latchCommand w s).readLog = s.readLog := rfl
@[simp] theorem latchCommand_draws : (latchCommand w s).draws = s.draws := rfl
@[simp] theorem latchCommand_ramEpoch : (latchCommand w s).ramEpoch = s.ramEpoch := rfl

end latchCommand

end Sys2Proof.Machine
end

