-- ==== Sys2Proof/Laws/DelayLine.lean ====
section
/-!
SUPPORT. The laws of a delay line (R250 to R254): what the mirror refresh writes, what a write leaves, and that it keeps
the invariant of R71; and how the lines of the state are read after an update.
-/
namespace Sys2Proof.Machine

@[simp] theorem line_setLine (s : State) (u : Fin 9) (l : DelayLine) (v : Fin 9) :
    (s.setLine u l).line v = if v = u then l else s.line v := by
  simp only [State.line, State.setLine, Fin.getElem_fin, Vector.getElem_set]
  by_cases h : v = u
  · simp [h]
  · have : ¬ u.val = v.val := fun e => h (Fin.ext e.symm)
    simp [h, this]

@[simp] theorem cap_setLine (s : State) (u : Fin 9) (l : DelayLine) (v : Fin 9) : (s.setLine u l).cap v = s.cap v := rfl

/-- The mirror refresh keeps the number of slots. -/
@[simp] theorem refreshMirror_length (C M p : Nat) (v : Half) (buf : List Half) :
    (refreshMirror C M p v buf).length = buf.length := by
  unfold refreshMirror
  induction M with
  | zero => simp
  | succ M ih =>
    rw [List.range_succ, List.foldl_append, List.foldl_cons, List.foldl_nil]
    split <;> simp [ih]

/-- The mirror refresh writes exactly the mirror slots whose ring slot is `p` (R250). -/
theorem refreshMirror_getD (C M p : Nat) (v : Half) (buf : List Half) (hlen : buf.length = C + M) (i : Nat) :
    (refreshMirror C M p v buf).getD i 0#16 =
      if C ≤ i ∧ i < C + M ∧ (i - C) % C = p then v else buf.getD i 0#16 := by
  have key : ∀ K ≤ M, ((List.range K).foldl (fun b j => if j % C = p then b.set (C + j) v else b) buf).length = C + M ∧
      ∀ i, ((List.range K).foldl (fun b j => if j % C = p then b.set (C + j) v else b) buf).getD i 0#16 =
        if C ≤ i ∧ i < C + K ∧ (i - C) % C = p then v else buf.getD i 0#16 := by
    intro K
    induction K with
    | zero =>
      intro _
      refine ⟨by simpa using hlen, fun i => ?_⟩
      rw [if_neg (by omega)]
      simp
    | succ K ih =>
      intro hK
      obtain ⟨hl, hg⟩ := ih (by omega)
      rw [List.range_succ, List.foldl_append, List.foldl_cons, List.foldl_nil]
      generalize hb : (List.range K).foldl (fun b j => if j % C = p then b.set (C + j) v else b) buf = b at hl hg
      by_cases hp : K % C = p
      · rw [if_pos hp]
        refine ⟨by simpa using hl, fun i => ?_⟩
        rw [List.getD_eq_getElem?_getD, List.getElem?_set]
        by_cases hi : C + K = i
        · have hlt : C + K < b.length := by omega
          subst hi
          simp [hlt, hp]
        · rw [if_neg hi, ← List.getD_eq_getElem?_getD, hg]
          by_cases hc : C ≤ i ∧ i < C + K ∧ (i - C) % C = p
          · rw [if_pos hc, if_pos (by omega)]
          · rw [if_neg hc, if_neg (by omega)]
      · rw [if_neg hp]
        refine ⟨hl, fun i => ?_⟩
        rw [hg]
        by_cases hc : C ≤ i ∧ i < C + K ∧ (i - C) % C = p
        · rw [if_pos hc, if_pos (by omega)]
        · have : ¬ (C ≤ i ∧ i < C + (K + 1) ∧ (i - C) % C = p) := by
            rintro ⟨h1, h2, h3⟩
            have : i = C + K := by
              by_contra hne
              exact hc ⟨h1, by omega, h3⟩
            subst this
            simp at h3
            exact hp h3
          rw [if_neg hc, if_neg this]
  exact (key M (le_refl M)).2 i

theorem prevCursor_lt (C cur : Nat) (h : cur < C) : prevCursor C cur < C := by
  unfold prevCursor; split <;> omega

/-- What a write leaves (R250): the cursor moved back, the Sample in that ring slot and its mirror slots, every other
slot as it was. -/
theorem lineWrite_getD (C M : Nat) (x : Int) (l : DelayLine) (hlen : l.buf.length = C + M) (hc : l.cur < C) (i : Nat) :
    (lineWrite C M x l).buf.getD i 0#16 =
      if i = prevCursor C l.cur ∨ (C ≤ i ∧ i < C + M ∧ (i - C) % C = prevCursor C l.cur) then bits16 x
      else l.buf.getD i 0#16 := by
  have hp := prevCursor_lt C l.cur hc
  have hset : ∀ j, (l.buf.set (prevCursor C l.cur) (bits16 x)).getD j 0#16 =
      if j = prevCursor C l.cur then bits16 x else l.buf.getD j 0#16 := by
    intro j
    rw [List.getD_eq_getElem?_getD, List.getElem?_set]
    by_cases h : prevCursor C l.cur = j
    · have : prevCursor C l.cur < l.buf.length := by omega
      subst h
      simp [this]
    · rw [if_neg h, if_neg (fun e => h e.symm), ← List.getD_eq_getElem?_getD]
  simp only [lineWrite]
  rw [refreshMirror_getD C M _ _ _ (by simpa using hlen), hset]
  by_cases h1 : i = prevCursor C l.cur
  · simp [h1]
  · simp [h1]

@[simp] theorem lineWrite_length (C M : Nat) (x : Int) (l : DelayLine) :
    (lineWrite C M x l).buf.length = l.buf.length := by simp [lineWrite]

@[simp] theorem lineWrite_cur (C M : Nat) (x : Int) (l : DelayLine) : (lineWrite C M x l).cur = prevCursor C l.cur := rfl

/-- Every write keeps a line well formed, the mirror invariant with it (R71, R250). -/
theorem lineWrite_ok (C M : Nat) (x : Int) (l : DelayLine) (h : LineOk C M l) : LineOk C M (lineWrite C M x l) := by
  obtain ⟨hlen, hc, hm⟩ := h
  have hp := prevCursor_lt C l.cur hc
  refine ⟨by simpa using hlen, by simpa using hp, fun j hj => ?_⟩
  have hjC : j % C < C := Nat.mod_lt _ (by omega)
  rw [lineWrite_getD C M x l hlen hc, lineWrite_getD C M x l hlen hc]
  by_cases h1 : j % C = prevCursor C l.cur
  · rw [if_pos (Or.inr ⟨by omega, by omega, by simpa using h1⟩), if_pos (Or.inl h1)]
  · rw [if_neg, if_neg]
    · exact hm j hj
    · rintro (h | ⟨h, -⟩)
      · exact h1 h
      · omega
    · rintro (h | ⟨-, -, h⟩)
      · omega
      · exact h1 (by simpa using h)

theorem cleared_getD (C M i : Nat) : (DelayLine.cleared C M).buf.getD i 0#16 = 0#16 := by
  simp only [DelayLine.cleared, List.getD_eq_getElem?_getD, List.getElem?_replicate]
  split <;> rfl

theorem cleared_ok (C M : Nat) (h : 1 ≤ C) : LineOk C M (DelayLine.cleared C M) :=
  ⟨by simp [DelayLine.cleared], h, fun j _ => by rw [cleared_getD, cleared_getD]⟩

/-- The slot of an offset is a ring slot, congruent to the cursor plus the offset (R252). -/
theorem slotAt_spec (C : Nat) (hC : 1 ≤ C) (l : DelayLine) (k : Int) :
    slotAt C l k < C ∧ (C : Int) ∣ (l.cur : Int) + k - (slotAt C l k : Int) := by
  have h0 : 0 ≤ ((l.cur : Int) + k) % (C : Int) := Int.emod_nonneg _ (by omega)
  have h1 : ((l.cur : Int) + k) % (C : Int) < C := Int.emod_lt_of_pos _ (by omega)
  have e : (slotAt C l k : Int) = ((l.cur : Int) + k) % (C : Int) := Int.toNat_of_nonneg h0
  refine ⟨by omega, ?_⟩
  rw [e]
  exact Int.dvd_self_sub_emod

/-- An offset that lands in the ring without wrapping names that slot. -/
theorem slotAt_of_lt (C : Nat) (l : DelayLine) (k : Nat) (h : l.cur + k < C) : slotAt C l k = l.cur + k := by
  have : ((l.cur : Int) + (k : Int)) % (C : Int) = ((l.cur + k : Nat) : Int) := by
    rw [← Nat.cast_add, ← Int.natCast_mod, Nat.mod_eq_of_lt h]
  rw [slotAt, this, Int.toNat_natCast]

end Sys2Proof.Machine
end

