-- ==== Sys2Proof/Laws/Memory.lean ====
section
/-!
SUPPORT. The laws of the RAM list: a read after a write, and the canonical form, which every memory operation keeps.
-/
namespace Sys2Proof.Machine

theorem Memory.get_set (m : List Host.Cell) (a : Nat) (b : Byte) (x : Nat) :
    Memory.get (Memory.set m a b) x = if x = a then some b else Memory.get m x := by
  induction m with
  | nil => simp [Memory.set, Memory.get, eq_comm]
  | cons c m ih =>
    obtain ⟨k, v⟩ := c
    simp only [Memory.set]
    split
    · simp only [Memory.get]; grind
    · split
      · simp only [Memory.get]; grind
      · simp only [Memory.get, ih]; grind

@[simp] theorem Memory.get_set_same (m : List Host.Cell) (a : Nat) (b : Byte) :
    Memory.get (Memory.set m a b) a = some b := by simp [Memory.get_set]

theorem Memory.get_set_other (m : List Host.Cell) (a : Nat) (b : Byte) (x : Nat) (h : x ≠ a) :
    Memory.get (Memory.set m a b) x = Memory.get m x := by simp [Memory.get_set, h]

/-- The canonical form as a chain: every offset is below the ones after it. -/
theorem Memory.wf_iff_pairwise (m : List Host.Cell) :
    Memory.wf m = true ↔ m.Pairwise (fun c d => c.1 < d.1) := by
  induction m with
  | nil => simp [Memory.wf]
  | cons c m ih =>
    cases m with
    | nil => simp [Memory.wf]
    | cons d m =>
      obtain ⟨a, x⟩ := c; obtain ⟨b, y⟩ := d
      simp only [Memory.wf, Bool.and_eq_true, decide_eq_true_eq, ih]
      constructor
      · rintro ⟨h, hp⟩
        refine List.pairwise_cons.mpr ⟨?_, hp⟩
        intro e he
        rcases List.mem_cons.mp he with rfl | he
        · exact h
        · exact lt_trans h ((List.pairwise_cons.mp hp).1 e he)
      · intro hp
        exact ⟨(List.pairwise_cons.mp hp).1 _ (List.mem_cons_self ..), (List.pairwise_cons.mp hp).2⟩

/-- What a write lists: the written byte, and bytes listed before. -/
theorem Memory.mem_set {m : List Host.Cell} {a : Nat} {b : Byte} {c : Host.Cell} (h : c ∈ Memory.set m a b) :
    c = (a, b) ∨ c ∈ m := by
  induction m with
  | nil => simpa [Memory.set] using h
  | cons d m ih =>
    obtain ⟨k, v⟩ := d
    simp only [Memory.set] at h
    split at h
    · simpa using h
    · split at h
      · rcases List.mem_cons.mp h with h | h <;> simp [h]
      · rcases List.mem_cons.mp h with h | h
        · simp [h]
        · rcases ih h with h | h <;> simp [h]

theorem Memory.wf_set (m : List Host.Cell) (a : Nat) (b : Byte) (h : Memory.wf m = true) :
    Memory.wf (Memory.set m a b) = true := by
  rw [Memory.wf_iff_pairwise] at *
  induction m with
  | nil => simp [Memory.set]
  | cons d m ih =>
    obtain ⟨k, v⟩ := d
    obtain ⟨hk, hm⟩ := List.pairwise_cons.mp h
    simp only [Memory.set]
    split
    · rename_i hlt
      refine List.pairwise_cons.mpr ⟨?_, h⟩
      intro e he
      rcases List.mem_cons.mp he with rfl | he
      · exact hlt
      · exact lt_trans hlt (hk e he)
    · split
      · rename_i heq
        subst heq
        exact List.pairwise_cons.mpr ⟨fun e he => hk e he, hm⟩
      · rename_i h1 h2
        refine List.pairwise_cons.mpr ⟨?_, ih hm⟩
        intro e he
        rcases Memory.mem_set he with rfl | he
        · show k < a; omega
        · exact hk e he

theorem Memory.wf_setWord (m : List Host.Cell) (a : Nat) (w : Word) (h : Memory.wf m = true) :
    Memory.wf (Memory.setWord m a w) = true := by
  unfold Memory.setWord
  exact Memory.wf_set _ _ _ (Memory.wf_set _ _ _ (Memory.wf_set _ _ _ (Memory.wf_set _ _ _ h)))

/-- What a word write lists: bytes of the word's four offsets, and bytes listed before. -/
theorem Memory.mem_setWord {m : List Host.Cell} {a : Nat} {w : Word} {c : Host.Cell} (h : c ∈ Memory.setWord m a w) :
    (a ≤ c.1 ∧ c.1 < a + 4) ∨ c ∈ m := by
  unfold Memory.setWord at h
  rcases Memory.mem_set h with rfl | h
  · left; simp
  rcases Memory.mem_set h with rfl | h
  · left; simp
  rcases Memory.mem_set h with rfl | h
  · left; simp
  rcases Memory.mem_set h with rfl | h
  · left; simp
  exact .inr h

/-- A word write stores byte `k` of the word at `a + k` and leaves every other byte alone. -/
theorem Memory.get_setWord (m : List Host.Cell) (a : Nat) (w : Word) (x : Nat) :
    Memory.get (Memory.setWord m a w) x =
      if a ≤ x ∧ x < a + 4 then some (byteOf w (x - a)) else Memory.get m x := by
  unfold Memory.setWord
  simp only [Memory.get_set]
  by_cases h : a ≤ x ∧ x < a + 4
  · obtain ⟨h1, h2⟩ := h
    obtain ⟨k, rfl⟩ := Nat.exists_eq_add_of_le h1
    have hk : k < 4 := by omega
    interval_cases k <;> simp
  · have h0 : x ≠ a := by omega
    have h1 : x ≠ a + 1 := by omega
    have h2 : x ≠ a + 2 := by omega
    have h3 : x ≠ a + 3 := by omega
    simp [h, h0, h1, h2, h3]

/-- The four bytes of a word, joined, are the word (R102). -/
theorem byteOf_join (w : Word) : byteOf w 3 ++ byteOf w 2 ++ byteOf w 1 ++ byteOf w 0 = w := by
  simp only [byteOf]
  ext i hi
  simp only [BitVec.getElem_append, BitVec.getElem_extractLsb']
  repeat' split
  all_goals
    rw [BitVec.getLsbD_eq_getElem (by omega)]
    congr 1
    omega

/-- A RAM word that has been written reads as written; a write to a word that does not overlap it changes nothing. -/
theorem ramWord_setRam (s : State) (a : Nat) (w : Word) (x : Nat) (h : x = a ∨ x + 4 ≤ a ∨ a + 4 ≤ x) :
    (s.setRam a w).ramWord x = if x = a then w else s.ramWord x := by
  have hb : ∀ y, (s.setRam a w).ramByte y =
      if a ≤ y ∧ y < a + 4 then byteOf w (y - a) else s.ramByte y := by
    intro y
    show (Memory.get (Memory.setWord s.mem a w) y).getD _ = _
    rw [Memory.get_setWord]
    split <;> rfl
  simp only [State.ramWord, hb]
  rcases h with rfl | h | h
  · simp [byteOf_join]
  · have : x ≠ a := by omega
    simp only [this, if_false]
    rw [if_neg (by omega), if_neg (by omega), if_neg (by omega), if_neg (by omega)]
  · have : x ≠ a := by omega
    simp only [this, if_false]
    rw [if_neg (by omega), if_neg (by omega), if_neg (by omega), if_neg (by omega)]

/-- A word write inside the RAM windows keeps the memory invariant. -/
theorem setRam_memOk (s : State) (a : Nat) (w : Word) (h : MemOk s) (ha : ∀ k < 4, inRam s.params (a + k)) :
    MemOk (s.setRam a w) := by
  refine ⟨Memory.wf_setWord _ _ _ h.1, ?_⟩
  intro c hc
  rcases Memory.mem_setWord hc with ⟨h1, h2⟩ | hc
  · obtain ⟨k, hk⟩ := Nat.exists_eq_add_of_le h1
    exact hk ▸ ha k (by omega)
  · exact h.2 c hc

theorem resetOf_memOk (p : Params) : MemOk (State.resetOf p) := ⟨rfl, by intro c hc; cases hc⟩

end Sys2Proof.Machine
end

