-- ==== Sys2Proof/Laws/Numeric.lean ====
section
/-!
SUPPORT. The laws of the saturations (R12, R13) and of the units a command names (R136).
-/
namespace Sys2Proof.Machine

theorem clamp_eq_max_min (v lo hi : Int) (h : lo ≤ hi) : clamp v lo hi = max lo (min v hi) := by
  unfold clamp; split <;> [skip; split] <;> omega

theorem clamp_range (v lo hi : Int) (h : lo ≤ hi) : lo ≤ clamp v lo hi ∧ clamp v lo hi ≤ hi := by
  rw [clamp_eq_max_min v lo hi h]; omega

theorem clamp_of_range (v lo hi : Int) (h : lo ≤ v ∧ v ≤ hi) : clamp v lo hi = v := by
  unfold clamp; split <;> [skip; split] <;> omega

theorem satA_range (width : Nat) (v : Int) :
    -(2 ^ (width - 1)) ≤ satA width v ∧ satA width v ≤ 2 ^ (width - 1) - 1 := by
  have : (0 : Int) < 2 ^ (width - 1) := by positivity
  exact clamp_range _ _ _ (by omega)

theorem unitIndex_of_lt (n : Nat) (u : BitVec 4) (h : u.toNat < n) : unitIndex n u = some ⟨u.toNat, h⟩ := by
  simp [unitIndex, h]

/-- A command on a unit that exists runs on that unit. -/
theorem onUnit_of_lt (n : Nat) (u : BitVec 4) (i : Instr) (s : State) (f : Fin n → State) (h : u.toNat < n) :
    onUnit n u i s f = .next (f ⟨u.toNat, h⟩) := by
  simp [onUnit, unitIndex_of_lt n u h]

/-- All a command on a unit can do: run on a unit that exists, or record `ILLEGAL_UNIT`. -/
theorem onUnit_cases (n : Nat) (u : BitVec 4) (i : Instr) (s t : State) (f : Fin n → State)
    (h : onUnit n u i s f = .next t) :
    (∃ k, t = f k) ∨ (n ≤ u.toNat ∧ t = raiseError .illegalUnit (encode i) s) := by
  unfold onUnit unitIndex at h
  by_cases hu : u.toNat < n
  · simp only [hu, dif_pos] at h
    exact .inl ⟨_, (Host.Outcome.next.inj h).symm⟩
  · simp only [hu, dif_neg, not_false_eq_true] at h
    exact .inr ⟨by omega, (Host.Outcome.next.inj h).symm⟩

/-- No command faults or is refused: every command answers a next state. -/
theorem onUnit_answers (n : Nat) (u : BitVec 4) (i : Instr) (s : State) (f : Fin n → State) :
    ∃ t, onUnit n u i s f = .next t := by
  unfold onUnit
  split <;> exact ⟨_, rfl⟩

end Sys2Proof.Machine
end

