-- ==== Sys2Proof/Laws/Units.lean ====
section
/-!
SUPPORT. What one sample of each unit, and one timer operation, can change: each is the old state with the named fields
replaced, so that a frame needs no unfolding of the unit's arithmetic.
-/
namespace Sys2Proof.Machine

/-- A delay-line write changes the lines only. -/
theorem dlWrite_eq (u : Fin 9) (x : Int) (s : State) :
    dlWrite u x s = { s with lines := s.lines.set u (lineWrite (s.cap u) s.params.mirror x (s.line u)) } := rfl

@[simp] theorem line_dlWrite (u : Fin 9) (x : Int) (s : State) (v : Fin 9) :
    (dlWrite u x s).line v = if v = u then lineWrite (s.cap u) s.params.mirror x (s.line u) else s.line v := by
  simp [dlWrite]

@[simp] theorem cap_dlWrite (u : Fin 9) (x : Int) (s : State) (v : Fin 9) : (dlWrite u x s).cap v = s.cap v := rfl
@[simp] theorem params_dlWrite (u : Fin 9) (x : Int) (s : State) : (dlWrite u x s).params = s.params := rfl

/-- Another line's samples are read as before. -/
theorem dlAt_dlWrite_other (u v : Fin 9) (x k : Int) (s : State) (h : v ≠ u) :
    dlAt (dlWrite u x s) v k = dlAt s v k := by
  simp [dlAt, h]

theorem combNext_eq (k : Fin 4) (x : Int) (s : State) :
    combNext k x s = { s with lines := (combNext k x s).lines } := rfl

theorem apNext_eq (k : Fin 2) (x : Int) (s : State) : apNext k x s = { s with lines := (apNext k x s).lines } := rfl

theorem firNext_eq (n : Fin 2) (x : Int) (s : State) :
    firNext n x s = { s with lines := (firNext n x s).lines, ramEpoch := s.ramEpoch + 1 } := rfl

theorem chNext_eq (x : Int) (s : State) :
    chNext x s = { s with lines := (chNext x s).lines, chorus := chAdvance s.chorus } := rfl

/-- The four combs, written out: each runs on the same input, in order, and the mix adds their shifted outputs (R400). -/
theorem combsRun_all (x : Int) (s : State) :
    combsRun x allCombs 0 s =
      (combNext 3 x (combNext 2 x (combNext 1 x (combNext 0 x s))),
        0 + asr (combOut 0 x s) 2 + asr (combOut 1 x (combNext 0 x s)) 2
          + asr (combOut 2 x (combNext 1 x (combNext 0 x s))) 2
          + asr (combOut 3 x (combNext 2 x (combNext 1 x (combNext 0 x s)))) 2) := by
  simp only [allCombs, combsRun]

/-- The network changes the lines only (R400). -/
theorem reverbRun_eq (x : Int) (s : State) :
    (reverbRun x s).1 = { s with lines := (reverbRun x s).1.lines } := by
  unfold reverbRun
  simp only [combsRun_all, apNext, combNext, dlWrite, State.setLine]

/-- A comb reads and writes its own line only, so its output is the same whatever other combs ran (R400). -/
theorem combOut_combNext_other (j k : Fin 4) (x y : Int) (s : State) (h : j ≠ k) :
    combOut j x (combNext k y s) = combOut j x s := by
  have hl : combLine j ≠ combLine k := by
    intro e
    apply h
    have := congrArg Fin.val e
    simp only [combLine] at this
    exact Fin.ext (by omega)
  simp only [combOut, dlOldest, combNext, cap_dlWrite, dlAt_dlWrite_other _ _ _ _ _ hl]
  rfl

/-! ## Timers -/

@[simp] theorem timer_setTimer (s : State) (t : Fin 2) (x : Timer) (v : Fin 2) :
    (s.setTimer t x).timer v = if v = t then x else s.timer v := by
  simp only [State.timer, State.setTimer, Fin.getElem_fin, Vector.getElem_set]
  by_cases h : v = t
  · simp [h]
  · have : ¬ t.val = v.val := fun e => h (Fin.ext e.symm)
    simp [h, this]

@[simp] theorem timer_readCycle (s : State) (t : Fin 2) : s.readCycle.timer t = s.timer t := rfl

/-- A counter read is not below the previous one, and is the draw wherever that allows it (R550). -/
theorem cycleRead_spec (p d : DWord) : p ≤ cycleRead p d ∧ (p ≤ d → cycleRead p d = d) := by
  unfold cycleRead
  split <;> simp_all

/-- The same of the state's next read. -/
theorem nextCycle_spec (s : State) :
    s.cycle ≤ s.nextCycle ∧ (s.cycle ≤ Config.freeCycleRead s.draws → s.nextCycle = Config.freeCycleRead s.draws) :=
  cycleRead_spec _ _

/-- A timer start changes its timer and takes one counter read (R552). -/
theorem timerStart_eq (t : Fin 2) (s : State) :
    timerStart t s =
      { s with timers := (timerStart t s).timers, cycle := s.nextCycle, draws := s.draws + 1 } := rfl

/-- A timer stop changes its timer and takes one counter read if the timer runs, and else does nothing (R553). -/
theorem timerStop_eq (t : Fin 2) (s : State) :
    timerStop t s =
      if (s.timer t).running then
        { s with timers := (timerStop t s).timers, cycle := s.nextCycle, draws := s.draws + 1 }
      else s := by
  unfold timerStop
  split <;> rfl

theorem timerStarted_ok (n : Nat) (v : DWord) (x : Timer) (h : TimerOk n x) : TimerOk n (timerStarted v x) := h

theorem timerStopped_ok (n : Nat) (v : DWord) (x : Timer) (h : TimerOk n x) : TimerOk n (timerStopped n v x) := by
  obtain ⟨h1, h2⟩ := h
  simp only [timerStopped, timerRecord]
  split
  · rename_i hlt
    exact ⟨hlt, by simpa using h2⟩
  · exact ⟨h1, h2⟩

theorem timerCleared_ok (n : Nat) : TimerOk n (Timer.cleared n) := ⟨Nat.zero_le _, by simp [Timer.cleared]⟩

/-! ## Well-formed lines are kept -/

/-- A write to any line keeps all lines well formed (R71). -/
theorem dlWrite_linesOk (u : Fin 9) (x : Int) (s : State) (h : ∀ v, LineOk (s.cap v) s.params.mirror (s.line v)) :
    ∀ v, LineOk ((dlWrite u x s).cap v) (dlWrite u x s).params.mirror ((dlWrite u x s).line v) := by
  intro v
  simp only [line_dlWrite, cap_dlWrite, params_dlWrite]
  split
  · rename_i e; subst e; exact lineWrite_ok _ _ _ _ (h v)
  · exact h v

end Sys2Proof.Machine
end

