-- ==== Sys2Proof/Laws/Engine.lean ====
section
/-!
SUPPORT. The signal paths (R604 to R609): one induction over the frames of a buffer, packaged once, and from it what each
path can change.
-/
namespace Sys2Proof.Machine

/-- What holds before a buffer, is kept by every frame's path and by every output write in range, holds after it. -/
theorem runFrames_keeps (motive : State → Prop) (path : Word → State → State × Word) (bound : Nat)
    (hpath : ∀ w s, motive s → motive (path w s).1)
    (hout : ∀ f w s, f < bound → motive s → motive (writeOut f w s)) :
    ∀ (ws : List Word) (f : Nat) (s : State), f + ws.length ≤ bound → motive s → motive (runFrames path f ws s) := by
  intro ws
  induction ws with
  | nil => intro f s _ h; exact h
  | cons w ws ih =>
    intro f s hf h
    simp only [List.length_cons] at hf
    exact ih (f + 1) _ (by omega) (hout f _ _ (by omega) (hpath w s h))

/-- The same for the FILTER path, which runs both FIRs on every frame. -/
theorem filterRun_keeps (motive : State → Prop) (bound : Nat)
    (hfir : ∀ n x s, motive s → motive (firNext n x s))
    (hout : ∀ f w s, f < bound → motive s → motive (writeOut f w s)) :
    ∀ (ws : List Word) (f d : Nat) (s : State), f + ws.length ≤ bound → motive s → motive (filterRun f ws d s).1 := by
  intro ws
  induction ws with
  | nil => intro f d s _ h; exact h
  | cons w ws ih =>
    intro f d s hf h
    simp only [List.length_cons] at hf
    exact ih (f + 1) _ _ (by omega) (hout f _ _ (by omega) (hfir 1 _ _ (hfir 0 _ _ h)))

/-- STOPPED and PASS_THROUGH frames change no unit: the buffer changes the RAM words only (R605, R606, R612). -/
theorem runFrames_plain_eq (path : Word → State → State × Word) (hp : ∀ w s, (path w s).1 = s) (f : Nat)
    (ws : List Word) (s : State) :
    runFrames path f ws s = { s with mem := (runFrames path f ws s).mem } := by
  induction ws generalizing f s with
  | nil => rfl
  | cons w ws ih => simp only [runFrames, hp]; rw [ih]; rfl

/-- A SINE_GENERATOR buffer changes the oscillator and the RAM words only (R607, R612). -/
theorem runFrames_sine_eq (f : Nat) (ws : List Word) (s : State) :
    runFrames sineFrame f ws s =
      { s with osc := (runFrames sineFrame f ws s).osc, mem := (runFrames sineFrame f ws s).mem } := by
  induction ws generalizing f s with
  | nil => rfl
  | cons w ws ih => simp only [runFrames]; rw [ih]; rfl

/-- A TEST buffer changes the delay lines and the RAM words only (R609, R612). -/
theorem runFrames_test_eq (f : Nat) (ws : List Word) (s : State) :
    runFrames testFrame f ws s =
      { s with lines := (runFrames testFrame f ws s).lines, mem := (runFrames testFrame f ws s).mem } := by
  induction ws generalizing f s with
  | nil => rfl
  | cons w ws ih =>
    obtain ⟨L, hL⟩ : ∃ L, (reverbRun (mono w) s).1 = { s with lines := L } := ⟨_, reverbRun_eq _ _⟩
    simp only [runFrames, testFrame, hL]
    generalize stereo _ = y
    have h := ih (f + 1) (writeOut f y { s with lines := L })
    generalize runFrames testFrame (f + 1) ws (writeOut f y { s with lines := L }) = r at h ⊢
    exact h

/-- A FILTER buffer's frames change the delay lines, the RAM words and the epoch of the unwritten ones only (R608, R612). -/
theorem filterRun_eq (f : Nat) (ws : List Word) (d : Nat) (s : State) :
    (filterRun f ws d s).1 =
      { s with
        lines := (filterRun f ws d s).1.lines, mem := (filterRun f ws d s).1.mem,
        ramEpoch := (filterRun f ws d s).1.ramEpoch } := by
  induction ws generalizing f d s with
  | nil => rfl
  | cons w ws ih =>
    simp only [filterRun]
    generalize d + rectifiedDiff _ _ = e
    generalize stereo _ = y
    have h := ih (f + 1) e (writeOut f y (firNext 1 (mono w) (firNext 0 (mono w) s)))
    generalize filterRun (f + 1) ws e (writeOut f y (firNext 1 (mono w) (firNext 0 (mono w) s))) = r at h ⊢
    refine h.trans ?_
    simp only [firNext, firWrite, writeOut, dlWrite, State.setLine, State.setRam, State.newEpoch]

/-- The FILTER path changes those and its difference and flag (R608). -/
theorem filterPath_eq (n : Nat) (s : State) :
    filterPath n s =
      { s with
        lines := (filterPath n s).lines, mem := (filterPath n s).mem, ramEpoch := (filterPath n s).ramEpoch,
        filtDiff := (filterPath n s).filtDiff, outSilent := (filterPath n s).outSilent } := by
  unfold filterPath
  simp only
  rw [filterRun_eq]

/-- A state with another's diagnostic machine, timers and counter. -/
def withDiagOf (s t : State) : State :=
  { s with
    timers := t.timers, cycle := t.cycle, draws := t.draws, diagState := t.diagState, diagCount := t.diagCount,
    perfFrames := t.perfFrames }

theorem firAcc_withDiagOf (s t : State) (n : Fin 2) (k : Nat) : firAcc (withDiagOf s t) n k = firAcc s n k := by
  induction k with
  | zero => rfl
  | succ k ih => simp only [firAcc, ih]; rfl

theorem firOut_withDiagOf (s t : State) (n : Fin 2) (x : Int) : firOut n x (withDiagOf s t) = firOut n x s := by
  have h : firWrite n x (withDiagOf s t) = withDiagOf (firWrite n x s) t := rfl
  simp only [firOut, h, firAcc_withDiagOf]
  rfl

theorem filterRun_withDiagOf (s t : State) (ws : List Word) (f d : Nat) :
    filterRun f ws d (withDiagOf s t) = (withDiagOf (filterRun f ws d s).1 t, (filterRun f ws d s).2) := by
  induction ws generalizing f d s with
  | nil => rfl
  | cons w ws ih =>
    have hn : ∀ n x (s : State), firNext n x (withDiagOf s t) = withDiagOf (firNext n x s) t := fun _ _ _ => rfl
    have hw : ∀ f w (s : State), writeOut f w (withDiagOf s t) = withDiagOf (writeOut f w s) t := fun _ _ _ => rfl
    simp only [filterRun, hn, hw, firOut_withDiagOf, ih]

/-- The FILTER path neither reads nor writes the diagnostic machine, the timers or the counter (R608, R620). -/
theorem filterPath_withDiagOf (n : Nat) (s t : State) :
    filterPath n (withDiagOf s t) = withDiagOf (filterPath n s) t := by
  have hi : inFrames (withDiagOf s t) n = inFrames s n := rfl
  simp only [filterPath, hi, filterRun_withDiagOf]
  rfl

/-- The difference of two Samples' rectified values is at most 32768 (R611). -/
theorem rectifiedDiff_le (a b : Int) (ha : IsSample a) (hb : IsSample b) : rectifiedDiff a b ≤ 32768 := by
  unfold rectifiedDiff; omega

theorem accToSample_isSample (acc : Int) : IsSample (accToSample acc) := clamp_range _ _ _ (by omega)

/-- The FILTER difference of a buffer grows by at most 32768 a frame (R611). -/
theorem filterRun_diff_le (f : Nat) (ws : List Word) (d : Nat) (s : State) :
    (filterRun f ws d s).2 ≤ d + 32768 * ws.length := by
  induction ws generalizing f d s with
  | nil => simp [filterRun]
  | cons w ws ih =>
    simp only [filterRun, List.length_cons]
    refine le_trans (ih _ _ _) ?_
    have := rectifiedDiff_le _ _ (accToSample_isSample (firAcc (firWrite 0 (mono w) s) 0 ((firWrite 0 (mono w) s).cap (firLine 0))))
      (accToSample_isSample (firAcc (firWrite 1 (mono w) (firNext 0 (mono w) s)) 1
        ((firWrite 1 (mono w) (firNext 0 (mono w) s)).cap (firLine 1))))
    simp only [firOut]
    omega

@[simp] theorem inFrames_length (s : State) (n : Nat) : (inFrames s n).length = n := by simp [inFrames]

end Sys2Proof.Machine
end

