-- ==== Sys2Proof/Laws/Float64.lean ====
section
/-!
SUPPORT. The values of binary64 patterns and of the one rounding `fRound` (R14): patterns lie on the grid of multiples
of `2 ^ (-1074)`, and `fRound` assembles the nearest value of that grid, ties to even.
-/
namespace Sys2Proof.Machine

/-- What a pattern denotes, by its fields (R14). -/
theorem fUnpack_eq (b : DWord) : fUnpack b =
    if expField b = 2047 then (if fracField b = 0 then .inf b.msb else .nan)
    else .fin b.msb (significand b) (lowExponent b) := by
  have h1 : (b.extractLsb' 52 11).toNat = expField b := by
    simp [BitVec.extractLsb'_toNat, Nat.shiftRight_eq_div_pow, expField]
  have h2 : (b.extractLsb' 0 52).toNat = fracField b := by
    simp [BitVec.extractLsb'_toNat, fracField]
  simp only [fUnpack, h1, h2]
  split
  · rfl
  · by_cases h : expField b = 0
    · simp [significand, lowExponent, h]
    · simp only [significand, lowExponent, h, if_false]
      have : max (expField b) 1 = expField b := by omega
      rw [this]

/-- The magnitude bits of a pattern as a count of the smallest positive value, `2 ^ (-1074)`. -/
def gridUnits (M : Nat) : Nat := if M < 2 ^ 52 then M else (2 ^ 52 + M % 2 ^ 52) * 2 ^ (M / 2 ^ 52 - 1)

/-- The smallest positive value. -/
def smallest : ℚ := 2 ^ (-1074 : ℤ)

theorem smallest_pos : 0 < smallest := by unfold smallest; positivity

/-- A sign as a factor. -/
def signOf (n : Bool) : ℚ := if n then -1 else 1

/-- A pattern's value is its sign times its magnitude on the grid. -/
theorem real64_eq_grid (b : DWord) :
    real64 b = signOf b.msb * (gridUnits (expField b * 2 ^ 52 + fracField b)) * smallest := by
  have hf : fracField b < 2 ^ 52 := Nat.mod_lt _ (by norm_num)
  unfold real64 signOf
  rw [mul_assoc, mul_assoc]
  congr 1
  by_cases h : expField b = 0
  · have h0 : gridUnits (0 * 2 ^ 52 + fracField b) = fracField b := by unfold gridUnits; rw [if_pos (by omega)]; omega
    have hs : significand b = fracField b := by simp [significand, h]
    have hl : lowExponent b = -1074 := by simp [lowExponent, h]
    rw [h, h0, hs, hl, smallest]
  · have hE : 1 ≤ expField b := by omega
    generalize hEe : expField b = E at *
    simp only [significand, lowExponent, hEe, h, if_false]
    have : max E 1 = E := by omega
    rw [this, gridUnits, if_neg (by omega)]
    have h1 : (E * 2 ^ 52 + fracField b) % 2 ^ 52 = fracField b := by omega
    have h2 : (E * 2 ^ 52 + fracField b) / 2 ^ 52 = E := by omega
    rw [h1, h2, smallest]
    rw [Nat.cast_mul, Nat.cast_pow, Nat.cast_ofNat]
    have : (2:ℚ) ^ ((E:ℤ) - 1075) = 2 ^ (E - 1) * 2 ^ (-1074 : ℤ) := by
      rw [← zpow_natCast, ← zpow_add₀ (by norm_num)]
      congr 1; omega
    rw [this, Nat.add_comm (fracField b), mul_assoc]

/-- The magnitude that `fRound` assembles from `n` units of `2 ^ k` grid steps: the hidden bit and the carry of the
rounding add to the exponent field. -/
theorem gridUnits_assembled (k n : Nat) (hn : n ≤ 2 ^ 53) (hk : k = 0 ∨ 2 ^ 52 ≤ n) :
    gridUnits (k * 2 ^ 52 + n) = n * 2 ^ k := by
  unfold gridUnits
  rcases Nat.lt_or_ge n (2 ^ 52) with h | h
  · obtain rfl : k = 0 := by omega
    rw [if_pos (by omega)]; simp
  · rw [if_neg (by omega)]
    rcases Nat.lt_or_ge n (2 ^ 53) with h' | h'
    · have h1 : (k * 2 ^ 52 + n) % 2 ^ 52 = n - 2 ^ 52 := by omega
      have h2 : (k * 2 ^ 52 + n) / 2 ^ 52 = k + 1 := by omega
      rw [h1, h2, show 2 ^ 52 + (n - 2 ^ 52) = n by omega, show k + 1 - 1 = k by omega]
    · obtain rfl : n = 2 ^ 53 := by omega
      have h1 : (k * 2 ^ 52 + 2 ^ 53) % 2 ^ 52 = 0 := by omega
      have h2 : (k * 2 ^ 52 + 2 ^ 53) / 2 ^ 52 = k + 2 := by omega
      rw [h1, h2, show k + 2 - 1 = k + 1 by omega, pow_succ]; ring

/-- Every magnitude is a multiple of `2 ^ k` grid steps or lies below the normal numbers whose unit that is. -/
theorem gridUnits_dichotomy (k M : Nat) : 2 ^ k ∣ gridUnits M ∨ (0 < k ∧ gridUnits M < 2 ^ (52 + k)) := by
  unfold gridUnits
  split
  · rcases Nat.eq_zero_or_pos k with rfl | hk
    · left; simp
    · right
      refine ⟨hk, ?_⟩
      calc M < 2 ^ 52 := by assumption
        _ ≤ 2 ^ (52 + k) := Nat.pow_le_pow_right (by norm_num) (by omega)
  · rcases Nat.lt_or_ge (M / 2 ^ 52 - 1) k with h | h
    · right
      refine ⟨by omega, ?_⟩
      have h1 : 2 ^ 52 + M % 2 ^ 52 < 2 ^ 53 := by omega
      calc (2 ^ 52 + M % 2 ^ 52) * 2 ^ (M / 2 ^ 52 - 1) < 2 ^ 53 * 2 ^ (M / 2 ^ 52 - 1) := Nat.mul_lt_mul_of_pos_right h1 (by positivity)
        _ = 2 ^ (53 + (M / 2 ^ 52 - 1)) := by rw [pow_add]
        _ ≤ 2 ^ (52 + k) := Nat.pow_le_pow_right (by norm_num) (by omega)
    · left
      exact Dvd.dvd.mul_left (pow_dvd_pow 2 h) _

/-- A multiple of `U` within half a unit of `X` is nearest among the multiples; another is as near only at a tie. -/
theorem multiple_nearest (n j : ℤ) (U X : ℚ) (hU : 0 < U) (h : 2 * |n * U - X| ≤ U) (hj : j ≠ n) :
    |n * U - X| ≤ |j * U - X| ∧ (|j * U - X| = |n * U - X| → 2 * |n * U - X| = U) := by
  have h1 : U ≤ |j * U - n * U| := by
    rw [← sub_mul, abs_mul, abs_of_pos hU]
    have : (1:ℚ) ≤ |(j:ℚ) - n| := by
      have h0 : (1:ℤ) ≤ |j - n| := Int.one_le_abs (sub_ne_zero.2 hj)
      exact_mod_cast h0
    nlinarith
  have h2 : |j * U - n * U| ≤ |j * U - X| + |n * U - X| := by
    have := abs_sub (j * U - X) (n * U - X)
    rwa [show j * U - X - (n * U - X) = j * U - n * U by ring] at this
  constructor
  · linarith
  · intro e; linarith

/-- `roundEven` is within half a unit, and even at a tie (R14). -/
theorem roundEven_half (m k : Nat) :
    2 * |(roundEven m k : ℚ) * 2 ^ k - m| ≤ 2 ^ k ∧
      (2 * |(roundEven m k : ℚ) * 2 ^ k - m| = 2 ^ k → roundEven m k % 2 = 0) := by
  have hP : 0 < 2 ^ k := by positivity
  have hm : m = 2 ^ k * (m / 2 ^ k) + m % 2 ^ k := (Nat.div_add_mod m (2 ^ k)).symm
  have hr : m % 2 ^ k < 2 ^ k := Nat.mod_lt _ hP
  unfold roundEven
  simp only
  generalize m / 2 ^ k = q at *
  generalize m % 2 ^ k = r at *
  have hmq : (m:ℚ) = 2 ^ k * q + r := by rw [hm]; push_cast; ring
  have hq (a : ℕ) : (a : ℚ) * 2 ^ k - m = (a - q) * 2 ^ k - r := by rw [hmq]; ring
  have e1 : |(q:ℚ) * 2 ^ k - m| = r := by rw [hq]; simp
  have hr' : (r:ℚ) < 2 ^ k := by exact_mod_cast hr
  have e2 : |((q+1 : ℕ):ℚ) * 2 ^ k - m| = 2 ^ k - r := by
    rw [hq]; push_cast
    rw [show ((q:ℚ) + 1 - q) * 2 ^ k - r = 2 ^ k - r by ring, abs_of_pos (by linarith)]
  split
  · rename_i h
    have : (2:ℚ) * r < 2 ^ k := by exact_mod_cast h
    rw [e1]; constructor
    · linarith
    · intro e; linarith
  · split
    · rename_i h1 h2
      have : (2:ℚ) ^ k < 2 * r := by exact_mod_cast h2
      rw [e2]; constructor
      · linarith
      · intro e; linarith
    · rename_i h1 h2
      have : 2 * r = 2 ^ k := by omega
      have : (2:ℚ) * r = 2 ^ k := by exact_mod_cast this
      split
      · rename_i h3
        rw [e1]; exact ⟨by linarith, fun _ => h3⟩
      · rw [e2]; exact ⟨by linarith, fun _ => by omega⟩

theorem two_zpow_add (a b : ℤ) : (2:ℚ) ^ (a + b) = 2 ^ a * 2 ^ b := zpow_add₀ (by norm_num) a b

/-- The units `fRound` counts in: the assembled multiple `n` of `U` is within half a unit of the value `X`, even at a tie, and
`X` has at most 53 bits above the unit, exactly 53 for a normal number. -/
theorem fRound_spec (neg : Bool) (m : Nat) (e : Int) (hm : m ≠ 0) :
    ∃ k n : Nat, let U : ℚ := 2 ^ k * smallest; let X : ℚ := m * 2 ^ e
      2 * |(n:ℚ) * U - X| ≤ U ∧ (2 * |(n:ℚ) * U - X| = U → n % 2 = 0) ∧ X < 2 ^ 53 * U ∧ 0 < X ∧
      (0 < k → 2 ^ 52 * U ≤ X) ∧
      fRound neg m e = if 2047 * 2 ^ 52 ≤ k * 2 ^ 52 + n then fInf neg
        else fZero neg ||| BitVec.ofNat 64 (k * 2 ^ 52 + n) := by
  have hl1 : 2 ^ m.log2 ≤ m := Nat.log2_self_le hm
  have hl2 : m < 2 ^ (m.log2 + 1) := Nat.lt_log2_self
  generalize hL : m.log2 = L at *
  have hX1 : (2:ℚ) ^ ((L:ℤ) + e) ≤ m * 2 ^ e := by
    rw [two_zpow_add]
    have : (2:ℚ) ^ ((L:ℤ)) ≤ m := by rw [zpow_natCast]; exact_mod_cast hl1
    gcongr
  have hX2 : (m:ℚ) * 2 ^ e < 2 ^ ((L:ℤ) + 1 + e) := by
    rw [two_zpow_add]
    have : (m:ℚ) < 2 ^ ((L:ℤ)+1) := by
      rw [show (L:ℤ) + 1 = ((L+1:ℕ):ℤ) by push_cast; ring, zpow_natCast]; exact_mod_cast hl2
    gcongr
  have hm0 : (0:ℚ) < m := by exact_mod_cast Nat.pos_of_ne_zero hm
  obtain ⟨q, hq⟩ : ∃ q : ℤ, q = max (e + (L:ℤ) - 52) (-1074) := ⟨_, rfl⟩
  obtain ⟨n, hn⟩ : ∃ n : ℕ, n = if q ≤ e then m * 2 ^ (e - q).toNat else roundEven m (q - e).toNat := ⟨_, rfl⟩
  refine ⟨(q + 1074).toNat, n, ?_⟩
  have hU : (2:ℚ) ^ (q+1074).toNat * smallest = 2 ^ q := by
    rw [smallest, ← zpow_natCast, ← two_zpow_add]; congr 1; omega
  simp only [hU]
  have hUpos : (0:ℚ) < 2 ^ q := by positivity
  have hhalf : 2 * |(n:ℚ) * 2 ^ q - m * 2 ^ e| ≤ 2 ^ q ∧ (2 * |(n:ℚ) * 2 ^ q - m * 2 ^ e| = 2 ^ q → n % 2 = 0) := by
    rw [hn]
    split
    · have : (2:ℚ) ^ e = 2 ^ (e - q).toNat * 2 ^ q := by
        rw [← zpow_natCast, ← two_zpow_add]; congr 1; omega
      rw [this]; push_cast
      have z : (m:ℚ) * 2 ^ (e - q).toNat * 2 ^ q - m * (2 ^ (e - q).toNat * 2 ^ q) = 0 := by ring
      rw [z]; simp only [abs_zero, mul_zero]
      exact ⟨hUpos.le, fun h => absurd h hUpos.ne⟩
    · obtain ⟨h1, h2⟩ := roundEven_half m (q - e).toNat
      have hq' : (2:ℚ) ^ q = 2 ^ (q - e).toNat * 2 ^ e := by
        rw [← zpow_natCast, ← two_zpow_add]; congr 1; omega
      have he : (0:ℚ) < 2 ^ e := by positivity
      have z : 2 * |(roundEven m (q - e).toNat:ℚ) * 2 ^ q - m * 2 ^ e| =
          2 * |(roundEven m (q - e).toNat:ℚ) * 2 ^ (q - e).toNat - m| * 2 ^ e := by
        rw [hq', ← mul_assoc, ← sub_mul, abs_mul, abs_of_pos he]; ring
      rw [z, hq']
      refine ⟨by gcongr, fun h => h2 (mul_right_cancel₀ he.ne' h)⟩
  refine ⟨hhalf.1, hhalf.2, ?_, by positivity, ?_, ?_⟩
  · refine hX2.trans_le ?_
    rw [show (2:ℚ) ^ 53 = 2 ^ (53:ℤ) by norm_num, ← two_zpow_add]
    exact zpow_le_zpow_right₀ (by norm_num) (by omega)
  · intro hk
    refine le_trans ?_ hX1
    rw [show (2:ℚ) ^ 52 = 2 ^ (52:ℤ) by norm_num, ← two_zpow_add]
    exact zpow_le_zpow_right₀ (by norm_num) (by omega)
  · unfold fRound
    rw [if_neg hm, hL]
    simp only [← hq, ← hn]

/-- The sign, value and lowest bit of an assembled finite pattern. -/
theorem assembled_fields (neg : Bool) (M : Nat) (hM : M < 2047 * 2 ^ 52) :
   let r := fZero neg ||| BitVec.ofNat 64 M
   r.msb = neg ∧ Finite64 r ∧ real64 r = signOf neg * gridUnits M * smallest ∧ r.getLsbD 0 = decide (M % 2 = 1) := by
  intro r
  have hr : r.toNat = (if neg then 2 ^ 63 else 0) + M := by
    simp only [r, fZero, BitVec.toNat_or, BitVec.toNat_ofNat]
    rw [Nat.mod_eq_of_lt (show M < 2 ^ 64 by omega)]
    cases neg
    · simp
    · have := Nat.two_pow_add_eq_or_of_lt (show M < 2 ^ 63 by omega) 1
      simp at this ⊢
      omega
  have hmsb : r.msb = neg := by
    rw [BitVec.msb_eq_decide, hr]
    cases neg
    · simp; omega
    · simp
  have he : expField r = M / 2 ^ 52 := by
    unfold expField; rw [hr]
    cases neg
    · simp; omega
    · simp; omega
  have hf : fracField r = M % 2 ^ 52 := by
    unfold fracField; rw [hr]
    cases neg
    · simp
    · simp; omega
  refine ⟨hmsb, by unfold Finite64; rw [he]; omega, ?_, ?_⟩
  · rw [real64_eq_grid, hmsb, he, hf]
    congr 3
    congr 1
    omega
  · rw [BitVec.getLsbD, hr, Nat.testBit_zero]
    (cases neg <;> simp) <;> omega

theorem signOf_abs (n : Bool) : |signOf n| = 1 := by cases n <;> simp [signOf]

theorem signOf_sq (n : Bool) : signOf n * signOf n = 1 := by cases n <;> simp [signOf]

/-- No value of the grid is nearer to `X` than the assembled multiple; another is as near only where that is even. -/
theorem multiple_no_nearer (k n : ℕ) (X : ℚ) (U : ℚ) (hU : U = 2 ^ k * smallest)
   (h1 : 2 * |(n:ℚ) * U - X| ≤ U) (h2 : 2 * |(n:ℚ) * U - X| = U → n % 2 = 0) (h5 : 0 < k → 2 ^ 52 * U ≤ X)
   (M : ℕ) (t : Bool) : |(n:ℚ) * U - X| ≤ |signOf t * gridUnits M * smallest - X| ∧
     (signOf t * gridUnits M * smallest ≠ n * U → |signOf t * gridUnits M * smallest - X| = |(n:ℚ) * U - X| →
       n % 2 = 0) := by
  have hUp : 0 < U := by rw [hU]; have := smallest_pos; positivity
  rcases gridUnits_dichotomy k M with ⟨c, hc⟩ | ⟨hk, hlt⟩
  · have hj : ∃ j : ℤ, signOf t * gridUnits M * smallest = j * U := by
      refine ⟨(if t then -1 else 1) * (c:ℤ), ?_⟩
      rw [hc, hU]; cases t <;> simp [signOf] <;> ring
    obtain ⟨j, hj⟩ := hj
    rw [hj]
    by_cases e : j = n
    · subst e; exact ⟨by simp, fun h => absurd (by simp) h⟩
    · obtain ⟨a, b⟩ := multiple_nearest n j U X hUp (by simpa using h1) e
      simp only [Int.cast_natCast] at a b
      exact ⟨a, fun _ hh => h2 (b hh)⟩
  · have hX := h5 hk
    have hv : signOf t * gridUnits M * smallest < 2 ^ 52 * U := by
      have hg : (gridUnits M : ℚ) * smallest < 2 ^ 52 * U := by
        rw [hU, ← mul_assoc]
        have : (gridUnits M : ℚ) < 2 ^ 52 * 2 ^ k := by rw [← pow_add]; exact_mod_cast hlt
        have := smallest_pos
        gcongr
      have : 0 ≤ (gridUnits M : ℚ) * smallest := by have := smallest_pos; positivity
      cases t <;> simp only [signOf] <;> simp <;> linarith
    have hs : |(2 ^ 52 : ℚ) * U - X| < |signOf t * gridUnits M * smallest - X| := by
      rw [abs_of_nonpos (by linarith), abs_of_neg (by linarith)]; linarith
    have hb : |(n:ℚ) * U - X| ≤ |(2 ^ 52 : ℚ) * U - X| := by
      by_cases e : (2 ^ 52 : ℤ) = n
      · have : ((2:ℚ) ^ 52) = n := by exact_mod_cast e
        rw [this]
      · have := (multiple_nearest n (2 ^ 52) U X hUp (by simpa using h1) e).1
        rw [show (((2 ^ 52 : ℤ)) : ℚ) = 2 ^ 52 by norm_num, Int.cast_natCast] at this
        exact this
    exact ⟨by linarith, fun _ hh => by linarith⟩

theorem unit_eq (k : ℕ) : (2:ℚ) ^ k * smallest = 2 ^ ((k:ℤ) - 1074) := by
  rw [smallest, ← zpow_natCast, ← two_zpow_add]; congr 1

theorem fZero_rounded (neg : Bool) : RoundedOnce neg 0 (fZero neg) := by
  obtain ⟨h1, h2, h3, h4⟩ := assembled_fields neg 0 (by norm_num)
  have e : fZero neg ||| BitVec.ofNat 64 0 = fZero neg := by simp
  rw [e] at h1 h2 h3 h4
  have h3 : real64 (fZero neg) = 0 := by rw [h3]; simp [gridUnits]
  refine ⟨h1, ?_⟩
  rw [if_neg (by norm_num)]
  refine ⟨h2, fun b _ => ?_⟩
  rw [h3]
  exact ⟨by simp, fun h e => absurd (by simpa using e) h⟩

/-- The assembled magnitude reaches the infinity exactly from the midpoint above the largest finite value on. -/
theorem overflow_iff (k n : ℕ) (X U : ℚ) (hU : U = 2 ^ k * smallest)
   (h1 : 2 * |(n:ℚ) * U - X| ≤ U) (h2 : 2 * |(n:ℚ) * U - X| = U → n % 2 = 0) (h3 : X < 2 ^ 53 * U)
   (h5 : 0 < k → 2 ^ 52 * U ≤ X) :
   n ≤ 2 ^ 53 ∧ (k = 0 ∨ 2 ^ 52 ≤ n) ∧ (2047 * 2 ^ 52 ≤ k * 2 ^ 52 + n ↔ ((2:ℚ) ^ 54 - 1) * 2 ^ 970 ≤ X) := by
  have hUp : 0 < U := by rw [hU]; have := smallest_pos; positivity
  have hb := abs_le.1 (show |(n:ℚ) * U - X| ≤ U / 2 by linarith)
  have hn1 : n ≤ 2 ^ 53 := by
    by_contra hc
    have : (2:ℚ) ^ 53 + 1 ≤ n := by exact_mod_cast (show 2 ^ 53 + 1 ≤ n by omega)
    nlinarith
  have hn2 : k = 0 ∨ 2 ^ 52 ≤ n := by
    rcases Nat.eq_zero_or_pos k with h | h
    · exact .inl h
    · right
      by_contra hc
      have : (n:ℚ) + 1 ≤ 2 ^ 52 := by exact_mod_cast (show n + 1 ≤ 2 ^ 52 by omega)
      have := h5 h
      nlinarith
  refine ⟨hn1, hn2, ?_⟩
  rw [unit_eq] at hU
  constructor
  · intro h
    have hk : 2045 ≤ k := by omega
    have hX := h5 (by omega)
    rcases Nat.lt_or_ge k 2046 with hk' | hk'
    · obtain rfl : k = 2045 := by omega
      obtain rfl : n = 2 ^ 53 := by omega
      rw [show ((2045:ℕ):ℤ) - 1074 = (971:ℕ) by norm_num, zpow_natCast] at hU
      have : U = 2 * 2 ^ 970 := by rw [hU, mul_comm]; exact pow_succ 2 970
      push_cast at hb
      rw [this] at hb
      generalize (2:ℚ) ^ 970 = T at *
      linarith [hb.1]
    · have : (2:ℚ) * 2 * 2 ^ 970 ≤ U := by
        rw [hU, show (2:ℚ) * 2 * 2 ^ 970 = 2 ^ (972:ℤ) by
          rw [show (972:ℤ) = 2 + (970:ℕ) by norm_num, two_zpow_add, zpow_natCast]; congr 1; norm_num]
        exact zpow_le_zpow_right₀ (by norm_num) (by omega)
      have hT : (0:ℚ) < 2 ^ 970 := by positivity
      generalize (2:ℚ) ^ 970 = T at *
      nlinarith
  · intro h
    have hk : 2045 ≤ k := by
      by_contra hc
      have : U ≤ 2 ^ 970 := by
        rw [hU, show (2:ℚ) ^ 970 = 2 ^ (970:ℤ) from (zpow_natCast 2 970).symm]
        exact zpow_le_zpow_right₀ (by norm_num) (by omega)
      have hT : (0:ℚ) < 2 ^ 970 := by positivity
      generalize (2:ℚ) ^ 970 = T at *
      nlinarith
    rcases Nat.lt_or_ge k 2046 with hk' | hk'
    · obtain rfl : k = 2045 := by omega
      rw [show ((2045:ℕ):ℤ) - 1074 = (971:ℕ) by norm_num, zpow_natCast] at hU
      have : U = 2 * 2 ^ 970 := by rw [hU, mul_comm]; exact pow_succ 2 970
      have hT : (0:ℚ) < 2 ^ 970 := by positivity
      generalize (2:ℚ) ^ 970 = T at *
      by_contra hc
      have hn3 : n ≤ 2 ^ 53 - 1 := by omega
      rcases Nat.lt_or_ge n (2 ^ 53-1) with h' | h'
      · have : (n:ℚ) + 2 ≤ 2 ^ 53 := by exact_mod_cast (show n + 2 ≤ 2 ^ 53 by omega)
        have h9 := mul_le_mul_of_nonneg_right this hUp.le
        have := hb.1
        have h8 : ((2:ℚ) ^ 54 - 1) * T = 2 ^ 53 * U - U / 2 := by rw [‹U = 2 * T›]; ring
        rw [h8] at h
        rw [add_mul] at h9
        linarith only [h, h9, this, hUp]
      · have hz : (n:ℚ) = 2 ^ 53 - 1 := by
          have : n + 1 = 2 ^ 53 := by omega
          have : (n:ℚ) + 1 = 2 ^ 53 := by exact_mod_cast this
          linarith
        have : 2 * |(n:ℚ) * U - X| = U := by
          apply le_antisymm h1
          have := neg_abs_le ((n:ℚ) * U - X)
          rw [hz] at *
          linarith
        have := h2 this
        omega
    · have := hn2.resolve_left (by omega)
      omega

/-- `fRound` rounds once to nearest, ties to even (R14). -/
theorem fRound_rounded (neg : Bool) (m : Nat) (e : Int) :
    RoundedOnce neg (signOf neg * (m : ℚ) * 2 ^ e) (fRound neg m e) := by
  by_cases hm : m = 0
  · subst hm
    have : fRound neg 0 e = fZero neg := by simp [fRound]
    rw [this]; simpa using fZero_rounded neg
  obtain ⟨k, n, h1, h2, h3, h4, h5, h6⟩ := fRound_spec neg m e hm
  generalize hU : (2:ℚ) ^ k * smallest = U at *
  rw [mul_assoc]
  generalize (m:ℚ) * 2 ^ e = X at *
  obtain ⟨hn, hk, ho⟩ := overflow_iff k n X U hU.symm h1 h2 h3 h5
  rw [h6]
  have hX : |signOf neg * X| = X := by rw [abs_mul, signOf_abs, one_mul, abs_of_pos h4]
  by_cases hc : 2047 * 2 ^ 52 ≤ k * 2 ^ 52 + n
  · rw [if_pos hc]
    refine ⟨by cases neg <;> rfl, ?_⟩
    rw [hX, if_pos (ho.1 hc)]
    cases neg <;> decide
  · rw [if_neg hc]
    obtain ⟨a1, a2, a3, a4⟩ := assembled_fields neg (k*2 ^ 52+n) (by omega)
    refine ⟨a1, ?_⟩
    rw [hX, if_neg (fun h => hc (ho.2 h))]
    refine ⟨a2, fun b _ => ?_⟩
    have hr : real64 (fZero neg ||| BitVec.ofNat 64 (k*2 ^ 52+n)) = signOf neg * (n * U) := by
      rw [a3, gridUnits_assembled k n hn hk, ← hU]; push_cast; ring
    have ns (v : ℚ) : |v - signOf neg * X| = |signOf neg * v - X| := by
      have : v - signOf neg * X = signOf neg * (signOf neg * v - X) := by rw [mul_sub, ← mul_assoc, signOf_sq, one_mul]
      rw [this, abs_mul, signOf_abs, one_mul]
    have hs : ∃ t, signOf neg * real64 b = signOf t * gridUnits (expField b * 2 ^ 52 + fracField b) * smallest := by
      refine ⟨neg != b.msb, ?_⟩
      rw [real64_eq_grid]; cases neg <;> cases b.msb <;> simp [signOf]
    obtain ⟨t, ht⟩ := hs
    have hnn : signOf neg * (signOf neg * (n * U)) = n * U := by rw [← mul_assoc, signOf_sq, one_mul]
    obtain ⟨p1, p2⟩ := multiple_no_nearer k n X U hU.symm h1 h2 h5 (expField b * 2 ^ 52 + fracField b) t
    rw [ns, ns, hr, hnn, ht]
    refine ⟨p1, fun hne heq => ?_⟩
    have hs0 : signOf neg ≠ 0 := by cases neg <;> simp [signOf]
    have := p2 (fun h => hne (mul_left_cancel₀ hs0 ((ht.trans h).trans hnn.symm))) heq
    rw [a4]; simp; omega

end Sys2Proof.Machine
end

