-- ==== Sys2Proof/Laws/PerInstr.lean ====
section
/-!
SUPPORT. The family `WordFields`: what the opcode map says of each command's word (R131, R134): its `OPC`, and which of
its fields carry operands. One lemma per constructor.
-/
namespace Sys2Proof.Laws.WordFields

/-- The opcode of a command (R134). -/
def opcode : Instr → BitVec 8
  | .nop => 0x00
  | .accSet _ => 0x10
  | .accMac => 0x11
  | .accOut => 0x12
  | .sati => 0x13
  | .satf => 0x14
  | .mulq15 => 0x15
  | .dlWrite _ => 0x20
  | .dlLatest _ => 0x21
  | .dlReadi _ _ => 0x22
  | .dlReadr _ => 0x23
  | .dlCursor _ => 0x24
  | .dlRaw _ _ => 0x25
  | .dlClear _ => 0x26
  | .firStep _ => 0x30
  | .combStep _ => 0x40
  | .apStep _ => 0x41
  | .revStep => 0x48
  | .chStep => 0x50
  | .oscStep => 0x58
  | .oscSetfreq => 0x59
  | .perfStart _ => 0x60
  | .perfStop _ => 0x61
  | .perfClear _ => 0x62
  | .perfCalibrate => 0x63
  | .diagReset => 0x64
  | .process => 0x70

/-- The immediate of a command; 0 where `IMM` is unused (R131). -/
def immediate : Instr → Half
  | .accSet imm => imm
  | .dlReadi _ imm => imm
  | .dlRaw _ imm => imm
  | _ => 0#16

/-- The unit of a command; 0 where `UNIT` is unused (R131). -/
def unit (i : Instr) : BitVec 4 := (i.unitRange.map Prod.fst).getD 0#4

/-- A command's word carries its opcode, its unit, `RSV = 0` and its immediate (R130, R131, R134). -/
def Statement (i : Instr) : Prop :=
  opcOf (encode i) = opcode i ∧ unitOf (encode i) = unit i ∧ rsvOf (encode i) = 0#4 ∧ immOf (encode i) = immediate i

theorem nop : Statement .nop := by simp [Statement, encode, opcode, unit, immediate, Instr.unitRange]
theorem accSet (imm : Half) : Statement (.accSet imm) := by simp [Statement, encode, opcode, unit, immediate, Instr.unitRange]
theorem accMac : Statement .accMac := by simp [Statement, encode, opcode, unit, immediate, Instr.unitRange]
theorem accOut : Statement .accOut := by simp [Statement, encode, opcode, unit, immediate, Instr.unitRange]
theorem sati : Statement .sati := by simp [Statement, encode, opcode, unit, immediate, Instr.unitRange]
theorem satf : Statement .satf := by simp [Statement, encode, opcode, unit, immediate, Instr.unitRange]
theorem mulq15 : Statement .mulq15 := by simp [Statement, encode, opcode, unit, immediate, Instr.unitRange]
theorem dlWrite (u : BitVec 4) : Statement (.dlWrite u) := by simp [Statement, encode, opcode, unit, immediate, Instr.unitRange]
theorem dlLatest (u : BitVec 4) : Statement (.dlLatest u) := by simp [Statement, encode, opcode, unit, immediate, Instr.unitRange]
theorem dlReadi (u : BitVec 4) (imm : Half) : Statement (.dlReadi u imm) := by
  simp [Statement, encode, opcode, unit, immediate, Instr.unitRange]
theorem dlReadr (u : BitVec 4) : Statement (.dlReadr u) := by simp [Statement, encode, opcode, unit, immediate, Instr.unitRange]
theorem dlCursor (u : BitVec 4) : Statement (.dlCursor u) := by simp [Statement, encode, opcode, unit, immediate, Instr.unitRange]
theorem dlRaw (u : BitVec 4) (imm : Half) : Statement (.dlRaw u imm) := by
  simp [Statement, encode, opcode, unit, immediate, Instr.unitRange]
theorem dlClear (u : BitVec 4) : Statement (.dlClear u) := by simp [Statement, encode, opcode, unit, immediate, Instr.unitRange]
theorem firStep (n : BitVec 4) : Statement (.firStep n) := by simp [Statement, encode, opcode, unit, immediate, Instr.unitRange]
theorem combStep (k : BitVec 4) : Statement (.combStep k) := by simp [Statement, encode, opcode, unit, immediate, Instr.unitRange]
theorem apStep (k : BitVec 4) : Statement (.apStep k) := by simp [Statement, encode, opcode, unit, immediate, Instr.unitRange]
theorem revStep : Statement .revStep := by simp [Statement, encode, opcode, unit, immediate, Instr.unitRange]
theorem chStep : Statement .chStep := by simp [Statement, encode, opcode, unit, immediate, Instr.unitRange]
theorem oscStep : Statement .oscStep := by simp [Statement, encode, opcode, unit, immediate, Instr.unitRange]
theorem oscSetfreq : Statement .oscSetfreq := by simp [Statement, encode, opcode, unit, immediate, Instr.unitRange]
theorem perfStart (t : BitVec 4) : Statement (.perfStart t) := by simp [Statement, encode, opcode, unit, immediate, Instr.unitRange]
theorem perfStop (t : BitVec 4) : Statement (.perfStop t) := by simp [Statement, encode, opcode, unit, immediate, Instr.unitRange]
theorem perfClear (t : BitVec 4) : Statement (.perfClear t) := by simp [Statement, encode, opcode, unit, immediate, Instr.unitRange]
theorem perfCalibrate : Statement .perfCalibrate := by simp [Statement, encode, opcode, unit, immediate, Instr.unitRange]
theorem diagReset : Statement .diagReset := by simp [Statement, encode, opcode, unit, immediate, Instr.unitRange]
theorem process : Statement .process := by simp [Statement, encode, opcode, unit, immediate, Instr.unitRange]

end Sys2Proof.Laws.WordFields
end

