-- ==== Sys2Proof/Laws/Run.lean ====
section
/-!
SUPPORT. Runs and their end (R840): a step takes exactly the oldest event, what follows an end starts nothing, and every run
ends: with its last access, or when what is then pending has been completed (R830) or abandoned.
-/
namespace Sys2Proof.Machine

/-! ## What the steps leave in the inbox -/

theorem onUnit_inbox (n : Nat) (u : BitVec 4) (i : Instr) (s t : State) (f : Fin n → State)
    (h : onUnit n u i s f = .next t) (hf : ∀ k, (f k).inbox = s.inbox) : t.inbox = s.inbox := by
  rcases onUnit_cases _ _ _ _ _ _ h with ⟨k, rfl⟩ | ⟨_, rfl⟩
  · exact hf k
  · rfl

/-- No command touches the accesses still to be served. -/
theorem exec_inbox (i : Instr) (s t : State) (h : exec i s = .next t) : t.inbox = s.inbox := by
  cases i <;> simp only [exec] at h
  case dlRaw u imm => exact onUnit_inbox _ _ _ _ _ _ h fun k => by split <;> rfl
  case perfStop k => exact onUnit_inbox _ _ _ _ _ _ h fun k => by rw [timerStop_eq]; split <;> rfl
  case revStep =>
    simp only [execRevStep] at h
    cases h
    rw [reverbRun_eq]
    rfl
  case process =>
    simp only [execProcess] at h
    split at h <;> cases h <;> rfl
  all_goals first
    | (cases h; rfl)
    | exact onUnit_inbox _ _ _ _ _ _ h fun _ => rfl

theorem filterPath_inbox (n : Nat) (s : State) : (filterPath n s).inbox = s.inbox := by rw [filterPath_eq]

theorem timerStop_inbox (k : Fin 2) (s : State) : (timerStop k s).inbox = s.inbox := by
  rw [timerStop_eq]; split <;> rfl

theorem leaveWarmup_inbox (s : State) : (leaveWarmup s).inbox = s.inbox := by unfold leaveWarmup; split <;> rfl

theorem warmupBuffer_inbox (n : Nat) (s : State) : (warmupBuffer n s).inbox = s.inbox := filterPath_inbox n s

theorem samplingABuffer_inbox (n : Nat) (s : State) : (samplingABuffer n s).inbox = s.inbox := by
  simp [samplingABuffer, timerStop_inbox, filterPath_inbox, timerStart]

theorem samplingBBuffer_inbox (n : Nat) (s : State) : (samplingBBuffer n s).inbox = s.inbox := by
  simp [samplingBBuffer, timerStop_inbox, filterPath_inbox]

theorem filterBuffer_inbox (n : Nat) (s : State) : (filterBuffer n s).inbox = s.inbox := by
  unfold filterBuffer
  rw [← leaveWarmup_inbox s]
  generalize leaveWarmup s = t
  simp only
  cases t.diagState
  · exact warmupBuffer_inbox n t
  · exact samplingABuffer_inbox n t
  · exact samplingBBuffer_inbox n t
  · exact filterPath_inbox n t

/-- Nor does a buffer. -/
theorem processBuffer_inbox (m : Mode) (n : Nat) (s : State) : (processBuffer m n s).inbox = s.inbox := by
  cases m
  · simp only [processBuffer, stoppedPath, State.setOutSilent]; rw [runFrames_plain_eq _ fun _ _ => rfl]
  · simp only [processBuffer, passPath, State.setOutSilent]; rw [runFrames_plain_eq _ fun _ _ => rfl]
  · exact filterBuffer_inbox n s
  · simp only [processBuffer, sinePath, State.setOutSilent]; rw [runFrames_sine_eq]
  · simp only [processBuffer, testPath, State.setOutSilent]; rw [runFrames_test_eq]

/-- After the sequencer's turn nothing is pending, and the inbox is as before. -/
theorem completeProcess_spec (s : State) :
    (completeProcess s).busy = false ∧ (completeProcess s).inbox = s.inbox := by
  unfold completeProcess
  split
  · exact ⟨by simp [State.busy, *], rfl⟩
  · exact ⟨rfl, processBuffer_inbox _ _ _⟩

theorem readReg_inbox (s : State) (r : Reg) : (readReg s r).1.inbox = s.inbox := by
  unfold readReg; split_ifs <;> rfl

theorem writeReg_inbox (s : State) (v : Word) (r : Reg) : (writeReg s v r).inbox = s.inbox := by
  cases r
  case ctrl => simp only [writeReg]; split <;> rfl
  case wide w hi => cases w <;> rfl
  all_goals rfl

theorem serveEvent_inbox (e : Event) (s t : State) (h : serveEvent e s = .next t) : t.inbox = s.inbox := by
  cases e <;> simp only [serveEvent] at h
  case read a addr width =>
    split at h <;> cases h
    simp only [busRead, State.reply]
    split
    · rfl
    · split
      · rfl
      · exact readReg_inbox _ _
  case write a addr width v =>
    split at h <;> cases h
    simp only [busWrite]
    split
    · rfl
    · split
      · rfl
      · split
        · rfl
        · exact writeReg_inbox _ _ _
  case sequencer => cases h; exact (completeProcess_spec s).2
  case powerOn => cases h; rfl

/-- A step that goes on has taken the oldest event and no other. -/
theorem step_takes_oldest (s t : State) (e : Event) (rest : List Event) (hi : s.inbox = e :: rest)
    (h : step s = .next t) : t.inbox = rest := by
  have ht : (takeEvent e rest s).inbox = rest := by cases e <;> rfl
  simp only [step, hi] at h
  split at h
  · unfold runCommand at h
    split at h
    · exact (exec_inbox _ _ _ h).trans ht
    · cases h; exact ht
  · exact (serveEvent_inbox _ _ _ h).trans ht

/-! ## Runs -/

@[simp] theorem runFor_zero (s : State) : runFor 0 s = .next s := rfl

theorem runFor_succ_of_step (n : Nat) (s t : State) (h : step s = .next t) : runFor (n + 1) s = runFor n t := by
  simp [runFor, h]

/-- What a run of `n + 1` steps that goes on did first. -/
theorem runFor_succ_inv (n : Nat) (s t : State) (h : runFor (n + 1) s = .next t) :
    ∃ u, step s = .next u ∧ runFor n u = .next t := by
  simp only [runFor] at h
  split at h
  · exact ⟨_, ‹_›, h⟩
  · cases h
  · cases h

theorem runFor_add (m n : Nat) (s t : State) (h : runFor m s = .next t) : runFor (m + n) s = runFor n t := by
  induction m generalizing s with
  | zero => cases h; simp
  | succ m ih =>
    obtain ⟨u, hu, hr⟩ := runFor_succ_inv m s t h
    rw [Nat.succ_add_eq_add_succ, Nat.add_succ, runFor_succ_of_step _ _ _ hu]
    exact ih u hr

/-- The run is that of the host's interface. -/
theorem core_run_eq (n : Nat) (s : State) :
    Host.Core.run ⟨State, Fault, Refusal, step, State.reset⟩ n s = runFor n s := by
  induction n generalizing s with
  | zero => rfl
  | succ n ih =>
    simp only [Host.Core.run, runFor]
    split <;> simp_all

/-- With no event left an idle block keeps its state (R745). -/
theorem step_idle (s : State) (hi : s.inbox = []) (hb : s.busy = false) : step s = .next s := by
  have hp : s.pending = none := by simpa [State.busy] using hb
  simp [step, hi, completeProcess, hp]

/-- What is still to come after the end of a run, an idle sequencer's turn or a reset, starts nothing. -/
theorem step_ended (s t : State) (h : Ended s) (hs : step s = .next t) : Ended t := by
  obtain ⟨ha, hb⟩ := h
  rcases hi : s.inbox with _ | ⟨e, rest⟩
  · rw [step_idle s hi hb] at hs
    cases hs
    exact ⟨ha, hb⟩
  · have hr : t.inbox = rest := step_takes_oldest s t e rest hi hs
    rw [hi, List.all_cons, Bool.and_eq_true] at ha
    refine ⟨hr ▸ ha.2, ?_⟩
    cases e
    case read => exact absurd ha.1 (by simp [isAccess])
    case write => exact absurd ha.1 (by simp [isAccess])
    case sequencer =>
      simp only [step, hi, commandOf, serveEvent] at hs
      cases hs
      exact (completeProcess_spec _).1
    case powerOn =>
      simp only [step, hi, commandOf, serveEvent] at hs
      cases hs
      rfl

theorem runFor_ended (n : Nat) (s t : State) (h : Ended s) (hs : runFor n s = .next t) : Ended t := by
  induction n generalizing s with
  | zero => cases hs; exact h
  | succ n ih =>
    obtain ⟨u, hu, hr⟩ := runFor_succ_inv n s t hs
    exact ih u (step_ended s u h hu) hr

/-- Before as many steps as there are events, events are left. -/
theorem runFor_inbox (n : Nat) (s t : State) (h : runFor n s = .next t) : t.inbox = s.inbox.drop n := by
  induction n generalizing s with
  | zero => cases h; simp
  | succ n ih =>
    obtain ⟨u, hu, hr⟩ := runFor_succ_inv n s t h
    rw [ih u hr]
    rcases hs : s.inbox with _ | ⟨e, rest⟩
    · simp only [step, hs] at hu
      cases hu
      rw [(completeProcess_spec s).2, hs]
      simp
    · rw [step_takes_oldest s u e rest hs hu]
      simp

/-- A run has not ended while an access is left. -/
theorem not_ended_before (s u : State) (k : Nat) (e : Event) (he : e ∈ s.inbox.drop k) (ha : isAccess e = true)
    (hu : runFor k s = .next u) : ¬ Ended u := by
  intro h
  have := List.all_eq_true.1 h.1 e (by rw [runFor_inbox k s u hu]; exact he)
  simp [ha] at this

/-- A run ends with its last access, before whatever the sequencer and the platform do after it, if nothing is pending
then. -/
theorem ends_at_last_access (s t : State) (before after : List Event) (e : Event)
    (hi : s.inbox = before ++ e :: after) (he : isAccess e = true) (ha : after.all (!isAccess ·) = true)
    (h : runFor (before.length + 1) s = .next t) (hb : t.busy = false) : EndsAt (before.length + 1) s t := by
  refine ⟨h, ⟨?_, hb⟩, fun k hk u hu => not_ended_before s u k e ?_ he hu⟩
  · rw [runFor_inbox _ s t h, hi]
    simpa using ha
  · rw [hi, List.drop_append_of_le_length (by omega)]
    simp

/-- A run that has served every event with a `PROCESS` left pending ends one step later, when the sequencer completes it
(R830). -/
theorem ends_after_leftPending (s t : State) (h : LeftPending s t) :
    EndsAt (s.inbox.length + 1) s (completeProcess t) := by
  obtain ⟨h, hb⟩ := h
  have hi : t.inbox = [] := by rw [runFor_inbox _ _ _ h]; simp
  refine ⟨?_, ⟨?_, (completeProcess_spec t).1⟩, fun k hk u hu he => ?_⟩
  · rw [runFor_add _ 1 s t h]
    simp [runFor, step, hi]
  · rw [(completeProcess_spec t).2, hi]
    rfl
  · have hr : runFor (s.inbox.length - k) u = .next t := by
      rw [← runFor_add k _ s u hu, Nat.add_sub_cancel' (by omega), h]
    exact Bool.false_ne_true ((runFor_ended _ u t he hr).2.symm.trans hb)

/-- A state of a run that is ended has the run's end at it or before it. -/
theorem ends_by (n : Nat) (s t : State) (h : runFor n s = .next t) (he : Ended t) : ∃ m ≤ n, ∃ u, EndsAt m s u := by
  classical
  have hex : ∃ m u, runFor m s = .next u ∧ Ended u := ⟨n, t, h, he⟩
  obtain ⟨u, hu, hue⟩ := Nat.find_spec hex
  exact ⟨Nat.find hex, Nat.find_min' hex ⟨t, h, he⟩, u, hu, hue,
    fun k hk v hv hve => Nat.find_min hex hk ⟨v, hv, hve⟩⟩

/-- Every run whose events are all served ends, at the latest one step after the last of them. -/
theorem run_ends (s t : State) (h : runFor s.inbox.length s = .next t) :
    ∃ n ≤ s.inbox.length + 1, ∃ u, EndsAt n s u := by
  cases hb : t.busy
  · have hi : t.inbox = [] := by rw [runFor_inbox _ _ _ h]; simp
    obtain ⟨m, hm, u, hu⟩ := ends_by _ s t h ⟨by simp [hi], hb⟩
    exact ⟨m, by omega, u, hu⟩
  · exact ⟨_, le_refl _, _, ends_after_leftPending s t ⟨h, hb⟩⟩

/-- No run hangs (R830: weak fairness). -/
theorem not_hangs (s : State) : ¬ Hangs s := by
  intro h
  obtain ⟨t, ht, _⟩ := h s.inbox.length
  obtain ⟨n, _, u, hu, he, _⟩ := run_ends s t ht
  obtain ⟨v, hv, hn⟩ := h n
  rw [hu] at hv
  cases hv
  exact hn he

/-- A run has one end. -/
theorem endsAt_unique (s t u : State) (m n : Nat) (hm : EndsAt m s t) (hn : EndsAt n s u) : m = n ∧ t = u := by
  have hmn : m = n := by
    rcases Nat.lt_trichotomy m n with h | h | h
    · exact absurd hm.2.1 (hn.2.2 m h t hm.1)
    · exact h
    · exact absurd hn.2.1 (hm.2.2 n h u hn.1)
  subst hmn
  exact ⟨rfl, Host.Outcome.next.inj (hm.1.symm.trans hn.1)⟩

end Sys2Proof.Machine
end

