-- ==== Sys2Proof/Laws/Views.lean ====
section
/-!
SUPPORT. What the registers read, field by field (R50 to R83): the views of Flags.lean and Bus.lean against the fields of
the rules.
-/
namespace Sys2Proof.Machine

/-- The fields of an assembled `STATUS` word (R58), as numbers. -/
theorem statusBits (a b c d x m : Nat) (ha : a < 2) (hb : b < 2) (hc : c < 2) (hd : d < 2) (hx : x < 4) (hm : m < 8) :
    let w := BitVec.ofNat 32 (a + 2 * b + 4 * x + 16 * c + 32 * d + 256 * m)
    w.getLsbD 0 = decide (a = 1) ∧ w.getLsbD 1 = decide (b = 1) ∧ w.extractLsb' 2 2 = BitVec.ofNat 2 x ∧
      w.getLsbD 4 = decide (c = 1) ∧ w.getLsbD 5 = decide (d = 1) ∧ w.extractLsb' 6 2 = 0#2 ∧
      w.extractLsb' 8 3 = BitVec.ofNat 3 m ∧ w.extractLsb' 11 21 = 0#21 := by
  refine ⟨?_, ?_, BitVec.eq_of_toNat_eq ?_, ?_, ?_, BitVec.eq_of_toNat_eq ?_, BitVec.eq_of_toNat_eq ?_,
    BitVec.eq_of_toNat_eq ?_⟩ <;>
    simp only [BitVec.extractLsb'_toNat, BitVec.toNat_ofNat, Nat.shiftRight_eq_div_pow, BitVec.getLsbD,
      Nat.testBit_eq_decide_div_mod_eq, decide_eq_decide] <;> omega

@[simp] theorem bit_lt (b : Bool) : bit b < 2 := by cases b <;> decide
@[simp] theorem bit_eq_one (b : Bool) : bit b = 1 ↔ b = true := by cases b <;> decide

/-- `STATUS` (R58). -/
theorem statusWord_fields (s : State) : StatusFields s s.statusWord := by
  obtain ⟨h0, h1, h2, h4, h5, h6, h8, h11⟩ :=
    statusBits (bit s.busy) (bit s.errFlag) (bit (s.timerFull 0)) (bit (s.timerFull 1)) (diagNumber s.diagState)
      (modeNumber s.modeLatched) (bit_lt _) (bit_lt _) (bit_lt _) (bit_lt _) (by cases s.diagState <;> decide)
      (by cases s.modeLatched <;> decide)
  refine ⟨?_, ?_, ?_, ?_, ?_, h6, ?_, h11⟩
  · rw [State.statusWord, h0]; cases h : s.pending <;> simp [State.busy, h]
  · rw [State.statusWord, h1]; simp [State.errFlag]
  · rw [State.statusWord, h2]; cases s.diagState <;> rfl
  · rw [State.statusWord, h4]; simp [State.timerFull]
  · rw [State.statusWord, h5]; simp [State.timerFull]
  · rw [State.statusWord, h8]; cases s.modeLatched <;> rfl

/-- A register of two bits (R59, R60). -/
theorem twoBits_word (a b : Bool) : TwoBits (BitVec.ofNat 32 (bit a + 2 * bit b)) a b := by
  cases a <;> cases b <;> decide

/-- The fields of an assembled `PERF_Tn_STAT` word (R80), as numbers. -/
theorem timerStatBits (n r f : Nat) (hr : r < 2) (hf : f < 2) :
    let w := BitVec.ofNat 32 (n % 512 + 0x10000 * r + 0x20000 * f)
    w.extractLsb' 0 9 = BitVec.ofNat 9 n ∧ w.extractLsb' 9 7 = 0#7 ∧ w.getLsbD 16 = decide (r = 1) ∧
      w.getLsbD 17 = decide (f = 1) ∧ w.extractLsb' 18 14 = 0#14 := by
  refine ⟨BitVec.eq_of_toNat_eq ?_, BitVec.eq_of_toNat_eq ?_, ?_, ?_, BitVec.eq_of_toNat_eq ?_⟩ <;>
    simp only [BitVec.extractLsb'_toNat, BitVec.toNat_ofNat, Nat.shiftRight_eq_div_pow, BitVec.getLsbD,
      Nat.testBit_eq_decide_div_mod_eq, decide_eq_decide] <;> omega

/-- `PERF_Tn_STAT` (R80). -/
theorem timerStatWord_fields (s : State) (t : Fin 2) : TimerStatFields s t (s.timerStatWord t) := by
  obtain ⟨h1, h2, h3, h4, h5⟩ :=
    timerStatBits (s.timer t).count (bit (s.timer t).running) (bit (s.timerFull t)) (bit_lt _) (bit_lt _)
  refine ⟨h1, h2, ?_, ?_, h5⟩
  · rw [State.timerStatWord, h3]; simp
  · rw [State.timerStatWord, h4]; simp [State.timerFull]

/-- The halves of a 64-bit register (R53). -/
theorem halfOf_append (v : DWord) : halfOf v true ++ halfOf v false = v := by
  apply BitVec.eq_of_getLsbD_eq
  intro i hi
  simp only [halfOf, if_true, Bool.false_eq_true, if_false, BitVec.getLsbD_append, BitVec.getLsbD_extractLsb']
  by_cases h : i < 32
  · simp [h]
  · simp [h, show i - 32 < 32 by omega, show 32 + (i - 32) = i by omega]

/-- A 16-bit register reads with its upper half 0 (R85). -/
theorem setWidth_half (v : Half) : v.setWidth 32 = 0#16 ++ v := by
  apply BitVec.eq_of_getLsbD_eq
  intro i hi
  simp only [BitVec.getLsbD_append, BitVec.getLsbD_setWidth]
  by_cases h : i < 16
  · simp [h, hi]
  · simp [h, BitVec.getLsbD_of_ge v i (by omega)]

/-- Every register's value, field by field. -/
theorem regValue_views (s : State) : RegisterViews s (regValue s) where
  identity := ⟨rfl, rfl, rfl⟩
  status := statusWord_fields s
  intStatus := twoBits_word _ _
  intEn := twoBits_word _ _
  error := ⟨by simp only [regValue]; cases s.errCode <;> rfl, rfl⟩
  mode := by simp only [regValue]; cases s.mode <;> rfl
  frames := setWidth_half _
  flags := ⟨twoBits_word s.inSilent false, twoBits_word s.outSilent false⟩
  operands := ⟨rfl, rfl, rfl, rfl⟩
  floats := ⟨halfOf_append _, halfOf_append _⟩
  acc := halfOf_append _
  gains := ⟨fun k => setWidth_half _,
     fun k => setWidth_half _⟩
  filter := ⟨rfl, rfl⟩
  lineLengths := ⟨rfl, rfl, rfl, rfl, rfl, rfl, rfl, rfl, rfl⟩
  params := ⟨rfl, rfl, rfl, rfl, rfl, rfl⟩
  oscillator := ⟨halfOf_append _, halfOf_append _, halfOf_append _⟩
  chorus := ⟨halfOf_append _, halfOf_append _, halfOf_append _, halfOf_append _, halfOf_append _⟩
  counter := ⟨rfl, rfl⟩
  timers := ⟨fun t => timerStatWord_fields s t, fun t i => rfl⟩
  statistics := ⟨rfl, fun t => rfl⟩
  diagCount := setWidth_half _
  coefs := fun n i => by
    apply BitVec.eq_of_getLsbD_eq
    intro j hj
    have : (65535#32).getLsbD j = decide (j < 16) := by
      have : ∀ j < 32, (65535#32).getLsbD j = decide (j < 16) := by decide
      exact this j hj
    simp only [regValue, State.coefWord, State.ramWord, coefOff, BitVec.getLsbD_and, BitVec.getLsbD_append, this]
    by_cases h1 : j < 8
    · simp [h1, show j < 16 by omega]
    · by_cases h2 : j < 16
      · simp [h1, h2, show j - 8 < 8 by omega]
      · simp [h2]
  buffers := fun f k hk => by
    simp only [regValue, State.ramWord, inBufOff, outBufOff]
    constructor <;> apply BitVec.eq_of_getLsbD_eq <;> intro i hi <;>
      simp only [BitVec.getLsbD_append, BitVec.getLsbD_extractLsb', hi, decide_true, Bool.true_and] <;>
      (rcases k with _|_|_|_|k <;> [skip; skip; skip; skip; omega]) <;>
      simp only [Nat.add_zero, Nat.zero_add, Nat.mul_zero, Nat.reduceMul, Nat.reduceAdd] <;>
      (repeat' split) <;> first | omega | (congr 1; omega) | rfl

end Sys2Proof.Machine
end

