-- ==== Sys2Proof/Tests/Slice0.lean ====
section
/-!
SUPPORT. Tests of the model. Expected values come from spec/: the encodings of R130 to R136, the examples of the command
rules and the vectors of 95_test_vectors.md. The `test_witness_` part shows, for every statement with hypotheses, concrete
states and operands that meet them, at the boundaries of its clauses.
-/
namespace Sys2Proof.Tests
open Sys2Proof Sys2Proof.Machine

set_option Elab.async false

/-! ## Helpers -/

/-- The reference build after reset, with events to serve; its window is at 0, so an address is an offset. -/
def reset (es : List Event) : State := { State.reset with inbox := es }
/-- The audio actor's 4-byte write. -/
def wr (off : Nat) (v : Word) : Event := .write .audio off 4 v
/-- The control actor's 4-byte read. -/
def rd (off : Nat) : Event := .read .control off 4
/-- A write of a command word. -/
def cmd (w : Word) : Event := wr 0x30 w
/-- A state in which a buffer of `n` frames is pending in a mode. -/
def busy (m : Mode) (n : Nat) (es : List Event) : State :=
  { reset es with mode := m, modeLatched := m, frames := BitVec.ofNat 16 n, pending := some ⟨m, n⟩ }
/-- A field of the state after one outcome. -/
def got {α : Type} (f : State → α) : Host.Outcome State Fault Refusal → Option α
  | .next t => some (f t)
  | _ => none
/-- A line of capacity `C` and mirror `M` after writes. -/
def written (C M : Nat) (xs : List Int) : DelayLine := xs.foldl (fun l x => lineWrite C M x l) (DelayLine.cleared C M)
/-- The slots of a line as Samples. -/
def slots (l : DelayLine) : List Int := l.buf.map sext16
/-- The reset state of a build with another FIR A length, its taps written. -/
def withTaps (taps : List Int) : State :=
  { State.resetOf { Config.reference with firLenA := taps.length } with
    mem := (taps.mapIdx fun i c => (coefOff 0 i, bits16 c)).foldl
      (fun m p => Memory.setWord m p.1 (p.2.setWidth 32)) [] }
/-- The state whose line `u` holds the given writes. -/
def withLine (u : Fin 9) (xs : List Int) (s : State) : State := s.setLine u (written (s.cap u) s.params.mirror xs)

/-! ## Well-formedness: an ill-formed term for each unit range, refused (R136) -/

theorem test_wf_dl : ([Instr.dlWrite 9, .dlLatest 9, .dlReadi 9 0, .dlReadr 9, .dlCursor 9, .dlRaw 9 0, .dlClear 9].map
    Instr.wellFormed) = List.replicate 7 false := by decide
theorem test_wf_filters : ([Instr.firStep 2, .combStep 4, .apStep 2].map Instr.wellFormed) = List.replicate 3 false := by
  decide
theorem test_wf_perf : ([Instr.perfStart 2, .perfStop 2, .perfClear 2].map Instr.wellFormed) = List.replicate 3 false := by
  decide
theorem test_wf_largest_units : ([Instr.dlWrite 8, .firStep 1, .combStep 3, .apStep 1, .perfStart 1].map
    Instr.wellFormed) = List.replicate 5 true := by decide

/-! ## Decoding: the fields of R130 written out from the rows of R134 -/

theorem test_decode_control : decode (0x00#8 ++ 0b0000#4 ++ 0b0000#4 ++ 0x0000#16) = .ok .nop := by decide
theorem test_decode_accumulator :
    decode (0x10#8 ++ 0b0000#4 ++ 0b0000#4 ++ 0x8000#16) = .ok (.accSet 0x8000) ∧ decode 0x11000000#32 = .ok .accMac ∧
    decode 0x12000000#32 = .ok .accOut ∧ decode 0x13000000#32 = .ok .sati ∧ decode 0x14000000#32 = .ok .satf ∧
    decode 0x15000000#32 = .ok .mulq15 := by decide
theorem test_decode_delay_line :
    decode (0x20#8 ++ 0b1000#4 ++ 0b0000#4 ++ 0x0000#16) = .ok (.dlWrite 8) ∧ decode 0x21300000#32 = .ok (.dlLatest 3) ∧
    decode (0x22#8 ++ 0b0010#4 ++ 0b0000#4 ++ 0xFFFF#16) = .ok (.dlReadi 2 0xFFFF) ∧
    decode 0x23200000#32 = .ok (.dlReadr 2) ∧ decode 0x24200000#32 = .ok (.dlCursor 2) ∧
    decode (0x25#8 ++ 0b0010#4 ++ 0b0000#4 ++ 0x000C#16) = .ok (.dlRaw 2 12) ∧
    decode 0x26200000#32 = .ok (.dlClear 2) := by decide
theorem test_decode_filters :
    decode (0x30#8 ++ 0b0001#4 ++ 0b0000#4 ++ 0x0000#16) = .ok (.firStep 1) ∧
    decode (0x40#8 ++ 0b0011#4 ++ 0b0000#4 ++ 0x0000#16) = .ok (.combStep 3) ∧ decode 0x41100000#32 = .ok (.apStep 1) ∧
    decode (0x48#8 ++ 0b0000#4 ++ 0b0000#4 ++ 0x0000#16) = .ok .revStep := by decide
theorem test_decode_chorus_oscillator :
    decode (0x50#8 ++ 0b0000#4 ++ 0b0000#4 ++ 0x0000#16) = .ok .chStep ∧
    decode (0x58#8 ++ 0b0000#4 ++ 0b0000#4 ++ 0x0000#16) = .ok .oscStep ∧ decode 0x59000000#32 = .ok .oscSetfreq := by
  decide
theorem test_decode_perf_process :
    decode (0x60#8 ++ 0b0001#4 ++ 0b0000#4 ++ 0x0000#16) = .ok (.perfStart 1) ∧
    decode 0x61100000#32 = .ok (.perfStop 1) ∧ decode 0x62100000#32 = .ok (.perfClear 1) ∧
    decode 0x63000000#32 = .ok .perfCalibrate ∧ decode 0x64000000#32 = .ok .diagReset ∧
    decode (0x70#8 ++ 0b0000#4 ++ 0b0000#4 ++ 0x0000#16) = .ok .process := by decide
/-- Rejections, in the order of R140 (95_test_vectors.md, V-ERR). -/
theorem test_decode_rejects :
    decode 0x01000000#32 = .error .illegalOpcode ∧ decode 0xFF100000#32 = .error .illegalOpcode ∧
    decode 0x71000000#32 = .error .illegalOpcode ∧ decode 0x10010000#32 = .error .reservedField ∧
    decode 0x00100000#32 = .error .reservedField ∧ decode 0x00000001#32 = .error .reservedField ∧
    decode 0x20000001#32 = .error .reservedField ∧ decode 0x20910000#32 = .error .reservedField ∧
    decode 0x20900000#32 = .error .illegalUnit ∧ decode 0x30200000#32 = .error .illegalUnit ∧
    decode 0x40400000#32 = .error .illegalUnit ∧ decode 0x60200000#32 = .error .illegalUnit := by decide

/-! ## Accumulator (R210 to R215) -/

theorem test_acc_set_negative :
    got (fun t => (t.acc, regValue t (.acc false), regValue t (.acc true))) (exec (.accSet 0x8000) State.reset) =
      some (-32768, 0xFFFF8000, 0xFFFFFFFF) := by decide +kernel
theorem test_acc_mac : got State.acc (exec .accMac { State.reset with acc := 16384, opa := 0x4000, opb := 0x4000 }) =
    some 268451840 := by decide +kernel
/-- The 512th step of `x = y = -32768` saturates (R211). -/
theorem test_acc_mac_saturates :
    got State.acc (exec .accMac { State.reset with acc := 548682072064, opa := 0x8000, opb := 0x8000 }) =
      some 549755813887 := by decide +kernel
theorem test_acc_out : got State.res (exec .accOut { State.reset with acc := 268451840 }) = some 0x00002000 := by
  decide +kernel
theorem test_acc_out_floors : got State.res (exec .accOut { State.reset with acc := -1 }) = some 0xFFFFFFFF := by
  decide +kernel
theorem test_sati : got State.res (exec .sati { State.reset with opa := 0x80000000 }) = some 0xFFFF8000 := by
  decide +kernel
theorem test_sati_high : got State.res (exec .sati { State.reset with opa := 0x00008000 }) = some 0x00007FFF := by
  decide +kernel
theorem test_satf_half_away :
    (satF 0x3FE0000000000000#64, satF 0xBFE0000000000000#64, satF 0xC004000000000000#64, satF 0x3FDFFFFFFFFFFFFF#64) =
      (1, -1, -3, 0) := by decide +kernel
theorem test_satf : got State.res (exec .satf { State.reset with fopa := 0x4004000000000000 }) = some 0x00000003 := by
  decide +kernel
theorem test_mulq15 :
    got State.res (exec .mulq15 { State.reset with opa := 0x0000C000, opb := 0x00004000 }) = some 0xFFFFE000 := by
  decide +kernel
theorem test_mulq15_unsaturated :
    got State.res (exec .mulq15 { State.reset with opa := 0x8000, opb := 0x8000 }) = some 0x00008000 := by decide +kernel

/-! ## Delay lines (R250 to R264) -/

/-- The line of R256's example. -/
def line2 : State := withLine 2 [1, 2, 3, 4, 5] (State.resetOf { Config.reference with combLen := #v[5, 5, 7, 11] })

theorem test_dl_write :
    got (fun t => ((t.line 2).cur, slots (t.line 2))) (exec (.dlWrite 2) { line2 with opa := 6 }) =
      some (4, [5, 4, 3, 2, 6, 5, 4, 3, 2, 6, 5, 4]) := by decide +kernel
/-- A capacity below the mirror (R264). -/
theorem test_dl_write_short_line :
    slots (written 3 7 [10, 20, 30, 40]) = [30, 20, 40, 30, 20, 40, 30, 20, 40, 30] := by decide +kernel
/-- The line of R256 after the write of 6. -/
def line2six : State := withLine 2 [1, 2, 3, 4, 5, 6] (State.resetOf { Config.reference with combLen := #v[5, 5, 7, 11] })
theorem test_dl_latest : got State.res (exec (.dlLatest 2) line2six) = some 6 := by decide +kernel
theorem test_dl_readi : got State.res (exec (.dlReadi 2 0xFFFF) line2six) = some 2 := by decide +kernel
theorem test_dl_readi_beyond : got State.res (exec (.dlReadi 2 10) line2six) = some 6 := by decide +kernel
theorem test_dl_readr : got State.res (exec (.dlReadr 2) { line2six with opa := 0xFFFFFFFA }) = some 2 := by
  decide +kernel
theorem test_dl_cursor : got State.res (exec (.dlCursor 2) line2six) = some 4 := by decide +kernel
theorem test_dl_raw_mirror : got State.res (exec (.dlRaw 2 9) line2six) = some 6 := by decide +kernel
theorem test_dl_raw_index :
    got (fun t => (t.errCode, t.errInfo, t.intErr)) (exec (.dlRaw 2 12) line2six) =
      some (.rawIndex, 0x2520000C, true) := by decide +kernel
theorem test_dl_clear :
    got (fun t => (t.line 2).cur + ((t.line 2).buf.map BitVec.toNat).sum) (exec (.dlClear 2) line2six) = some 0 := by
  decide +kernel

/-! ## FIR (R310), comb and allpass (R370, R371), reverb (R410) -/

theorem test_fir_impulse :
    got State.res (exec (.firStep 0) { withTaps [16384, 8192, 4096, 2048] with opa := 32767 }) = some 16384 := by
  decide +kernel
/-- One tap of -32768 fed -32768 saturates the output. -/
theorem test_fir_saturates :
    got State.res (exec (.firStep 0) { withTaps [-32768] with opa := 0x8000 }) = some 32767 := by decide +kernel
theorem test_comb_echo :
    got State.res (exec (.combStep 0)
      (withLine 2 [16384, 0, 0] { State.reset with gainComb := #v[0x4000, 0, 0, 0] })) = some 8192 := by decide +kernel
theorem test_comb_negative_gain :
    got State.res (exec (.combStep 0)
      (withLine 2 [16384, 0, 0] { State.reset with gainComb := #v[0xC000, 0, 0, 0] })) = some 0xFFFFE000 := by
  decide +kernel
/-- R371's example at `t = 2`: the line stores -8192 and the output is 12288. -/
theorem test_ap_step :
    got (fun t => (t.res, lineAt 2 (t.line 6) 0)) (exec (.apStep 0)
      (withLine 6 [16384, 0] { State.reset with gainAp := #v[0x4000, 0] })) = some (12288, -8192) := by decide +kernel
/-- R410's example at `t = 0`. -/
theorem test_rev_step :
    got (fun t => (t.res, lineAt 2 (t.line 6) 0, lineAt 3 (t.line 7) 0)) (exec .revStep
      { State.reset with
        opa := 16384, gainComb := #v[26214, 24576, 22938, 21299], gainAp := #v[16384, 16384] }) =
      some (4096, 16384, 8192) := by decide +kernel

/-! ## Chorus (R470), oscillator (R520, R521) -/

/-- R470's example before its second step. -/
def chorus2 : State :=
  withLine 8 [1000] { State.reset with
    opa := 2000
    chorus := ⟨0x3FFC000000000000, 0x3FE8000000000000, 0x3FF0000000000000, 0x4008000000000000, 0x3FE0000000000000⟩ }
theorem test_ch_step :
    got (fun t => (t.res, t.chorus.sweep)) (exec .chStep chorus2) = some (2125, 0x4004000000000000) := by decide +kernel
/-- The sweep reaches its upper bound: 2.5 + 0.75 is clamped to 3.0 and the step flips (R451). -/
theorem test_ch_advance_clamps :
    (let c := chAdvance { chorus2.chorus with sweep := 0x4004000000000000 }
     (c.sweep, c.step)) = (0x4008000000000000, 0xBFE8000000000000) := by decide +kernel
/-- Ties go to even (R14): `1 + 2^-53` is 1, and `(1 + 2^-52) + 2^-53` is `1 + 2^-51`. -/
theorem test_round_ties :
    fAdd 0x3FF0000000000000 0x3CA0000000000000 = 0x3FF0000000000000 ∧
    fAdd 0x3FF0000000000001 0x3CA0000000000000 = 0x3FF0000000000002 := by decide +kernel
/-- R520's example, the second sample: 5126 at 1102.5 Hz. -/
theorem test_osc_step :
    got (fun t => (t.res, t.osc.s0)) (exec .oscStep
      { State.reset with osc := oscAdvance ⟨0x3FEF9B24942FE45C, 0, 0x3FC4060B67A85375⟩ }) =
      some (5126, (oscAdvance ⟨0x3FEF9B24942FE45C, 0, 0x3FC4060B67A85375⟩).s1) := by decide +kernel
theorem test_osc_setfreq :
    got State.osc (exec .oscSetfreq { State.reset with fopa := 0x3FEF9B24942FE45C, fopb := 0x3FC4060B67A85375 }) =
      some ⟨0x3FEF9B24942FE45C, 0, 0x3FC4060B67A85375⟩ := by decide +kernel

/-! ## Timers (R552 to R574): the draws are named values, the operations take them as arguments -/

theorem test_perf_start :
    (timerStarted 1000 (Timer.cleared 2)).running = true ∧ (timerStarted 1000 (Timer.cleared 2)).start = 1000 := by decide
theorem test_perf_start_stat :
    got (fun t => regValue t (.perfStat 0)) (exec (.perfStart 0) State.reset) = some 0x00010000 := by decide +kernel
theorem test_perf_stop_records :
    timerStopped 2 1250 (timerStarted 1000 (Timer.cleared 2)) = ⟨1000, false, 1, [250, 0]⟩ := by decide
theorem test_perf_stop_stopped : got State.timers (exec (.perfStop 0) State.reset) = some State.reset.timers := by
  decide +kernel
theorem test_perf_stop_saturates :
    (timerStopped 2 0x200000000 (timerStarted 0 (Timer.cleared 2))).samples = [0xFFFFFFFF, 0] := by decide
theorem test_perf_clear :
    got (fun t => regValue t (.perfStat 1)) (exec (.perfClear 1)
      { State.reset with timers := #v[Timer.cleared 2, ⟨9, true, 2, [1, 2]⟩] }) = some 0 := by decide +kernel
theorem test_perf_calibrate : calibration 5000 5012 = 12 := by decide
theorem test_diag_reset :
    got (fun t => (t.statusWord, t.diagCount, regValue t (.perfStat 0))) (exec .diagReset
      { State.reset with diagState := .settled, diagCount := 2, timers := #v[⟨9, true, 2, [1, 2]⟩, Timer.cleared 2] }) =
      some (0, 0, 0) := by decide +kernel
/-- R562. -/
theorem test_trimmed_mean :
    (trimmedMean [100, 102, 98, 5000, 101, 99, 100, 103, 97, 100] 5, trimmedMean [100, 102, 98, 5000] 5,
      trimmedMean [7] 10, trimmedMean [3, 4] 0, trimmedMean [10, 11, 12, 13, 14, 15, 16, 17, 18, 19, 20, 1000] 0) =
      (95, 1320, 0, 3, 15) := by decide

/-! ## Sequencer (R600 to R640) -/

/-- R600's example, its acceptance: `STATUS` is `0x00000101`. -/
theorem test_process_accepts :
    got (fun t => (t.statusWord, t.pending)) (exec .process { State.reset with frames := 4, mode := .passThrough }) =
      some (0x00000101, some ⟨.passThrough, 4⟩) := by decide +kernel
theorem test_process_frames_range :
    got (fun t => (t.errCode, t.errInfo, t.busy)) (exec .process State.reset) =
      some (.framesRange, 0x70000000, false) := by decide +kernel
/-- R600's example, its completion: the output is the input. -/
theorem test_process_pass_through :
    got (fun t => (t.statusWord, t.intDone, t.ramWord 0x20000)) (step
      { busy .passThrough 1 [.sequencer] with mem := Memory.setWord [] 0x10000 0x00010002 }) =
      some (0x00000100, true, 0x00010002) := by decide +kernel
theorem test_table_word : decodeTableWord 32 0x48000000 = some .revStep ∧ decodeTableWord 32 0x22FF0000 = none := by decide
theorem test_fetch_word : got State.res (step (State.reset.withFetchWord 32 0x24000000)) = some 0 ∧
    got State.cmd (step (State.reset.withFetchWord 32 0x24000000)) = some 0x24000000 := by decide +kernel
theorem test_nop : got State.cmd (step (reset [cmd 0])) = some 0 := by decide +kernel

/-! ## Bus, errors and interrupts -/

theorem test_read_id : got State.readLog (step (reset [rd 0x00])) = some [⟨.control, 0x44535046⟩] := by decide +kernel
theorem test_unmapped_read :
    got (fun t => (t.errCode, t.errInfo, t.readLog)) (step (reset [rd 0x198])) =
      some (.busUnmapped, 0x198, [⟨.control, 0⟩]) := by decide +kernel
/-- A misaligned write to `CMD` while busy reports `BUS_MISALIGNED` (R720). -/
theorem test_misaligned_before_busy :
    got State.errCode (step (busy .stopped 1 [.write .audio 0x31 4 0])) = some .busMisaligned := by decide +kernel
theorem test_busy_command :
    got (fun t => (t.errCode, t.errInfo)) (step (busy .stopped 1 [cmd 0xFF100000])) =
      some (.busyCmd, 0xFF100000) := by decide +kernel
theorem test_irq : ({ State.reset with intErr := true, errEn := true } : State).irq = true ∧ State.reset.irq = false := by
  decide +kernel
/-- ERR, SAMPLING_B, T1_FULL and MODE_LATCHED 4 in their places (R58); COUNT 2, RUNNING and FULL (R80). -/
theorem test_status_fields :
    (let s := { State.reset with
       errCode := .busyWrite, diagState := .samplingB, modeLatched := .test, timers := #v[Timer.cleared 2, ⟨9, true, 2, [1, 2]⟩] }
     (s.statusWord, regValue s (.perfStat 1), regValue s .errCode)) = (0x0000042A, 0x00030002, 0x00000006) := by
  decide +kernel
theorem test_dl_len : regValue State.reset (.dlLen 5) = 11 := by decide +kernel
/-- A word is stored little-endian (R102). -/
theorem test_little_endian : Memory.get (Memory.setWord [] 0x10000 0x11223344) 0x10000 = some 0x44 := by decide

/-- R312: the length is read first, then `DL.CLEAR 1`, then three accesses per tap; R313's first values as replies. -/
theorem test_fir_response :
    (impulseResponse Config.reference .audio 1).take 4 =
      [.read .audio 0x144 4, .write .audio 0x30 4 0x26100000, .write .audio 0x34 4 32767,
        .write .audio 0x30 4 0x30100000] ∧
    (stepResponse Config.reference .audio 0).length = 14 ∧
    responseResult [⟨.audio, 4⟩, ⟨.audio, 16384⟩, ⟨.audio, 0xFFFFFFFF⟩] = ([16384, -1], 4) := by decide +kernel
/-- An idle sequencer's turn sets no `DONE` (R711, R745). -/
theorem test_idle_sequencer : got State.intDone (step (reset [.sequencer])) = some false := by decide +kernel

/-! ## Launch premises and runs (R840, R841) -/

theorem test_launch_premises :
    LaunchOk State.reset ∧ AfterReset State.reset ∧ Configured [(.filtThresh, 0xFFFFFFFF), (.mode, 0)] State.reset ∧
    ¬ Configured [(.frames, 4)] State.reset := by decide +kernel
/-- One frame and `PROCESS`: after the last access the buffer is left pending, and one step later the run has ended. -/
theorem test_run_end :
    let s := launch [wr 0x24 1, cmd 0x70000000] State.reset
    got (fun t => (decide (Ended t), t.busy)) (runFor 2 s) = some (false, true) ∧
    got (fun t => (decide (Ended t), t.intDone)) (runFor 3 s) = some (true, true) := by decide +kernel
/-- A run ends with its last access, before the power-on reset that comes after it; its replies are its own. -/
theorem test_run_end_before_reset :
    let s := launch [wr 0x34 7, .powerOn] { State.reset with readLog := [⟨.audio, 1⟩] }
    got (fun t => (decide (Ended t), t.opa, t.readLog)) (runFor 1 s) = some (true, 7, []) ∧ ¬ Ended s := by decide +kernel

/-! ## Witnesses: the hypotheses of every statement are met, each clause at a boundary of its range -/

/-- Registers at the last index of each window, and at the ends of the map below them. -/
def edges : List Reg :=
  [.perfSample 0 1, .perfSample 1 1, .coef 0 1023, .coef 1 1023, .inBuf 4095, .outBuf 4095, .cmd, .id, .paramAccWidth]

theorem test_witness_DecodeInvertsEncode : (Instr.dlRaw 8 0xFFFF).wellFormed = true ∧ (Instr.perfStop 1).wellFormed = true := by
  decide
theorem test_witness_EncodeInvertsDecode : decode 0x2580FFFF#32 = .ok (.dlRaw 8 0xFFFF) := by decide
/-- One word per branch: busy, no such opcode, RSV, unused UNIT, unused IMM, unit one above the range, accepted. -/
theorem test_witness_CommandWordChecks :
    (busy .test 1 [cmd 0xFF000000]).busy = true ∧ (reset [cmd 0]).busy = false ∧
    opcodeMap.find? (fun r => r.1 == 0x27) = none ∧ opcodeMap.find? (fun r => r.1 == 0x26) = some (0x26, some 8, false) ∧
    opcodeMap.find? (fun r => r.1 == 0x10) = some (0x10, none, true) ∧
    (reset [cmd 0x20900000]).inbox = .write .audio ((reset [cmd 0x20900000]).params.base + 0x30) 4 0x20900000 :: [] := by
  decide +kernel
theorem test_witness_StepRunsDecodedCommand :
    (reset [cmd 0x26800000]).inbox = .write .audio ((reset [cmd 0x26800000]).params.base + 0x30) 4 0x26800000 :: [] ∧
    (reset [cmd 0x26800000]).busy = false ∧ decode 0x26800000#32 = .ok (.dlClear 8) := by decide +kernel
theorem test_witness_NopChangesOnlyCmd :
    (reset [cmd 0]).inbox = .write .audio ((reset [cmd 0]).params.base + 0x30) 4 0 :: [] ∧ (reset [cmd 0]).busy = false := by
  decide +kernel
theorem test_witness_DlWriteStoresAndMirrors :
    LineOk (State.reset.cap 0) State.reset.params.mirror (State.reset.line 0) ∧
    LineOk (line2six.cap 2) line2six.params.mirror (line2six.line 2) ∧ (0x8#4).toNat < 9 := by decide +kernel
/-- Units 0 and 8 exist, and so do the largest of every other family. -/
theorem test_witness_units :
    (0#4).toNat < 9 ∧ (8#4).toNat < 9 ∧ (1#4).toNat < 2 ∧ (3#4).toNat < 4 ∧ 1 ≤ State.reset.cap 8 ∧
    ¬ (9#4).toNat < 9 ∧ ¬ (2#4).toNat < 2 ∧ ¬ (4#4).toNat < 4 := by decide +kernel
/-- The last physical slot and the first index beyond it. -/
theorem test_witness_DlRawReadsSlotOrErrs :
    (11#16).toNat < line2six.cap 2 + line2six.params.mirror ∧ ¬ (12#16).toNat < line2six.cap 2 + line2six.params.mirror := by
  decide +kernel
theorem test_witness_ReadsReverseWriteOrder :
    LineOk 3 7 (DelayLine.cleared 3 7) ∧ ([10, -32768, 32767] : List Int).length ≤ 3 ∧
    (∀ x ∈ ([10, -32768, 32767] : List Int), IsSample x) ∧ LineOk 3 7 (written 3 7 [10, 20, 30, 40]) := by decide +kernel
theorem test_witness_FirStepConvolves : 0 < State.reset.cap 0 ∧ State.reset.cap 1 - 1 < State.reset.cap 1 := by decide +kernel
theorem test_witness_FirIsExactUpTo511Taps :
    let s := State.resetOf { Config.reference with firLenA := 511 }
    s.params.accWidth = 40 ∧ s.cap (firLine 0) ≤ 511 ∧ s.cap (firLine 1) ≤ 511 := by decide +kernel
/-- R470's registers, at the lower bound, at the upper bound, and between them. -/
theorem test_witness_SweepStaysInBounds :
    let c := chorus2.chorus
    fLe c.min c.max = true ∧ fIsFinite c.step = true ∧
    ([c.min, c.sweep, c.max].all fun x => fIsFinite x && fLe c.min x && fLe x c.max) = true := by decide +kernel
/-- The largest finite pattern, the smallest, both zeros and two opposite ones: finite operands with a sum that overflows,
a zero sum of either sign, and a sum that is not zero; the Sample bounds; a tie. -/
theorem test_witness_RoundsToNearestEven :
    ([0x7FEFFFFFFFFFFFFF#64, 0xFFEFFFFFFFFFFFFF#64, 1#64, 0#64, 0x8000000000000000#64].all fun x => Finite64 x) = true ∧
    ¬ Finite64 0x7FF0000000000000#64 ∧
    IsSample (-32768) ∧ IsSample 32767 ∧ (2 : Nat) ≠ roundEven 5 1 + 1 ∧ (3 : Nat) ≠ roundEven 5 1 := by decide +kernel
theorem test_witness_ArithmeticNaNsAreCanonical :
    fIsNaN 0x7FF0000000000001#64 = true ∧ fIsNaN (fAdd 0x7FF0000000000000#64 0xFFF0000000000000#64) = true ∧
    fIsNaN (fSub 0x7FF0000000000000#64 0x7FF0000000000000#64) = true ∧
    fIsNaN (fMul 0x7FF0000000000000#64 0#64) = true ∧ Finite64 0#64 ∧ Finite64 0xBFF0000000000000#64 := by decide +kernel
theorem test_witness_CyclePairIsConsistent :
    (reset [rd 0x100, rd 0x104]).inbox = [.read .control (State.reset.params.base + 0x100) 4,
      .read .control (State.reset.params.base + 0x104) 4] ∧
    (reset []).cycle.toNat ≤ (Config.freeCycleRead (reset []).draws).toNat := ⟨by decide +kernel, Nat.zero_le _⟩
/-- A running and a stopped timer, a full list and one with one free slot. -/
theorem test_witness_PerfStopRecords :
    (timerStarted 5 (Timer.cleared 2)).running = true ∧ (Timer.cleared 2).running = false ∧
    (⟨9, true, 1, [1, 0]⟩ : Timer).count < 2 ∧ ¬ (⟨9, true, 2, [1, 2]⟩ : Timer).count < 2 := by decide
theorem test_witness_TrimmedMeanOfSortedSamples :
    ([7, 3] : List Nat) ≠ [] ∧ ([3, 7] : List Nat).Perm [7, 3] ∧ ([3, 7] : List Nat).Pairwise (· ≤ ·) ∧
    (reset [rd 0x11C]).inbox = .read .control ((reset [rd 0x11C]).params.base + 0x118 + 4 * (1 : Fin 2).val) 4 :: [] ∧
    (reset [rd 0x11C]).busy = false := by decide +kernel
/-- Frame counts 0, 1, `MAX_FRAMES` and one above it. -/
theorem test_witness_ProcessAcceptance :
    let ok := fun n : Half => decide (1 ≤ n.toNat ∧ n.toNat ≤ State.reset.params.maxFrames)
    [ok 0, ok 1, ok 4096, ok 4097] = [false, true, true, false] := by decide +kernel
/-- A pending buffer in each mode, its completion next. -/
theorem test_witness_buffers : ∀ m ∈ [Mode.stopped, .passThrough, .filter, .sineGenerator, .test],
    (busy m 2 [.sequencer]).inbox = .sequencer :: [] ∧ (busy m 2 [.sequencer]).pending = some ⟨m, 2⟩ := by decide +kernel
theorem test_witness_FilterPathIntegratesDifference : State.reset.params.Ok ∧ 4096 ≤ State.reset.params.maxFrames := by
  decide +kernel
/-- Each phase of the diagnostic machine, and the two sides of its warm-up bound. -/
theorem test_witness_DiagnosticMachineSteps :
    (State.reset.diagState = .warmingUp ∧ State.reset.diagCount.toNat < State.reset.params.warmupBuffers) ∧
    (let s := { State.reset with diagCount := 2#16 }
     s.diagState = .warmingUp ∧ s.params.warmupBuffers ≤ s.diagCount.toNat) ∧
    (let s := { State.reset with diagState := .samplingB, diagCount := 1#16 }
     s.diagState = .samplingB ∧ s.params.perfSamples ≤ (s.diagCount + 1).toNat) ∧
    (let s := { State.reset with diagState := .samplingB }
     s.diagState = .samplingB ∧ ¬ s.params.perfSamples ≤ (s.diagCount + 1).toNat) := by decide +kernel
/-- No access left, and the sequencer's turn in the midst of others. -/
theorem test_witness_OutputBufferIsAlwaysFull :
    ((busy .filter 1 []).inbox = [] ∧ (busy .filter 1 []).pending = some ⟨.filter, 1⟩) ∧
    (busy .test 1 [.sequencer, rd 0x2C]).inbox = .sequencer :: [rd 0x2C] ∧
    (busy .test 1 [.sequencer, rd 0x2C]).pending = some ⟨.test, 1⟩ ∧
    ((reset [.sequencer, rd 0x2C]).inbox = .sequencer :: [rd 0x2C] ∧ (reset [.sequencer, rd 0x2C]).pending = none) ∧
    (reset []).inbox = [] ∧ (reset []).pending = none := by decide +kernel
theorem test_witness_inBounds :
    inBounds Config.reference (.perfSample 1 1) ∧ inBounds Config.reference (.coef 1 1023) ∧
    inBounds Config.reference (.inBuf 4095) ∧ inBounds Config.reference (.outBuf 4095) ∧
    inBounds Config.reference .cmd := by decide
theorem test_witness_AddressMapIsOneToOne :
    Config.reference.Ok ∧ 0x194 % 4 = 0 ∧
    regAt Config.reference 0x194 = some .paramAccWidth ∧ regAt Config.reference 0x1FFC = some (.coef 0 1023) ∧
    (0x194, Reg.paramAccWidth, WriteAccess.readOnly) ∈ addressMap ∧
    (addressWindows Config.reference).map (fun row => row.2.2.1) = [2, 2, 1024, 1024, 4096, 4096] := by
  decide +kernel
/-- Every single register has one row. -/
theorem test_address_map_rows : addressMap.length = fixedRegs.length ∧ (addressMap.map (·.1)).Nodup := by decide +kernel
/-- A half word, an odd address, and the aligned offsets just beyond a parameter bound and at the window's end. -/
theorem test_witness_BadAccessesRecordErrors :
    (2 ≠ 4 ∨ 0x34 % 4 ≠ 0) ∧ (4 ≠ 4 ∨ 0x3FFFF % 4 ≠ 0) ∧
    (reset [rd 0x3FFFC]).inbox = .read .control 0x3FFFC 4 :: [] ∧
    (reset [wr 0x198 1]).inbox = .write .audio 0x198 4 1 :: [] ∧
    (∀ off ∈ [0x198, 0x808, 0x3FFFC], ¬ (4 ≠ 4 ∨ off % 4 ≠ 0)) := by decide +kernel
/-- No register in bounds lies at those offsets. -/
theorem test_witness_unmapped : ∀ r : Reg, inBounds Config.reference r → regOff r ≠ 0x198 := by
  intro r h
  cases r
  case wide w hi => cases w <;> cases hi <;> decide
  case acc hi => cases hi <;> decide
  all_goals simp only [regOff, coefOff, inBufOff, outBufOff]; omega
/-- A busy block with an access to each kind of register next (all in bounds, `test_witness_inBounds`). -/
theorem test_witness_busy : ∀ r ∈ [Reg.frames, .inFlags, .filtThresh, .perfCal, .gainComb 3, .gainAp 1, .coef 1 1023, .inBuf 4095,
      .wide .chMix true, .cmd, .opa, .opb, .intEn, .errCode, .wide .fopa true, .wide .fopb false, .mode, .ctrl, .res,
      .intStatus, .status, .cycleHi, .outBuf 4095, .perfSample 1 1, .diagCount],
    let s := busy .filter 1 [wr (regOff r) 1]
    let t := busy .filter 1 [rd (regOff r)]
    s.params.Ok ∧ s.busy = true ∧
    s.inbox = .write .audio (s.params.base + regOff r) 4 1 :: [] ∧
    t.inbox = .read .control (t.params.base + regOff r) 4 :: [] := by decide +kernel
/-- An idle block with an access to each kind of register next: read-only, read-write, RAM. -/
theorem test_witness_idle : ∀ r ∈ edges ++ [.status, .perfStat 1, .perfMean 0, .dlLen 8, .opa, .opb, .filtThresh, .perfCal, .frames,
      .gainComb 3, .gainAp 1, .inFlags, .intEn, .wide .fopa true, .wide .oscW false, .wide .chMix true, .mode, .ctrl],
    let s := reset [wr (regOff r) 1]
    let t := reset [rd (regOff r)]
    s.params.Ok ∧ s.busy = false ∧ r ≠ .cycleLo ∧
    s.inbox = .write .audio (s.params.base + regOff r) 4 1 :: [] ∧
    t.inbox = .read .control (t.params.base + regOff r) 4 :: [] := by decide +kernel
theorem test_witness_writeAccess : [Reg.id, .outBuf 0].map writeAccess = [.readOnly, .readOnly] := by decide
theorem test_witness_ModeWritesAreFiltered :
    (4#32 = 4#32 ∧ ¬ 4 < (4#32).toNat) ∧ 4 < (5#32).toNat ∧ 4 < (0xFFFFFFFF#32).toNat := by decide
/-- Writes of `INT_STATUS` and `ERR_CODE`, idle and busy. -/
theorem test_witness_InterruptsAndErrorClears : ∀ off ∈ [0x10, 0x18],
    (reset [wr off 1]).inbox = .write .audio (State.reset.params.base + off) 4 1 :: [] ∧
    (busy .test 1 [wr off 2]).inbox = .write .audio (State.reset.params.base + off) 4 2 :: [] := by decide +kernel
theorem test_witness_ActorsHaveTheSameRights :
    (got State.readLog (step { State.reset with inbox := [.read .audio 0x00 4] })).isSome = true := by decide +kernel
theorem test_witness_ResetValues :
    1 ≤ Config.reference.perfSamples ∧ (reset [.powerOn]).inbox = .powerOn :: [] := by decide +kernel
/-- Bit 0 set, busy; bit 0 clear. -/
theorem test_witness_SoftResetAbandonsAndKeepsRam :
    (busy .test 1 [wr 0x08 1]).inbox = .write .audio (State.reset.params.base + 0x08) 4 1 :: [] ∧
    (1#32).getLsbD 0 = true ∧ (0xFFFFFFFE#32).getLsbD 0 = false := by decide +kernel
theorem test_witness_InvariantHoldsAtReset : Config.reference.Ok := by decide +kernel
/-- A state with a buffer pending that meets the invariant, and its next step. -/
theorem test_witness_EveryStepKeepsTheInvariant :
    (busy .stopped 1 []).Inv ∧ (got State.pending (step (busy .stopped 1 []))) = some none :=
  ⟨⟨by decide +kernel, by decide +kernel, by decide +kernel, by decide +kernel, Nat.zero_le _, by decide +kernel,
    by decide +kernel, by decide +kernel⟩, by decide +kernel⟩
theorem test_witness_ParametersNeverChange : (got State.params (step (reset []))).isSome = true := by decide +kernel
/-- Just outside and just inside the window of a build whose window is not at 0. -/
theorem test_witness_StopsOnlyOutsideTheWindow :
    let p := { Config.reference with base := 0x40000 }
    let s := fun a => { State.resetOf p with inbox := [.read .audio a 4] }
    step (s 0x3FFFC) = .fault .outsideWindow ∧ step (s 0x80000) = .fault .outsideWindow ∧
    (got State.readLog (step (s 0x40000))).isSome = true ∧ (got State.readLog (step (s 0x7FFFC))).isSome = true :=
  ⟨rfl, rfl, by decide +kernel, by decide +kernel⟩
theorem test_witness_CommandFrame : exec .nop State.reset = .next State.reset := by rfl
/-- Commands outside each exclusion, answering a next state, and an ill-formed one excluded from the error clause. -/
theorem test_witness_CommandsWriteOnlyTheirUnit :
    (∀ i ∈ [Instr.sati, .oscStep, .chStep, .perfCalibrate, .diagReset, .process, .accMac, .dlWrite 0, .firStep 1,
      .combStep 3, .apStep 1, .revStep], (got State.params (exec i State.reset)).isSome = true) ∧
    (Instr.sati).wellFormed = true ∧ (Instr.firStep 2).wellFormed = false := by decide +kernel

end Sys2Proof.Tests
end

section
/-!
PROOFS. Binary64 arithmetic (R14, R27, R450, R451): what each operation answers on patterns, from the exact values of
its operands and from the one rounding of `fRound`, on finite operands first and then on infinities and NaNs.
-/
namespace Sys2Proof.Machine

/-! ## Exact values of unpacked operands -/

/-- The exact value of the finite `FVal` with these fields, for any significand and exponent. -/
def exactValue (neg : Bool) (m : Nat) (e : Int) : ℚ := signOf neg * m * 2 ^ e

theorem real64_eq_exactValue (b : DWord) :
    real64 b = exactValue b.msb (significand b) (lowExponent b) := rfl

theorem signOf_not (n : Bool) : signOf (!n) = -signOf n := by cases n <;> simp [signOf]

theorem signOf_bne (a b : Bool) : signOf (a != b) = signOf a * signOf b := by
  cases a <;> cases b <;> simp [signOf]

theorem exactValue_mul (n₁ n₂ : Bool) (m₁ m₂ : Nat) (e₁ e₂ : Int) :
    exactValue n₁ m₁ e₁ * exactValue n₂ m₂ e₂ = exactValue (n₁ != n₂) (m₁ * m₂) (e₁ + e₂) := by
  simp only [exactValue, signOf_bne, two_zpow_add]
  push_cast
  ring

theorem signedScale_cast (n : Bool) (m k : Nat) : (signedScale n m k : ℚ) = signOf n * m * 2 ^ k := by
  cases n <;> simp [signedScale, signOf]

/-- A finite value as an integer count of a common, smaller unit. -/
theorem signedScale_mul_zpow (n : Bool) (m : Nat) {e e₀ : Int} (h : e₀ ≤ e) :
    (signedScale n m (e - e₀).toNat : ℚ) * 2 ^ e₀ = exactValue n m e := by
  have he : ((e - e₀).toNat : ℤ) + e₀ = e := by omega
  rw [signedScale_cast, mul_assoc, ← zpow_natCast, ← two_zpow_add, he, exactValue]

/-- An integer count of a unit, taken apart into sign and magnitude for `fRound`. -/
theorem exactValue_natAbs (v e : Int) : exactValue (decide (v < 0)) v.natAbs e = v * 2 ^ e := by
  have h : signOf (decide (v < 0)) * (v.natAbs : ℚ) = v := by
    rw [Nat.cast_natAbs]
    rcases lt_or_ge v 0 with hv | hv
    · simp [signOf, hv, abs_of_neg hv]
    · simp [signOf, not_lt.2 hv, abs_of_nonneg hv]
  rw [exactValue, h]

/-! ## The operations on unpacked finite operands -/

/-- Both operands are counts of the smaller of their units, so their exact sum is one too and is rounded once; an exact
zero sum takes IEEE 754's sign (R14, log 18). -/
theorem fAddVal_fin_rounded (n₁ n₂ : Bool) (m₁ m₂ : Nat) (e₁ e₂ : Int) (sum : ℚ)
    (hsum : exactValue n₁ m₁ e₁ + exactValue n₂ m₂ e₂ = sum) :
    RoundedOnce (if sum = 0 then n₁ && n₂ else decide (sum < 0)) sum
      (fAddVal (.fin n₁ m₁ e₁) (.fin n₂ m₂ e₂)) := by
  simp only [fAddVal]
  rw [← signedScale_mul_zpow n₁ m₁ (min_le_left e₁ e₂), ← signedScale_mul_zpow n₂ m₂ (min_le_right e₁ e₂),
    ← add_mul] at hsum
  norm_cast at hsum
  generalize signedScale n₁ m₁ _ + signedScale n₂ m₂ _ = v at hsum ⊢
  generalize min e₁ e₂ = e at hsum ⊢
  have hpos : (0 : ℚ) < 2 ^ e := by positivity
  subst hsum
  by_cases hv : v = 0
  · simpa [hv] using fZero_rounded (n₁ && n₂)
  · have hs : ((v : ℚ) * 2 ^ e < 0) ↔ v < 0 := by simp [mul_neg_iff, hpos, hpos.le]
    have hr := fRound_rounded (decide (v < 0)) v.natAbs e
    rw [← exactValue, exactValue_natAbs] at hr
    simpa [hv, hs, hpos.ne'] using hr

theorem fLeVal_fin_iff (n₁ n₂ : Bool) (m₁ m₂ : Nat) (e₁ e₂ : Int) :
    fLeVal (.fin n₁ m₁ e₁) (.fin n₂ m₂ e₂) = true ↔ exactValue n₁ m₁ e₁ ≤ exactValue n₂ m₂ e₂ := by
  have hpos : (0 : ℚ) < 2 ^ min e₁ e₂ := by positivity
  rw [← signedScale_mul_zpow n₁ m₁ (min_le_left e₁ e₂), ← signedScale_mul_zpow n₂ m₂ (min_le_right e₁ e₂),
    mul_le_mul_iff_left₀ hpos]
  simp [fLeVal]

/-- The two branches of `floorScale` are the floor of an integer and of an integer over a power of 2 (R450). -/
theorem floorScale_eq_floor (n : Bool) (m : Nat) (e : Int) : floorScale n m e = ⌊exactValue n m e⌋ := by
  unfold floorScale
  split
  · rename_i h
    have hv := signedScale_mul_zpow n m h
    rw [sub_zero, zpow_zero, mul_one] at hv
    rw [← hv, Int.floor_intCast]
  · rename_i h
    have hv : exactValue n m e = (signedScale n m 0 : ℚ) / ((2 ^ (-e).toNat : ℕ) : ℚ) := by
      have he : e = -((-e).toNat : ℤ) := by omega
      rw [signedScale_cast, exactValue, pow_zero, mul_one]
      conv_lhs => rw [he, zpow_neg, zpow_natCast]
      push_cast
      rfl
    rw [hv, Rat.floor_intCast_div_natCast]
    push_cast
    rfl

/-! ## Finite patterns, NaN patterns and the sign flip -/

theorem fUnpack_of_finite {b : DWord} (h : Finite64 b) : fUnpack b = .fin b.msb (significand b) (lowExponent b) := by
  rw [fUnpack_eq, if_neg h]

theorem fIsFinite_iff (b : DWord) : fIsFinite b = true ↔ Finite64 b := by
  rw [fIsFinite, fUnpack_eq]
  by_cases h : expField b = 2047
  · by_cases hf : fracField b = 0 <;> simp [h, hf]
  · simp [h]

theorem fIsNaN_iff (b : DWord) : fIsNaN b = true ↔ expField b = 2047 ∧ fracField b ≠ 0 := by
  rw [fIsNaN, fUnpack_eq]
  by_cases h : expField b = 2047
  · by_cases hf : fracField b = 0 <;> simp [h, hf]
  · simp [h]

theorem expField_eq (b : DWord) : expField b = (b.extractLsb' 52 11).toNat := by
  simp [BitVec.extractLsb'_toNat, Nat.shiftRight_eq_div_pow, expField]

theorem fracField_eq (b : DWord) : fracField b = (b.extractLsb' 0 52).toNat := by
  simp [BitVec.extractLsb'_toNat, fracField]

@[simp] theorem msb_fNeg (b : DWord) : (fNeg b).msb = !b.msb := by
  rw [fNeg, BitVec.msb_xor]
  exact Bool.xor_true _

@[simp] theorem expField_fNeg (b : DWord) : expField (fNeg b) = expField b := by
  simp [expField_eq, fNeg, BitVec.extractLsb'_xor]

@[simp] theorem fracField_fNeg (b : DWord) : fracField (fNeg b) = fracField b := by
  simp [fracField_eq, fNeg, BitVec.extractLsb'_xor]

@[simp] theorem significand_fNeg (b : DWord) : significand (fNeg b) = significand b := by
  simp [significand]

@[simp] theorem lowExponent_fNeg (b : DWord) : lowExponent (fNeg b) = lowExponent b := by
  simp [lowExponent]

@[simp] theorem real64_fNeg (b : DWord) : real64 (fNeg b) = -real64 b := by
  simp [real64_eq_exactValue, exactValue, signOf_not]

theorem finite64_fNeg {b : DWord} (h : Finite64 b) : Finite64 (fNeg b) := by rwa [Finite64, expField_fNeg]

/-! ## The operations on finite patterns (R14, R450, R451) -/

theorem fAdd_rounded {a b : DWord} (ha : Finite64 a) (hb : Finite64 b) :
    RoundedOnce (if real64 a + real64 b = 0 then a.msb && b.msb else decide (real64 a + real64 b < 0))
      (real64 a + real64 b) (fAdd a b) := by
  rw [fAdd, fUnpack_of_finite ha, fUnpack_of_finite hb]
  exact fAddVal_fin_rounded _ _ _ _ _ _ _ rfl

theorem fSub_rounded {a b : DWord} (ha : Finite64 a) (hb : Finite64 b) :
    RoundedOnce (if real64 a - real64 b = 0 then a.msb && !b.msb else decide (real64 a - real64 b < 0))
      (real64 a - real64 b) (fSub a b) := by
  simpa [fSub, sub_eq_add_neg] using fAdd_rounded ha (finite64_fNeg hb)

theorem fMul_rounded {a b : DWord} (ha : Finite64 a) (hb : Finite64 b) :
    RoundedOnce (a.msb != b.msb) (real64 a * real64 b) (fMul a b) := by
  rw [fMul, fUnpack_of_finite ha, fUnpack_of_finite hb, real64_eq_exactValue, real64_eq_exactValue, exactValue_mul]
  exact fRound_rounded _ _ _

theorem fLe_iff {a b : DWord} (ha : Finite64 a) (hb : Finite64 b) : fLe a b = true ↔ real64 a ≤ real64 b := by
  rw [fLe, fUnpack_of_finite ha, fUnpack_of_finite hb]
  exact fLeVal_fin_iff _ _ _ _ _ _

theorem fFloor_eq {a : DWord} (ha : Finite64 a) : fFloor a = ⌊real64 a⌋ := by
  rw [fFloor, fUnpack_of_finite ha]
  exact floorScale_eq_floor _ _ _

theorem fOfInt_rounded (i : Int) : RoundedOnce (decide (i < 0)) (i : ℚ) (fOfInt i) := by
  have h := fRound_rounded (decide (i < 0)) i.natAbs 0
  rwa [← exactValue, exactValue_natAbs, zpow_zero, mul_one] at h

/-- Every other multiple of `2 ^ k` is no nearer to `m`, and as near only where the multiple chosen is even (R14). -/
theorem roundEven_nearest (m k q : Nat) (hq : q ≠ roundEven m k) :
    |((roundEven m k * 2 ^ k : Nat) : Int) - m| ≤ |((q * 2 ^ k : Nat) : Int) - m| ∧
      (|((roundEven m k * 2 ^ k : Nat) : Int) - m| = |((q * 2 ^ k : Nat) : Int) - m| → roundEven m k % 2 = 0) := by
  obtain ⟨hhalf, heven⟩ := roundEven_half m k
  obtain ⟨hnear, htie⟩ := multiple_nearest (roundEven m k) q (2 ^ k) m (by positivity) (by exact_mod_cast hhalf)
    (by exact_mod_cast hq)
  refine ⟨by exact_mod_cast hnear, fun h => heven ?_⟩
  exact_mod_cast htie (by exact_mod_cast h.symm)

/-! ## Integers of at most 53 bits are exact -/

/-- A natural number of at most 53 bits, of either sign, is the value of a finite pattern. -/
theorem exists_real64_eq_natCast (neg : Bool) (m : Nat) (hm : m < 2 ^ 53) :
    ∃ b, Finite64 b ∧ real64 b = signOf neg * m := by
  rcases Nat.eq_zero_or_pos m with rfl | hpos
  · obtain ⟨-, hfin, hval, -⟩ := assembled_fields neg 0 (by norm_num)
    exact ⟨_, hfin, by simpa [gridUnits] using hval⟩
  · have hlog : m.log2 < 53 := (Nat.log2_lt hpos.ne').2 hm
    obtain ⟨j, hj⟩ : ∃ j, j = 52 - m.log2 := ⟨_, rfl⟩
    have hlow : 2 ^ 52 ≤ m * 2 ^ j := calc
      2 ^ 52 = 2 ^ m.log2 * 2 ^ j := by rw [← pow_add]; congr 1; omega
      _ ≤ m * 2 ^ j := Nat.mul_le_mul_right _ (Nat.log2_self_le hpos.ne')
    have hhigh : m * 2 ^ j < 2 ^ 53 := calc
      m * 2 ^ j < 2 ^ (m.log2 + 1) * 2 ^ j := Nat.mul_lt_mul_of_pos_right Nat.lt_log2_self (by positivity)
      _ = 2 ^ 53 := by rw [← pow_add]; congr 1; omega
    obtain ⟨-, hfin, hval, -⟩ := assembled_fields neg ((1074 - j) * 2 ^ 52 + m * 2 ^ j) (by omega)
    refine ⟨_, hfin, ?_⟩
    have hone : (2 : ℚ) ^ j * (2 ^ (1074 - j) * smallest) = 1 := by
      rw [smallest, ← mul_assoc, ← pow_add, show j + (1074 - j) = 1074 by omega, ← zpow_natCast, ← two_zpow_add]
      norm_num
    rw [hval, gridUnits_assembled _ _ hhigh.le (.inr hlow)]
    push_cast
    rw [show signOf neg * (m * 2 ^ j * 2 ^ (1074 - j)) * smallest =
      signOf neg * m * (2 ^ j * (2 ^ (1074 - j) * smallest)) by ring, hone, mul_one]

/-- Below the overflow bound, rounding keeps a value that some finite pattern has: none is nearer than that pattern. -/
theorem RoundedOnce.exact {neg : Bool} {v : ℚ} {r b : DWord} (h : RoundedOnce neg v r)
    (hv : |v| < (2 ^ 54 - 1) * 2 ^ 970) (hb : Finite64 b) (hbv : real64 b = v) : Finite64 r ∧ real64 r = v := by
  obtain ⟨-, h⟩ := h
  rw [if_neg (not_le.2 hv)] at h
  obtain ⟨hr, hnear⟩ := h
  have hd := (hnear b hb).1
  rw [hbv, sub_self, abs_zero, abs_nonpos_iff, sub_eq_zero] at hd
  exact ⟨hr, hd⟩

/-- `int2f` is exact for every Sample, and as far as 53 bits (R14). -/
theorem fOfInt_exact {i : Int} (h : i.natAbs < 2 ^ 53) : Finite64 (fOfInt i) ∧ real64 (fOfInt i) = i := by
  obtain ⟨b, hb, hbv⟩ := exists_real64_eq_natCast (decide (i < 0)) i.natAbs h
  have hi : signOf (decide (i < 0)) * (i.natAbs : ℚ) = i := by simpa [exactValue] using exactValue_natAbs i 0
  have hlt : |(i : ℚ)| < 2 ^ 53 := by
    rw [← Int.cast_abs, Int.abs_eq_natAbs]
    exact_mod_cast h
  have hbound : (2 : ℚ) ^ 53 < (2 ^ 54 - 1) * 2 ^ 970 := calc
    (2 : ℚ) ^ 53 < (2 ^ 54 - 1) * 1 := by norm_num
    _ ≤ (2 ^ 54 - 1) * 2 ^ 970 := mul_le_mul_of_nonneg_left (one_le_pow₀ (by norm_num)) (by norm_num)
  exact (fOfInt_rounded i).exact (hlt.trans hbound) hb (hbv.trans hi)

/-- `rhaz` keeps an integer value (R15). -/
theorem rhazScale_of_int (n : Bool) (m : Nat) (e i : Int) (h : exactValue n m e = i) : rhazScale n m e = i := by
  unfold rhazScale
  split
  · rename_i he
    have hv := signedScale_mul_zpow n m he
    rw [sub_zero, zpow_zero, mul_one, h] at hv
    exact_mod_cast hv
  · rename_i he
    obtain ⟨k, rfl⟩ : ∃ k : ℕ, e = -k := ⟨(-e).toNat, by omega⟩
    have hv : signedScale n m 0 = i * 2 ^ k := by
      have hk : (2 : ℚ) ^ k ≠ 0 := by positivity
      rw [exactValue, zpow_neg, zpow_natCast, ← div_eq_mul_inv, div_eq_iff hk] at h
      have hc := signedScale_cast n m 0
      rw [pow_zero, mul_one, h] at hc
      exact_mod_cast hc
    have hm : m = i.natAbs * 2 ^ k := by
      have := congrArg Int.natAbs hv
      cases n <;> simpa [signedScale, Int.natAbs_mul, Int.natAbs_pow] using this
    have hq : (2 * m + 2 ^ k) / (2 * 2 ^ k) = i.natAbs := by
      rw [hm, show 2 * (i.natAbs * 2 ^ k) + 2 ^ k = (2 * i.natAbs + 1) * 2 ^ k by ring,
        Nat.mul_div_mul_right _ _ (by positivity)]
      omega
    have hk : (2 : ℤ) ^ k ≠ 0 := by positivity
    have hcancel : signedScale n i.natAbs 0 * 2 ^ k = i * 2 ^ k := by
      rw [← hv, hm]
      cases n <;> simp [signedScale]
    rw [neg_neg, Int.toNat_natCast, hq]
    exact mul_right_cancel₀ hk hcancel

/-- `satF` of a pattern whose value is an integer saturates that integer (R18). -/
theorem satF_of_real64_eq {b : DWord} {i : Int} (hb : Finite64 b) (h : real64 b = i) : satF b = sat16 i := by
  rw [satF, fUnpack_of_finite hb]
  exact congrArg (clamp · (-32768) 32767) (rhazScale_of_int _ _ _ i h)

/-- Settles O26: one rounding of the exact value (`fRound_rounded`) in every operation, over the values that patterns
denote. -/
theorem roundsToNearestEven : Obligations.RoundsToNearestEven := by
  refine ⟨fUnpack_eq, fIsFinite_iff, fRound_rounded, fun a b ha hb => ?_, fOfInt_rounded, fun m k => ⟨?_, ?_⟩,
    fun i hi => ?_⟩
  · exact ⟨fAdd_rounded ha hb, fSub_rounded ha hb, fMul_rounded ha hb, fLe_iff ha hb, fFloor_eq ha⟩
  · intro q
    rcases eq_or_ne q (roundEven m k) with rfl | hq
    · exact le_refl _
    · exact (roundEven_nearest m k q hq).1
  · exact fun q hq => (roundEven_nearest m k q hq).2
  · obtain ⟨hfin, hval⟩ := fOfInt_exact (show i.natAbs < 2 ^ 53 by omega)
    refine ⟨hval, ?_, ?_, (fIsFinite_iff _).2 hfin⟩
    · rw [satF_of_real64_eq hfin hval]
      exact clamp_of_range _ _ _ hi
    · rw [fFloor_eq hfin, hval, Int.floor_intCast]

/-! ## Infinite operands (log 18) -/

@[simp] theorem fUnpack_fInf (s : Bool) : fUnpack (fInf s) = .inf s := by cases s <;> rfl
@[simp] theorem msb_fInf (s : Bool) : (fInf s).msb = s := by cases s <;> rfl
@[simp] theorem fNeg_fInf (s : Bool) : fNeg (fInf s) = fInf (!s) := by cases s <;> rfl
@[simp] theorem fInf_inj (s t : Bool) : fInf s = fInf t ↔ s = t := by cases s <;> cases t <;> decide

theorem exists_eq_fInf {x : DWord} (h : x = 0x7FF0000000000000#64 ∨ x = 0xFFF0000000000000#64) :
    ∃ s, x = fInf s := by
  rcases h with rfl | rfl
  · exact ⟨false, rfl⟩
  · exact ⟨true, rfl⟩

section FiniteOperand
variable (s : Bool) {b : DWord} (hb : Finite64 b)
include hb

theorem fAdd_fInf_finite : fAdd (fInf s) b = fInf s := by
  rw [fAdd, fUnpack_fInf, fUnpack_of_finite hb]; rfl

theorem fAdd_finite_fInf : fAdd b (fInf s) = fInf s := by
  rw [fAdd, fUnpack_fInf, fUnpack_of_finite hb]; rfl

theorem fSub_fInf_finite : fSub (fInf s) b = fInf s := fAdd_fInf_finite s (finite64_fNeg hb)

theorem fSub_finite_fInf : fSub b (fInf s) = fInf (!s) := by
  rw [fSub, fNeg_fInf, fAdd_finite_fInf _ hb]

theorem fMul_fInf_finite : fMul (fInf s) b = if significand b = 0 then canonNaN else fInf (s != b.msb) := by
  rw [fMul, fUnpack_fInf, fUnpack_of_finite hb]; rfl

theorem fLe_fInf_finite : fLe (fInf s) b = s := by
  rw [fLe, fUnpack_fInf, fUnpack_of_finite hb]; cases s <;> rfl

theorem fLe_finite_fInf : fLe b (fInf s) = !s := by
  rw [fLe, fUnpack_fInf, fUnpack_of_finite hb]; cases s <;> rfl

end FiniteOperand

theorem fMulVal_comm (x y : FVal) : fMulVal x y = fMulVal y x := by
  cases x <;> cases y <;> simp only [fMulVal, bne_comm, Nat.mul_comm, Int.add_comm]

theorem fMul_comm (a b : DWord) : fMul a b = fMul b a := fMulVal_comm _ _

/-- The sign of a product with an infinity, as a flip of that infinity's sign. -/
theorem fInf_bne (s t : Bool) : fInf (s != t) = if t then fNeg (fInf s) else fInf s := by
  cases t <;> simp

theorem fAdd_fInf_fInf (s t : Bool) : fAdd (fInf s) (fInf t) = if s = t then fInf s else canonNaN := by
  rw [fAdd, fUnpack_fInf, fUnpack_fInf]; rfl

theorem fSub_fInf_fInf (s t : Bool) : fSub (fInf s) (fInf t) = if s = t then canonNaN else fInf s := by
  rw [fSub, fNeg_fInf, fAdd_fInf_fInf]
  cases s <;> cases t <;> rfl

theorem fMul_fInf_fInf (s t : Bool) : fMul (fInf s) (fInf t) = fInf (s != t) := by
  rw [fMul, fUnpack_fInf, fUnpack_fInf]; rfl

theorem fLe_fInf_fInf (s t : Bool) : fLe (fInf s) (fInf t) = (s || !t) := by
  rw [fLe, fUnpack_fInf, fUnpack_fInf]
  cases s <;> cases t <;> rfl

/-! ## NaNs (R27, R451) -/

/-- A rounded result is finite or an infinity. -/
theorem RoundedOnce.not_nan {neg : Bool} {v : ℚ} {r : DWord} (h : RoundedOnce neg v r) : ¬ fIsNaN r = true := by
  obtain ⟨-, h⟩ := h
  rw [fIsNaN_iff]
  split at h
  · exact fun hn => hn.2 h.2
  · exact fun hn => h.1 hn.1

theorem fInf_not_nan (n : Bool) : ¬ fIsNaN (fInf n) = true := by simp [fIsNaN]

/-- The only NaN of a sum is the canonical one: the other cases answer an infinity or a rounded sum. -/
theorem fAddVal_canonical : ∀ x y : FVal, fIsNaN (fAddVal x y) = true → fAddVal x y = canonNaN
  | .nan, _ => fun _ => rfl
  | .inf _, .nan => fun _ => rfl
  | .fin _ _ _, .nan => fun _ => rfl
  | .inf a, .inf b => by
    simp only [fAddVal]
    split
    · exact fun h => absurd h (fInf_not_nan a)
    · exact fun _ => rfl
  | .inf a, .fin _ _ _ => fun h => absurd h (fInf_not_nan a)
  | .fin _ _ _, .inf b => fun h => absurd h (fInf_not_nan b)
  | .fin _ _ _, .fin _ _ _ => fun h => absurd h (fAddVal_fin_rounded _ _ _ _ _ _ _ rfl).not_nan

/-- The same of a product. -/
theorem fMulVal_canonical : ∀ x y : FVal, fIsNaN (fMulVal x y) = true → fMulVal x y = canonNaN
  | .nan, _ => fun _ => rfl
  | .inf _, .nan => fun _ => rfl
  | .fin _ _ _, .nan => fun _ => rfl
  | .inf a, .inf b => fun h => absurd h (fInf_not_nan (a != b))
  | .inf a, .fin n m e => by
    simp only [fMulVal]
    split
    · exact fun _ => rfl
    · exact fun h => absurd h (fInf_not_nan (a != n))
  | .fin n m e, .inf b => by
    simp only [fMulVal]
    split
    · exact fun _ => rfl
    · exact fun h => absurd h (fInf_not_nan (n != b))
  | .fin _ _ _, .fin _ _ _ => fun h => absurd h (fRound_rounded _ _ _).not_nan

theorem fUnpack_of_nan {b : DWord} (h : fIsNaN b = true) : fUnpack b = .nan := by
  obtain ⟨he, hf⟩ := (fIsNaN_iff b).1 h
  rw [fUnpack_eq, if_pos he, if_neg hf]

theorem fIsNaN_fNeg (b : DWord) : fIsNaN (fNeg b) = fIsNaN b := by
  rw [Bool.eq_iff_iff, fIsNaN_iff, fIsNaN_iff, expField_fNeg, fracField_fNeg]

theorem fAddVal_nan_right (x : FVal) : fAddVal x .nan = canonNaN := by cases x <;> rfl
theorem fMulVal_nan_right (x : FVal) : fMulVal x .nan = canonNaN := by cases x <;> rfl
theorem fLeVal_nan_right (x : FVal) : fLeVal x .nan = false := by cases x <;> rfl

section NaNOperand
variable {a b : DWord} (h : fIsNaN a = true ∨ fIsNaN b = true)
include h

theorem fAdd_of_nan : fAdd a b = canonNaN := by
  rcases h with h | h <;> rw [fAdd, fUnpack_of_nan h]
  · rfl
  · exact fAddVal_nan_right _

theorem fSub_of_nan : fSub a b = canonNaN := fAdd_of_nan (by rwa [fIsNaN_fNeg])

theorem fMul_of_nan : fMul a b = canonNaN := by
  rcases h with h | h <;> rw [fMul, fUnpack_of_nan h]
  · rfl
  · exact fMulVal_nan_right _

theorem fLe_of_nan : fLe a b = false := by
  rcases h with h | h <;> rw [fLe, fUnpack_of_nan h]
  · rfl
  · exact fLeVal_nan_right _

end NaNOperand

/-- Settles O27: operand kind by operand kind, on the unpacked values. -/
theorem arithmeticNaNsAreCanonical : Obligations.ArithmeticNaNsAreCanonical := by
  intro a b
  refine ⟨fIsNaN_iff a, fLe_of_nan, fun ha hb => ?_, fun ha hb => ?_, fAddVal_canonical _ _, fAddVal_canonical _ _,
    fMulVal_canonical _ _, fun h => ⟨fAdd_of_nan h, fSub_of_nan h, fMul_of_nan h⟩⟩
  · obtain ⟨s, rfl⟩ := exists_eq_fInf ha
    refine ⟨fAdd_fInf_finite s hb, fAdd_finite_fInf s hb, fSub_fInf_finite s hb, ?_, ?_, fMul_comm _ _, ?_, ?_⟩
    · rw [fSub_finite_fInf s hb, fNeg_fInf]
    · rw [fMul_fInf_finite s hb, fInf_bne]
      rfl
    · rw [fLe_fInf_finite s hb, msb_fInf]
    · rw [fLe_finite_fInf s hb, msb_fInf]
  · obtain ⟨s, rfl⟩ := exists_eq_fInf ha
    obtain ⟨t, rfl⟩ := exists_eq_fInf hb
    refine ⟨?_, ?_, ?_, ?_⟩
    · simp only [fAdd_fInf_fInf, fInf_inj, canonNaN]
    · simp only [fSub_fInf_fInf, fInf_inj, canonNaN]
    · rw [fMul_fInf_fInf, fInf_bne, msb_fInf]
    · simp [fLe_fInf_fInf]

end Sys2Proof.Machine
end

section
/-!
PROOFS. No step changes the build (R7, R24, R71): each part of a step keeps `State.params`.
-/
namespace Sys2Proof.Machine

/-! ## Commands -/

@[simp] theorem timerStart_params (k : Fin 2) (s : State) : (timerStart k s).params = s.params := rfl

@[simp] theorem timerStop_params (k : Fin 2) (s : State) : (timerStop k s).params = s.params := by
  rw [timerStop_eq]; split <;> rfl

@[simp] theorem reverbRun_params (x : Int) (s : State) : (reverbRun x s).1.params = s.params := by rw [reverbRun_eq]

theorem onUnit_params (n : Nat) (u : BitVec 4) (i : Instr) (s t : State) (f : Fin n → State)
    (h : onUnit n u i s f = .next t) (hf : ∀ k, (f k).params = s.params) : t.params = s.params := by
  rcases onUnit_cases _ _ _ _ _ _ h with ⟨k, rfl⟩ | ⟨-, rfl⟩
  · exact hf k
  · rfl

theorem execProcess_params (s t : State) (h : execProcess s = .next t) : t.params = s.params := by
  simp only [execProcess] at h
  split at h <;> cases h <;> rfl

theorem exec_params (i : Instr) (s t : State) (h : exec i s = .next t) : t.params = s.params := by
  cases i
  case nop | accSet | accMac | accOut | sati | satf | mulq15 | chStep | oscStep | oscSetfreq | perfCalibrate
    | diagReset =>
    cases h; rfl
  case revStep => cases h; rw [setRes_params, reverbRun_params]
  case process => exact execProcess_params s t h
  case dlRaw => exact onUnit_params _ _ _ _ _ _ h fun k => by split <;> rfl
  case perfStop => exact onUnit_params _ _ _ _ _ _ h fun k => timerStop_params k s
  case dlWrite | dlLatest | dlReadi | dlReadr | dlCursor | dlClear | firStep | combStep | apStep | perfStart
    | perfClear =>
    exact onUnit_params _ _ _ _ _ _ h fun _ => rfl

/-! ## Buffers -/

@[simp] theorem filterPath_params (n : Nat) (s : State) : (filterPath n s).params = s.params := by rw [filterPath_eq]

theorem leaveWarmup_params (s : State) : (leaveWarmup s).params = s.params := by unfold leaveWarmup; split <;> rfl

theorem filterBuffer_params (n : Nat) (s : State) : (filterBuffer n s).params = s.params := by
  unfold filterBuffer
  rw [← leaveWarmup_params s]
  generalize leaveWarmup s = t
  simp only
  cases t.diagState
  case warmingUp | settled => exact filterPath_params n t
  case samplingA => simp [samplingABuffer]
  case samplingB => simp [samplingBBuffer]

theorem processBuffer_params (m : Mode) (n : Nat) (s : State) : (processBuffer m n s).params = s.params := by
  cases m
  case stopped => rw [processBuffer, stoppedPath, runFrames_plain_eq _ fun _ _ => rfl]; rfl
  case passThrough => rw [processBuffer, passPath, runFrames_plain_eq _ fun _ _ => rfl]; rfl
  case filter => exact filterBuffer_params n s
  case sineGenerator => rw [processBuffer, sinePath, runFrames_sine_eq]; rfl
  case test => rw [processBuffer, testPath, runFrames_test_eq]; rfl

theorem completeProcess_params (s : State) : (completeProcess s).params = s.params := by
  unfold completeProcess
  split
  · rfl
  · exact processBuffer_params _ _ _

/-! ## The bus and the command port -/

theorem busRead_params (off width : Nat) (s : State) : (busRead off width s).1.params = s.params := by
  unfold busRead
  split
  · rfl
  · split
    · rfl
    · unfold readReg
      split_ifs <;> rfl

theorem writeReg_params (s : State) (v : Word) (r : Reg) : (writeReg s v r).params = s.params := by
  cases r
  case ctrl => simp only [writeReg]; split <;> rfl
  case wide w hi => cases w <;> rfl
  all_goals rfl

theorem busWrite_params (off width : Nat) (v : Word) (s : State) : (busWrite off width v s).params = s.params := by
  unfold busWrite
  split
  · rfl
  · split
    · rfl
    · split
      · rfl
      · exact writeReg_params _ _ _

theorem takeEvent_params (e : Event) (rest : List Event) (s : State) : (takeEvent e rest s).params = s.params := by
  cases e <;> rfl

theorem serveEvent_params (e : Event) (s t : State) (h : serveEvent e s = .next t) : t.params = s.params := by
  cases e <;> simp only [serveEvent] at h
  case read => split at h <;> cases h; exact busRead_params _ _ _
  case write => split at h <;> cases h; exact busWrite_params _ _ _ _
  case sequencer => cases h; exact completeProcess_params _
  case powerOn => cases h; rfl

theorem runCommand_params (w : Word) (s t : State) (h : runCommand w s = .next t) : t.params = s.params := by
  unfold runCommand at h
  split at h
  · exact exec_params _ (latchCommand w s) _ h
  · cases h; rfl

/-- Settles O57: the sequencer's turn, the accepted command and the served event each keep the parameters. -/
theorem parametersNeverChange : Obligations.ParametersNeverChange := by
  intro s t h
  unfold step at h
  split at h
  · cases h; exact completeProcess_params s
  · split at h
    · exact (runCommand_params _ _ _ h).trans (takeEvent_params _ _ s)
    · exact (serveEvent_params _ _ _ h).trans (takeEvent_params _ _ s)

end Sys2Proof.Machine
end

section
/-!
PROOFS. The state after power-on reset meets the invariant (R90).
-/
namespace Sys2Proof.Machine

theorem line_resetOf (p : Params) (u : Fin 9) : (State.resetOf p).line u = DelayLine.cleared (p.cap u) p.mirror := by
  simp [State.line, State.resetOf]

theorem timer_resetOf (p : Params) (t : Fin 2) : (State.resetOf p).timer t = Timer.cleared p.perfSamples := by
  simp [State.timer, State.resetOf]

/-- Each part of the invariant at power-on reset (R90): cleared lines and timers, an empty RAM list and zeros. -/
theorem resetOf_inv (p : Params) (h : p.Ok) : (State.resetOf p).Inv where
  params := h
  lines u := by
    obtain ⟨-, -, -, -, -, -, hcap, -⟩ := h
    rw [line_resetOf]
    exact cleared_ok _ _ (hcap u).1
  acc := by
    have hpos : (0 : Int) < 2 ^ (p.accWidth - 1) := by positivity
    exact ⟨neg_nonpos.2 hpos.le, Int.le_sub_one_of_lt hpos⟩
  timers t := by rw [timer_resetOf]; exact timerCleared_ok _
  diag := Nat.zero_le _
  pending := by intro q hq; cases hq
  mem := resetOf_memOk p
  filtDiff := Nat.zero_le _

theorem reference_ok : Config.reference.Ok := by decide

/-- Settles O55: any build in range, and the reference build is one (log 1). -/
theorem invariantHoldsAtReset : Obligations.InvariantHoldsAtReset :=
  ⟨resetOf_inv, resetOf_inv _ reference_ok⟩

end Sys2Proof.Machine
end

section
/-!
PROOFS. Bus accesses (R100 to R105, R115): the address map finds each register at its offset, and what one step does that
serves a 4-byte access there.
-/
namespace Sys2Proof.Machine

/-! ## The address map (R104) -/

theorem regOff_lt_of_mem_fixedRegs : ∀ r ∈ fixedRegs, regOff r < 0x800 := by decide

theorem find?_fixedRegs : ∀ r ∈ fixedRegs, fixedRegs.find? (fun x => regOff x == regOff r) = some r := by decide

/-- No single register lies in the windows of R104. -/
theorem find?_fixedRegs_eq_none (off : Nat) (h : 0x800 ≤ off) : fixedRegs.find? (fun x => regOff x == off) = none := by
  simp only [List.find?_eq_none, beq_iff_eq]
  intro r hr
  have := regOff_lt_of_mem_fixedRegs r hr
  omega

theorem regAt_of_mem_fixedRegs (p : Params) (r : Reg) (h : r ∈ fixedRegs) : regAt p (regOff r) = some r := by
  simp only [regAt, find?_fixedRegs r h]

/-- From offset 0x800 up there are only the windows (R104). -/
theorem regAt_window (p : Params) (off : Nat) (h : 0x800 ≤ off) : regAt p off = windowReg p off := by
  simp only [regAt, find?_fixedRegs_eq_none off h]

/-- A register is one of the single registers, or a word of a window. -/
theorem mem_fixedRegs_or_window (r : Reg) :
    r ∈ fixedRegs ∨ (∃ t i, r = .perfSample t i) ∨ (∃ n i, r = .coef n i) ∨ (∃ f, r = .inBuf f) ∨ ∃ f, r = .outBuf f := by
  cases r
  case perfSample t i => exact .inr (.inl ⟨t, i, rfl⟩)
  case coef n i => exact .inr (.inr (.inl ⟨n, i, rfl⟩))
  case inBuf f => exact .inr (.inr (.inr (.inl ⟨f, rfl⟩)))
  case outBuf f => exact .inr (.inr (.inr (.inr ⟨f, rfl⟩)))
  case wide w hi => left; cases w <;> cases hi <;> decide
  case acc hi => left; cases hi <;> decide
  case gainComb k | gainAp k | perfStat k | perfMean k | dlLen k => left; revert k; decide
  all_goals left; decide

/-- Each register in bounds is found at its offset (R104). -/
theorem regAt_regOff (p : Params) (hp : p.Ok) (r : Reg) (hb : inBounds p r) : regAt p (regOff r) = some r := by
  obtain ⟨-, -, ⟨-, htaps⟩, -, -, -, -, ⟨-, hframes⟩, ⟨-, hsamples⟩, -, -⟩ := hp
  rcases mem_fixedRegs_or_window r with h | ⟨t, i, rfl⟩ | ⟨n, i, rfl⟩ | ⟨f, rfl⟩ | ⟨f, rfl⟩
  · exact regAt_of_mem_fixedRegs p r h
  · rw [regAt_window _ _ (by simp only [regOff]; omega)]
    simp only [inBounds] at hb
    match t with
    | 0 => simp only [windowReg, regOff, Fin.val_zero]; grind
    | 1 => simp only [windowReg, regOff, Fin.val_one]; grind
  · rw [regAt_window _ _ (by simp only [regOff, coefOff]; omega)]
    simp only [inBounds] at hb
    match n with
    | 0 => simp only [windowReg, regOff, coefOff, Fin.val_zero]; grind
    | 1 => simp only [windowReg, regOff, coefOff, Fin.val_one]; grind
  · rw [regAt_window _ _ (by simp only [regOff, inBufOff]; omega)]
    simp only [inBounds] at hb
    simp only [windowReg, regOff, inBufOff]
    grind
  · rw [regAt_window _ _ (by simp only [regOff, outBufOff]; omega)]
    simp only [inBounds] at hb
    simp only [windowReg, regOff, outBufOff]
    grind

theorem inBounds_of_mem_fixedRegs (p : Params) (r : Reg) (h : r ∈ fixedRegs) : inBounds p r := by
  cases r
  case perfSample | coef | inBuf | outBuf => simp [fixedRegs, wideRegs] at h
  all_goals trivial

/-- What is found at an offset is a register in bounds (R105). -/
theorem inBounds_of_regAt (p : Params) (off : Nat) (r : Reg) (h : regAt p off = some r) : inBounds p r := by
  unfold regAt at h
  split at h
  · next hf => cases h; exact inBounds_of_mem_fixedRegs p _ (List.mem_of_find?_eq_some hf)
  · unfold windowReg at h
    split_ifs at h <;> cases h <;> simp only [inBounds] <;> omega

theorem regOff_mod_four (r : Reg) : regOff r % 4 = 0 := by
  cases r
  case wide w hi => cases w <;> cases hi <;> rfl
  case acc hi => cases hi <;> rfl
  all_goals simp only [regOff, coefOff, inBufOff, outBufOff] <;> omega

/-- The register is found at its offset, which lies in the window (R100, R104). -/
structure Mapped (p : Params) (r : Reg) : Prop where
  found : regAt p (regOff r) = some r
  inWindow : regOff r ≤ 0x3FFFF

theorem mapped_of_mem_fixedRegs (p : Params) (r : Reg) (h : r ∈ fixedRegs) : Mapped p r :=
  ⟨regAt_of_mem_fixedRegs p r h, by have := regOff_lt_of_mem_fixedRegs r h; omega⟩

theorem mapped_of_inBounds (p : Params) (hp : p.Ok) (r : Reg) (hb : inBounds p r) : Mapped p r := by
  refine ⟨regAt_regOff p hp r hb, ?_⟩
  obtain ⟨-, -, ⟨-, htaps⟩, -, -, -, -, ⟨-, hframes⟩, ⟨-, hsamples⟩, -, -⟩ := hp
  rcases mem_fixedRegs_or_window r with h | ⟨t, i, rfl⟩ | ⟨n, i, rfl⟩ | ⟨f, rfl⟩ | ⟨f, rfl⟩
  · have := regOff_lt_of_mem_fixedRegs r h
    omega
  all_goals simp only [inBounds] at hb; simp only [regOff, coefOff, inBufOff, outBufOff]; omega

/-- Only `CMD` has the offset of the command port (R104). -/
theorem Mapped.eq_cmd {p : Params} {r : Reg} (h : Mapped p r) (h30 : regOff r = 0x30) : r = .cmd := by
  have hcmd : regAt p 0x30 = some .cmd := regAt_of_mem_fixedRegs p .cmd (by decide)
  exact Option.some.inj (h.found.symm.trans (h30 ▸ hcmd))

theorem windowOff_base_add (p : Params) (off : Nat) (h : off ≤ 0x3FFFF) : windowOff p (p.base + off) = some off := by
  simp [windowOff, h]

theorem busRead_mapped (s : State) (r : Reg) (hm : Mapped s.params r) : busRead (regOff r) 4 s = readReg s r := by
  simp [busRead, regOff_mod_four, hm.found]

theorem busWrite_mapped (s : State) (r : Reg) (v : Word) (hm : Mapped s.params r)
    (hacc : (s.busy && (writeAccess r == .whileIdle)) = false) : busWrite (regOff r) 4 v s = writeReg s v r := by
  simp only [busWrite, regOff_mod_four, hm.found, hacc]
  simp

/-! ## One step of an access (R101, R115, R118) -/

theorem serveEvent_read (s : State) (a : Actor) (r : Reg) (hm : Mapped s.params r) :
    serveEvent (.read a (s.params.base + regOff r) 4) s = .next ((readReg s r).1.reply a (readReg s r).2) := by
  simp only [serveEvent, windowOff_base_add _ _ hm.inWindow, busRead_mapped s r hm]

theorem serveEvent_write (s : State) (a : Actor) (r : Reg) (v : Word) (hm : Mapped s.params r)
    (hacc : (s.busy && (writeAccess r == .whileIdle)) = false) :
    serveEvent (.write a (s.params.base + regOff r) 4 v) s = .next (writeReg s v r) := by
  simp only [serveEvent, windowOff_base_add _ _ hm.inWindow, busWrite_mapped s r v hm hacc]

/-- A step whose oldest event is no command word serves that event. -/
theorem step_of_no_command (s : State) (e : Event) (rest : List Event) (hi : s.inbox = e :: rest)
    (hc : commandOf s.params e = none) : step s = serveEvent e (takeEvent e rest s) := by
  simp only [step, hi, hc]

/-- A step that serves a read of a mapped word. -/
theorem step_read (s : State) (a : Actor) (r : Reg) (rest : List Event) (hm : Mapped s.params r)
    (hi : s.inbox = .read a (s.params.base + regOff r) 4 :: rest) :
    step s = .next ((readReg { s with inbox := rest } r).1.reply a (readReg { s with inbox := rest } r).2) :=
  (step_of_no_command s _ rest hi rfl).trans (serveEvent_read { s with inbox := rest } a r hm)

/-- A step that serves a write of a mapped word other than `CMD`, if no running buffer rejects it (R118). -/
theorem step_write (s : State) (a : Actor) (r : Reg) (v : Word) (rest : List Event) (hm : Mapped s.params r)
    (hcmd : r ≠ .cmd) (hacc : (s.busy && (writeAccess r == .whileIdle)) = false)
    (hi : s.inbox = .write a (s.params.base + regOff r) 4 v :: rest) :
    step s = .next (writeReg { s with inbox := rest, ramEpoch := s.ramEpoch + 1 } v r) := by
  have h30 : regOff r ≠ 0x30 := fun h => hcmd (hm.eq_cmd h)
  exact (step_of_no_command s _ rest hi (by simp [commandOf, h30])).trans
    (serveEvent_write { s with inbox := rest, ramEpoch := s.ramEpoch + 1 } a r v hm hacc)

/-- The same in an idle block. -/
theorem step_write_idle (s : State) (a : Actor) (r : Reg) (v : Word) (rest : List Event) (hm : Mapped s.params r)
    (hcmd : r ≠ .cmd) (hidle : s.busy = false) (hi : s.inbox = .write a (s.params.base + regOff r) 4 v :: rest) :
    step s = .next (writeReg { s with inbox := rest, ramEpoch := s.ramEpoch + 1 } v r) :=
  step_write s a r v rest hm hcmd (by simp [hidle]) hi

end Sys2Proof.Machine
end

section
/-!
PROOFS. Every step keeps the invariant of the block (R54, R71, R79, R600, R611, R620): one rule per update that touches a
guarded field, then the commands, the buffers, the bus and the step.
-/
namespace Sys2Proof.Machine

/-! ## The build -/

theorem le_accWidth_of_ok {p : Params} (h : p.Ok) : 32 ≤ p.accWidth := by
  obtain ⟨⟨hwidth, -⟩, -⟩ := h
  exact hwidth

theorem maxFrames_le_of_ok {p : Params} (h : p.Ok) : p.maxFrames ≤ 16384 := by
  obtain ⟨-, -, -, -, -, -, -, ⟨-, hframes⟩, -⟩ := h
  exact hframes

theorem perfSamples_range_of_ok {p : Params} (h : p.Ok) : 1 ≤ p.perfSamples ∧ p.perfSamples ≤ 256 := by
  obtain ⟨-, -, -, -, -, -, -, -, hsamples, -⟩ := h
  exact hsamples

theorem warmupBuffers_le_of_ok {p : Params} (h : p.Ok) : p.warmupBuffers ≤ 65535 := by
  obtain ⟨-, -, -, -, -, -, -, -, -, hwarmup, -⟩ := h
  exact hwarmup

/-! ## Updates -/

/-- The fields that the invariant speaks of. -/
def State.guarded (s : State) :=
  (s.params, s.lines, s.acc, s.timers, s.diagState, s.diagCount, s.pending, s.frames, s.modeLatched, s.mem, s.filtDiff)

/-- An update of other fields keeps the invariant. -/
theorem State.Inv.of_guarded_eq {s t : State} (h : s.Inv) (e : t.guarded = s.guarded) : t.Inv := by
  simp only [State.guarded, Prod.mk.injEq] at e
  obtain ⟨hparams, hlines, hacc, htimers, hstate, hcount, hpending, hframes, hlatched, hmem, hdiff⟩ := e
  refine ⟨hparams ▸ h.params, ?_, ?_, ?_, ?_, ?_, ?_, hdiff ▸ h.filtDiff⟩
  · simpa only [State.line, State.cap, hlines, hparams] using h.lines
  · simpa only [AccOk, hacc, hparams] using h.acc
  · simpa only [State.timer, htimers, hparams] using h.timers
  · simpa only [DiagOk, hstate, hcount, hparams] using h.diag
  · simpa only [PendingOk, hpending, hframes, hlatched, hparams] using h.pending
  · simpa only [MemOk, hmem, hparams] using h.mem

theorem State.Inv.setRes {s : State} (h : s.Inv) (v : Int) : (s.setRes v).Inv := h.of_guarded_eq rfl

theorem State.Inv.raiseError {s : State} (h : s.Inv) (c : ErrCode) (w : Word) : (raiseError c w s).Inv :=
  h.of_guarded_eq rfl

theorem State.Inv.newEpoch {s : State} (h : s.Inv) : s.newEpoch.Inv := h.of_guarded_eq rfl

theorem State.Inv.readCycle {s : State} (h : s.Inv) : s.readCycle.Inv := h.of_guarded_eq rfl

theorem State.Inv.setAcc {s : State} (h : s.Inv) (v : Int)
    (hv : -(2 ^ (s.params.accWidth - 1)) ≤ v ∧ v ≤ 2 ^ (s.params.accWidth - 1) - 1) : (s.setAcc v).Inv :=
  ⟨h.params, h.lines, hv, h.timers, h.diag, h.pending, h.mem, h.filtDiff⟩

theorem State.Inv.setLine {s : State} (h : s.Inv) (u : Fin 9) (l : DelayLine) (hl : LineOk (s.cap u) s.params.mirror l) :
    (s.setLine u l).Inv := by
  refine ⟨h.params, fun v => ?_, h.acc, h.timers, h.diag, h.pending, h.mem, h.filtDiff⟩
  rw [line_setLine]
  split
  · next e => subst e; exact hl
  · exact h.lines v

theorem State.Inv.setTimer {s : State} (h : s.Inv) (k : Fin 2) (x : Timer) (hx : TimerOk s.params.perfSamples x) :
    (s.setTimer k x).Inv := by
  refine ⟨h.params, h.lines, h.acc, fun v => ?_, h.diag, h.pending, h.mem, h.filtDiff⟩
  rw [timer_setTimer]
  split
  · exact hx
  · exact h.timers v

theorem State.Inv.setRam {s : State} (h : s.Inv) (a : Nat) (w : Word) (ha : ∀ k < 4, inRam s.params (a + k)) :
    (s.setRam a w).Inv :=
  ⟨h.params, h.lines, h.acc, h.timers, h.diag, h.pending, setRam_memOk s a w h.mem ha, h.filtDiff⟩

/-- A move of the diagnostic machine into its range (R620). -/
theorem State.Inv.setDiag {s : State} (h : s.Inv) (d : DiagState) (c : BitVec 16)
    (hd : DiagOk { s with diagState := d, diagCount := c }) : State.Inv { s with diagState := d, diagCount := c } :=
  ⟨h.params, h.lines, h.acc, h.timers, hd, h.pending, h.mem, h.filtDiff⟩

theorem State.Inv.dlWrite {s : State} (h : s.Inv) (u : Fin 9) (x : Int) : (dlWrite u x s).Inv :=
  h.setLine u _ (lineWrite_ok _ _ _ _ (h.lines u))

theorem State.Inv.combNext {s : State} (h : s.Inv) (k : Fin 4) (x : Int) : (combNext k x s).Inv := h.dlWrite _ _

theorem State.Inv.apNext {s : State} (h : s.Inv) (k : Fin 2) (x : Int) : (apNext k x s).Inv := h.dlWrite _ _

theorem State.Inv.firNext {s : State} (h : s.Inv) (n : Fin 2) (x : Int) : (firNext n x s).Inv := (h.dlWrite _ _).newEpoch

theorem State.Inv.combsRun {s : State} (h : s.Inv) (x : Int) (ks : List (Fin 4)) (m : Int) :
    (combsRun x ks m s).1.Inv := by
  induction ks generalizing m s with
  | nil => exact h
  | cons k ks ih => exact ih (h.combNext k x) _

theorem State.Inv.reverbRun {s : State} (h : s.Inv) (x : Int) : (reverbRun x s).1.Inv :=
  ((h.combsRun x allCombs 0).apNext 0 _).apNext 1 _

theorem State.Inv.timerStart {s : State} (h : s.Inv) (k : Fin 2) : (timerStart k s).Inv :=
  h.readCycle.setTimer k _ (timerStarted_ok _ _ _ (h.timers k))

theorem State.Inv.timerStop {s : State} (h : s.Inv) (k : Fin 2) : (timerStop k s).Inv := by
  unfold Machine.timerStop
  split
  · exact h.readCycle.setTimer k _ (timerStopped_ok _ _ _ (h.timers k))
  · exact h

theorem State.Inv.timerClear {s : State} (h : s.Inv) (k : Fin 2) : (timerClear k s).Inv :=
  h.setTimer k _ (timerCleared_ok _)

/-! ## Commands -/

/-- A Sample fits an accumulator of at least 32 bits (R54, R210). -/
theorem sext16_range (v : Half) (width : Nat) (hw : 32 ≤ width) :
    -(2 ^ (width - 1)) ≤ sext16 v ∧ sext16 v ≤ 2 ^ (width - 1) - 1 := by
  have hpow : (2 : Int) ^ 15 ≤ 2 ^ (width - 1) := pow_le_pow_right₀ (by decide) (by omega)
  have hlo : -(2 ^ 15) ≤ v.toInt := BitVec.le_toInt v
  have hhi : v.toInt < 2 ^ 15 := BitVec.toInt_lt
  simp only [sext16]
  omega

theorem onUnit_inv (n : Nat) (u : BitVec 4) (i : Instr) (s t : State) (f : Fin n → State) (h : s.Inv)
    (ht : onUnit n u i s f = .next t) (hf : ∀ k, (f k).Inv) : t.Inv := by
  rcases onUnit_cases _ _ _ _ _ _ ht with ⟨k, rfl⟩ | ⟨-, rfl⟩
  · exact hf k
  · exact h.raiseError _ _

theorem execDlRaw_inv (u : BitVec 4) (imm : Half) (s t : State) (h : s.Inv) (ht : execDlRaw u imm s = .next t) : t.Inv := by
  refine onUnit_inv _ _ _ _ _ _ h ht fun k => ?_
  split
  · exact h.raiseError _ _
  · exact h.setRes _

theorem execDiagReset_inv (s t : State) (h : s.Inv) (ht : execDiagReset s = .next t) : t.Inv := by
  cases ht
  exact (((h.timerClear 0).timerClear 1).setDiag .warmingUp 0#16 (Nat.zero_le _)).of_guarded_eq rfl

/-- An accepted `PROCESS` is pending with the mode and the frame count it latched (R600). -/
theorem execProcess_inv (s t : State) (h : s.Inv) (ht : execProcess s = .next t) : t.Inv := by
  simp only [execProcess] at ht
  split at ht
  · cases ht; exact h.raiseError _ _
  · have hrange : 1 ≤ s.frames.toNat ∧ s.frames.toNat ≤ s.params.maxFrames := by omega
    cases ht
    refine ⟨h.params, h.lines, h.acc, h.timers, h.diag, ?_, h.mem, h.filtDiff⟩
    rintro p ⟨⟩
    exact ⟨hrange, rfl, rfl⟩

theorem exec_inv (i : Instr) (s t : State) (h : s.Inv) (ht : exec i s = .next t) : t.Inv := by
  cases i
  case nop => cases ht; exact h
  case accSet imm => cases ht; exact h.setAcc _ (sext16_range imm _ (le_accWidth_of_ok h.params))
  case accMac => cases ht; exact h.setAcc _ (satA_range _ _)
  case accOut | sati | satf | mulq15 => cases ht; exact h.setRes _
  case dlWrite => exact onUnit_inv _ _ _ _ _ _ h ht fun _ => h.dlWrite _ _
  case dlLatest | dlReadi | dlReadr | dlCursor => exact onUnit_inv _ _ _ _ _ _ h ht fun _ => h.setRes _
  case dlRaw => exact execDlRaw_inv _ _ _ _ h ht
  case dlClear => exact onUnit_inv _ _ _ _ _ _ h ht fun k => h.setLine k _ (cleared_ok _ _ (by have := h.lines k; omega))
  case firStep => exact onUnit_inv _ _ _ _ _ _ h ht fun _ => (h.firNext _ _).setRes _
  case combStep => exact onUnit_inv _ _ _ _ _ _ h ht fun _ => (h.combNext _ _).setRes _
  case apStep => exact onUnit_inv _ _ _ _ _ _ h ht fun _ => (h.apNext _ _).setRes _
  case revStep => cases ht; exact (h.reverbRun _).setRes _
  case chStep => cases ht; exact (h.dlWrite chorusLine (opaSample s)).of_guarded_eq rfl
  case oscStep | oscSetfreq | perfCalibrate => cases ht; exact h.of_guarded_eq rfl
  case perfStart => exact onUnit_inv _ _ _ _ _ _ h ht fun _ => h.timerStart _
  case perfStop => exact onUnit_inv _ _ _ _ _ _ h ht fun _ => h.timerStop _
  case perfClear => exact onUnit_inv _ _ _ _ _ _ h ht fun _ => h.timerClear _
  case diagReset => exact execDiagReset_inv _ _ h ht
  case process => exact execProcess_inv _ _ h ht

/-! ## Buffers -/

theorem inRam_outBufOff (p : Params) (f k : Nat) (hf : f < p.maxFrames) (hk : k < 4) : inRam p (outBufOff f + k) := by
  simp only [outBufOff]; omega

theorem inRam_inBufOff (p : Params) (f k : Nat) (hf : f < p.maxFrames) (hk : k < 4) : inRam p (inBufOff f + k) := by
  simp only [inBufOff]; omega

theorem inRam_coefOff (p : Params) (n : Fin 2) (i k : Nat) (hi : i < p.firMaxTaps) (hk : k < 4) :
    inRam p (coefOff n i + k) := by
  simp only [coefOff]
  match n with
  | 0 => simp only [Fin.val_zero]; omega
  | 1 => simp only [Fin.val_one]; omega

/-- The invariant in a build with this many frames, what the paths keep frame by frame. -/
def InvWithFrames (maxFrames : Nat) (s : State) : Prop := s.Inv ∧ s.params.maxFrames = maxFrames

theorem InvWithFrames.writeOut {m f : Nat} {s : State} (w : Word) (hf : f < m) (h : InvWithFrames m s) :
    InvWithFrames m (writeOut f w s) :=
  ⟨h.1.setRam _ w fun k hk => inRam_outBufOff _ f k (by rw [h.2]; exact hf) hk, h.2⟩

/-- A path that keeps the invariant and the build keeps it over a whole buffer (R604). -/
theorem runFrames_inv (path : Word → State → State × Word) (s : State) (n : Nat) (h : s.Inv) (hn : n ≤ s.params.maxFrames)
    (hinv : ∀ w t, t.Inv → (path w t).1.Inv) (hparams : ∀ w t, (path w t).1.params = t.params) :
    (runFrames path 0 (inFrames s n) s).Inv := by
  have key : InvWithFrames s.params.maxFrames (runFrames path 0 (inFrames s n) s) :=
    runFrames_keeps _ path s.params.maxFrames (fun w t ht => ⟨hinv w t ht.1, by rw [hparams]; exact ht.2⟩)
      (fun _ w _ hf ht => ht.writeOut w hf) _ _ _ (by simpa using hn) ⟨h, rfl⟩
  exact key.1

theorem filterRun_inv (s : State) (n : Nat) (h : s.Inv) (hn : n ≤ s.params.maxFrames) :
    (filterRun 0 (inFrames s n) 0 s).1.Inv := by
  have key : InvWithFrames s.params.maxFrames (filterRun 0 (inFrames s n) 0 s).1 :=
    filterRun_keeps _ s.params.maxFrames (fun m x t ht => ⟨ht.1.firNext m x, ht.2⟩)
      (fun _ w _ hf ht => ht.writeOut w hf) _ _ _ _ (by simpa using hn) ⟨h, rfl⟩
  exact key.1

/-- The FILTER path: at most 16384 frames of at most 32768 each keep `FILT_DIFF` at most `2^29` (R611). -/
theorem filterPath_inv (n : Nat) (s : State) (h : s.Inv) (hn : n ≤ s.params.maxFrames) : (filterPath n s).Inv := by
  have hrun := filterRun_inv s n h hn
  refine ⟨hrun.params, hrun.lines, hrun.acc, hrun.timers, hrun.diag, hrun.pending, hrun.mem, ?_⟩
  have hdiff := filterRun_diff_le 0 (inFrames s n) 0 s
  have hmax : s.params.maxFrames ≤ 16384 := maxFrames_le_of_ok h.params
  rw [inFrames_length] at hdiff
  simp only [filterPath, BitVec.toNat_ofNat]
  omega

@[simp] theorem filterPath_diagState (n : Nat) (s : State) : (filterPath n s).diagState = s.diagState := by
  rw [filterPath_eq]

@[simp] theorem filterPath_diagCount (n : Nat) (s : State) : (filterPath n s).diagCount = s.diagCount := by
  rw [filterPath_eq]

@[simp] theorem timerStop_diagState (k : Fin 2) (s : State) : (timerStop k s).diagState = s.diagState := by
  rw [timerStop_eq]; split <;> rfl

@[simp] theorem timerStop_diagCount (k : Fin 2) (s : State) : (timerStop k s).diagCount = s.diagCount := by
  rw [timerStop_eq]; split <;> rfl

@[simp] theorem timerStart_diagState (k : Fin 2) (s : State) : (timerStart k s).diagState = s.diagState := rfl

@[simp] theorem timerStart_diagCount (k : Fin 2) (s : State) : (timerStart k s).diagCount = s.diagCount := rfl

/-! ## The diagnostic machine (R620 to R622) -/

theorem leaveWarmup_inv (s : State) (h : s.Inv) : (leaveWarmup s).Inv := by
  unfold leaveWarmup
  split
  · exact h.setDiag .samplingA 0#16 (perfSamples_range_of_ok h.params).1
  · exact h

/-- A machine that is still warming up after the check has warm-up buffers left. -/
theorem leaveWarmup_warmingUp (s : State) (h : (leaveWarmup s).diagState = .warmingUp) :
    (leaveWarmup s).diagCount.toNat < (leaveWarmup s).params.warmupBuffers := by
  unfold leaveWarmup at h ⊢
  split
  · next hc => simp [hc] at h
  · next hc =>
    rw [if_neg hc] at h
    simp only [h, true_and, not_le] at hc
    exact hc

theorem warmupBuffer_inv (n : Nat) (s : State) (h : s.Inv) (hn : n ≤ s.params.maxFrames) (hd : s.diagState = .warmingUp)
    (hc : s.diagCount.toNat < s.params.warmupBuffers) : (warmupBuffer n s).Inv := by
  have hw := warmupBuffers_le_of_ok h.params
  have hmoved : DiagOk { filterPath n s with diagState := .warmingUp, diagCount := s.diagCount + 1#16 } := by
    simp only [DiagOk, filterPath_params, BitVec.toNat_add, BitVec.toNat_ofNat]
    omega
  exact ((filterPath_inv n s h hn).setDiag _ _ hmoved).of_guarded_eq (by simp [State.guarded, warmupBuffer, hd])

theorem samplingABuffer_inv (n : Nat) (s : State) (h : s.Inv) (hn : n ≤ s.params.maxFrames)
    (hd : s.diagState = .samplingA) : (samplingABuffer n s).Inv := by
  have hpath := filterPath_inv n _ ((h.timerStart 1).timerStart 0) (by simpa using hn)
  have hcount : s.diagCount.toNat < s.params.perfSamples := by simpa [DiagOk, hd] using h.diag
  have hmoved : DiagOk { timerStop 0 (filterPath n (timerStart 0 (timerStart 1 s))) with
      diagState := .samplingB, diagCount := s.diagCount } := by simpa [DiagOk] using hcount
  exact ((hpath.timerStop 0).setDiag _ _ hmoved).of_guarded_eq (by simp [State.guarded, samplingABuffer])

theorem samplingBBuffer_inv (n : Nat) (s : State) (h : s.Inv) (hn : n ≤ s.params.maxFrames)
    (hd : s.diagState = .samplingB) : (samplingBBuffer n s).Inv := by
  have hpath := filterPath_inv n _ (h.timerStop 1) (by simpa using hn)
  have hcount : s.diagCount.toNat < s.params.perfSamples := by simpa [DiagOk, hd] using h.diag
  have hsamples := perfSamples_range_of_ok h.params
  have hnext : (s.diagCount + 1#16).toNat = s.diagCount.toNat + 1 := by
    rw [BitVec.toNat_add, BitVec.toNat_ofNat]; omega
  have hmoved : DiagOk { filterPath n (timerStop 1 s) with
      diagState := if s.params.perfSamples ≤ (s.diagCount + 1#16).toNat then .settled else .samplingA,
      diagCount := s.diagCount + 1#16 } := by
    by_cases hlast : s.params.perfSamples ≤ (s.diagCount + 1#16).toNat
    · simp only [DiagOk, hlast, if_true, filterPath_params, timerStop_params]; omega
    · simp only [DiagOk, hlast, if_false, filterPath_params, timerStop_params]; omega
  exact (hpath.setDiag _ _ hmoved).of_guarded_eq (by simp [State.guarded, samplingBBuffer])

theorem filterBuffer_inv (n : Nat) (s : State) (h : s.Inv) (hn : n ≤ s.params.maxFrames) : (filterBuffer n s).Inv := by
  have ht := leaveWarmup_inv s h
  have hwarm := leaveWarmup_warmingUp s
  rw [← leaveWarmup_params s] at hn
  unfold filterBuffer
  generalize leaveWarmup s = t at *
  simp only
  cases hd : t.diagState
  case warmingUp => exact warmupBuffer_inv n t ht hn hd (hwarm hd)
  case samplingA => exact samplingABuffer_inv n t ht hn hd
  case samplingB => exact samplingBBuffer_inv n t ht hn hd
  case settled => exact filterPath_inv n t ht hn

/-! ## Completion -/

theorem processBuffer_inv (m : Mode) (n : Nat) (s : State) (h : s.Inv) (hn : n ≤ s.params.maxFrames) :
    (processBuffer m n s).Inv := by
  cases m
  case stopped =>
    exact (runFrames_inv stoppedFrame s n h hn (fun _ _ ht => ht) fun _ _ => rfl).of_guarded_eq rfl
  case passThrough =>
    exact (runFrames_inv passFrame s n h hn (fun _ _ ht => ht) fun _ _ => rfl).of_guarded_eq rfl
  case filter => exact filterBuffer_inv n s h hn
  case sineGenerator =>
    exact (runFrames_inv sineFrame s n h hn (fun _ _ ht => ht.of_guarded_eq rfl) fun _ _ => rfl).of_guarded_eq rfl
  case test =>
    exact (runFrames_inv testFrame s n h hn (fun w _ ht => ht.reverbRun (mono w))
      fun _ _ => reverbRun_params _ _).of_guarded_eq rfl

theorem completeProcess_inv (s : State) (h : s.Inv) : (completeProcess s).Inv := by
  unfold completeProcess
  split
  · exact h
  · next p hp =>
    obtain ⟨⟨-, hframes⟩, -⟩ := h.pending p hp
    have hbuf := processBuffer_inv p.mode p.frames s.newEpoch h.newEpoch hframes
    exact ⟨hbuf.params, hbuf.lines, hbuf.acc, hbuf.timers, hbuf.diag, (fun _ hq => by cases hq), hbuf.mem, hbuf.filtDiff⟩

/-! ## The bus -/

theorem readReg_inv (s : State) (r : Reg) (h : s.Inv) : (readReg s r).1.Inv := by
  unfold readReg
  split_ifs <;> exact h.of_guarded_eq rfl

theorem busRead_inv (off width : Nat) (s : State) (h : s.Inv) : (busRead off width s).1.Inv := by
  unfold busRead
  split
  · exact h.raiseError _ _
  · split
    · exact h.raiseError _ _
    · exact readReg_inv _ _ h

/-- A soft reset keeps the RAM words and gives every other guarded field its reset value (R801). -/
theorem softReset_inv (s : State) (h : s.Inv) : (softReset s).Inv := by
  have hr := resetOf_inv s.params h.params
  exact ⟨hr.params, hr.lines, hr.acc, hr.timers, hr.diag, hr.pending, h.mem, hr.filtDiff⟩

theorem powerOnReset_inv (s : State) (h : s.Inv) : (powerOnReset s).Inv :=
  (resetOf_inv s.params h.params).of_guarded_eq rfl

/-- `FRAMES` is written in an idle block only, so no pending buffer loses its frame count (R118, R602). -/
theorem writeReg_inv (s : State) (v : Word) (r : Reg) (h : s.Inv) (hb : inBounds s.params r)
    (hacc : (s.busy && (writeAccess r == .whileIdle)) = false) : (writeReg s v r).Inv := by
  cases r
  case ctrl =>
    simp only [writeReg]
    split
    · exact softReset_inv s h
    · exact h
  case frames =>
    have hnone : s.pending = none := by simpa [writeAccess, State.busy] using hacc
    exact ⟨h.params, h.lines, h.acc, h.timers, h.diag, (fun p hp => by simp [writeReg, hnone] at hp),
      h.mem, h.filtDiff⟩
  case wide w hi => cases w <;> exact h.of_guarded_eq rfl
  case coef n i => exact h.setRam _ _ fun k hk => inRam_coefOff _ n i k hb hk
  case inBuf f => exact h.setRam _ _ fun k hk => inRam_inBufOff _ f k hb hk
  all_goals exact h.of_guarded_eq rfl

theorem busWrite_inv (off width : Nat) (v : Word) (s : State) (h : s.Inv) : (busWrite off width v s).Inv := by
  unfold busWrite
  split
  · exact h.raiseError _ _
  · split
    · exact h.raiseError _ _
    · next r hr =>
      split
      · exact h.raiseError _ _
      · next hacc => exact writeReg_inv s v r h (inBounds_of_regAt _ _ _ hr) (Bool.eq_false_iff.2 hacc)

/-! ## The step -/

theorem takeEvent_inv (e : Event) (rest : List Event) (s : State) (h : s.Inv) : (takeEvent e rest s).Inv := by
  cases e <;> exact h.of_guarded_eq rfl

theorem serveEvent_inv (e : Event) (s t : State) (h : s.Inv) (ht : serveEvent e s = .next t) : t.Inv := by
  cases e <;> simp only [serveEvent] at ht
  case read => split at ht <;> cases ht; exact (busRead_inv _ _ s h).of_guarded_eq rfl
  case write => split at ht <;> cases ht; exact busWrite_inv _ _ _ s h
  case sequencer => cases ht; exact completeProcess_inv s h
  case powerOn => cases ht; exact powerOnReset_inv s h

theorem runCommand_inv (w : Word) (s t : State) (h : s.Inv) (ht : runCommand w s = .next t) : t.Inv := by
  unfold runCommand at ht
  split at ht
  · exact exec_inv _ (latchCommand w s) t (h.of_guarded_eq rfl) ht
  · cases ht; exact h.raiseError _ _

/-- Settles O56: the sequencer's turn, the accepted command and the served event each keep the invariant. -/
theorem everyStepKeepsTheInvariant : Obligations.EveryStepKeepsTheInvariant := by
  intro s t h ht
  unfold step at ht
  split at ht
  · cases ht; exact completeProcess_inv s h
  · split at ht
    · exact runCommand_inv _ _ t (takeEvent_inv _ _ s h) ht
    · exact serveEvent_inv _ _ t (takeEvent_inv _ _ s h) ht

end Sys2Proof.Machine
end

section
/-!
PROOFS. Register and RAM writes (R63, R85, R102, R111, R118): what a host write stores, and that it reads back.
-/
namespace Sys2Proof.Machine

/-! ## Read-only words (R85) -/

theorem writeReg_readOnly (s : State) (v : Word) (r : Reg) (h : writeAccess r = .readOnly) : writeReg s v r = s := by
  cases r
  case wide w hi => cases w <;> simp [writeAccess] at h
  case ctrl | intStatus | intEn | errCode | mode | frames | inFlags | opa | opb | gainComb | gainAp | filtThresh
    | perfCal | coef | inBuf => simp [writeAccess] at h
  all_goals rfl

theorem step_write_readOnly (s : State) (a : Actor) (r : Reg) (v : Word) (rest : List Event) (hm : Mapped s.params r)
    (hro : writeAccess r = .readOnly) (hi : s.inbox = .write a (s.params.base + regOff r) 4 v :: rest) :
    step s = .next { s with inbox := rest, ramEpoch := s.ramEpoch + 1 } := by
  have hcmd : r ≠ .cmd := by rintro rfl; cases hro
  rw [step_write s a r v rest hm hcmd (by simp [hro]) hi, writeReg_readOnly _ _ _ hro]

/-- Settles O45: every register it lists is read-only in R104's table. -/
theorem readOnlyWritesAreIgnored : Obligations.ReadOnlyWritesAreIgnored := by
  intro s a r v rest hok hb hr hi
  refine step_write_readOnly s a r v rest (mapped_of_inBounds _ hok r hb) ?_ hi
  rcases hr with hr | ⟨t, rfl⟩ | ⟨t, rfl⟩ | ⟨u, rfl⟩ | ⟨t, i, rfl⟩ | ⟨f, rfl⟩
  · have hlist : ∀ r ∈ [Reg.id, .version, .status, .errInfo, .outFlags, .res, .acc false, .acc true, .filtDiff, .cycleLo,
        .cycleHi, .diagCount, .perfFrames, .paramMirror, .paramMaxFrames, .paramFirMaxTaps, .paramPerfSamples,
        .paramWarmup, .paramAccWidth], writeAccess r = .readOnly := by decide
    exact hlist r hr
  all_goals rfl

/-! ## Halves of 64-bit registers (R53, R111) -/

theorem halfOf_withHalf (v : DWord) (hi : Bool) (w : Word) : halfOf (withHalf v hi w) hi = w := by
  cases hi
  · exact BitVec.extractLsb'_append_eq_right
  · exact BitVec.extractLsb'_append_eq_left

theorem halfOf_withHalf_not (v : DWord) (hi : Bool) (w : Word) : halfOf (withHalf v hi w) (!hi) = halfOf v (!hi) := by
  cases hi
  · exact BitVec.extractLsb'_append_eq_left
  · exact BitVec.extractLsb'_append_eq_right

theorem wide_setWide (s : State) (r : WideReg) (v : DWord) (r' : WideReg) :
    (s.setWide r v).wide r' = if r' = r then v else s.wide r' := by
  cases r <;> cases r' <;> rfl

/-- A write of a 64-bit register changes the 64-bit registers only. -/
theorem setWide_eq (s : State) (r : WideReg) (v : DWord) :
    s.setWide r v = { s with
      fopa := (s.setWide r v).fopa, fopb := (s.setWide r v).fopb, osc := (s.setWide r v).osc,
      chorus := (s.setWide r v).chorus } := by
  cases r <;> rfl

/-! ## Flag bits (R60, R66) -/

theorem bit_getLsbD (v : Word) (i : Nat) : bit (v.getLsbD i) = v.toNat / 2 ^ i % 2 := by
  simp only [bit, BitVec.getLsbD, Nat.testBit_eq_decide_div_mod_eq, decide_eq_true_eq]
  split <;> omega

theorem ofNat_bit_zero (v : Word) : BitVec.ofNat 32 (bit (v.getLsbD 0)) = v &&& 1#32 := by
  apply BitVec.eq_of_toNat_eq
  have h := Nat.and_two_pow_sub_one_eq_mod v.toNat 1
  simp only [bit_getLsbD, BitVec.toNat_ofNat, BitVec.toNat_and]
  norm_num at h ⊢
  omega

theorem ofNat_bits_zero_one (v : Word) : BitVec.ofNat 32 (bit (v.getLsbD 0) + 2 * bit (v.getLsbD 1)) = v &&& 3#32 := by
  apply BitVec.eq_of_toNat_eq
  have h := Nat.and_two_pow_sub_one_eq_mod v.toNat 2
  simp only [bit_getLsbD, BitVec.toNat_ofNat, BitVec.toNat_and]
  norm_num at h ⊢
  omega

/-! ## Read-write registers -/

/-- A gain write replaces that gain and no other (R68). -/
theorem getElem_set_gain {n : Nat} (g : Vector Half n) (k : Fin n) (x : Half) :
    (g.set k x)[k] = x ∧ ∀ j, j ≠ k → (g.set k x)[j] = g[j] :=
  ⟨Vector.getElem_set_self _, fun _ hj => Vector.getElem_set_ne _ _ fun e => hj (Fin.ext e.symm)⟩

/-- Settles O46: an accepted write is `writeReg`, whose value each register stores in its own field. -/
theorem registerWritesReadBack : Obligations.RegisterWritesReadBack := by
  intro s a r v rest hok hidle hi hb
  have hstep : r ≠ .cmd → step s = .next (writeReg { s with inbox := rest, ramEpoch := s.ramEpoch + 1 } v r) :=
    fun hcmd => step_write_idle s a r v rest (mapped_of_inBounds _ hok r hb) hcmd hidle hi
  refine ⟨?opa, ?opb, ?filtThresh, ?perfCal, ?frames, ?gainComb, ?gainAp, ?inFlags, ?intEn, ?wide⟩
  case opa | opb | filtThresh | perfCal => rintro rfl; exact hstep (by decide)
  case frames => rintro rfl; exact ⟨_, hstep (by decide), rfl⟩
  case gainComb =>
    rintro k rfl
    obtain ⟨hself, hother⟩ := getElem_set_gain s.gainComb k (v.extractLsb' 0 16)
    exact ⟨_, hstep (by simp), rfl, congrArg (·.setWidth 32) hself, hother⟩
  case gainAp =>
    rintro k rfl
    obtain ⟨hself, hother⟩ := getElem_set_gain s.gainAp k (v.extractLsb' 0 16)
    exact ⟨_, hstep (by simp), rfl, congrArg (·.setWidth 32) hself, hother⟩
  case inFlags => rintro rfl; exact ⟨_, hstep (by decide), rfl, ofNat_bit_zero v⟩
  case intEn => rintro rfl; exact ⟨_, hstep (by decide), rfl, ofNat_bits_zero_one v⟩
  case wide =>
    rintro w hi rfl
    refine ⟨_, hstep (by simp), setWide_eq _ _ _, ?_, ?_, fun w' h hw => ?_⟩
    · simp only [writeReg, regValue, wide_setWide, if_true, halfOf_withHalf]
    · simp only [writeReg, regValue, wide_setWide, if_true, halfOf_withHalf_not]; rfl
    · simp only [writeReg, regValue, wide_setWide, hw, if_false]; rfl

/-! ## RAM words (R73, R83, R102) -/

theorem and_lowHalf (v : Word) : v &&& 0x0000FFFF#32 = (v.extractLsb' 0 16).setWidth 32 := by
  apply BitVec.eq_of_toNat_eq
  have h : v.toNat &&& 65535 = v.toNat % 65536 := Nat.and_two_pow_sub_one_eq_mod v.toNat 16
  simp only [BitVec.toNat_and, BitVec.toNat_setWidth, BitVec.extractLsb'_toNat, BitVec.reduceToNat, Nat.shiftRight_zero, h]
  omega

theorem lowHalf_setWidth (h : Half) : (h.setWidth 32).extractLsb' 0 16 = h := by
  rw [BitVec.extractLsb'_setWidth_of_le (by decide), BitVec.extractLsb'_eq_self]

/-- A coefficient write stores the low half of the word (R73). -/
theorem coefWord_write (s : State) (n : Fin 2) (i : Nat) (v : Word) :
    (writeReg s v (.coef n i)).coefWord n i = (v.extractLsb' 0 16).setWidth 32 := by
  rw [writeReg, State.coefWord, ramWord_setRam _ _ _ _ (.inl rfl), if_pos rfl, and_lowHalf, and_lowHalf, lowHalf_setWidth]

/-- Settles O47: the write stores the word's four bytes, or the low half's and two zeros, at the register's offset. -/
theorem ramWritesReadBack : Obligations.RamWritesReadBack := by
  intro s a v rest hok hidle
  refine ⟨fun f hf hi => ?_, fun n i hn hi => ?_⟩
  · rw [Nat.add_assoc] at hi
    have hm : Mapped s.params (.inBuf f) := mapped_of_inBounds _ hok _ hf
    refine ⟨_, step_write_idle s a (.inBuf f) v rest hm (by simp) hidle hi, ?_, rfl, fun k hk => ?_, fun x hx => ?_⟩
    · rw [writeReg, regValue, ramWord_setRam _ _ _ _ (.inl rfl), if_pos rfl]
    · simp [writeReg, State.setRam, Memory.get_setWord, inBufOff, hk, byteOf]
    · simp only [writeReg, State.setRam, Memory.get_setWord, inBufOff, hx, if_false]
  · rw [Nat.add_assoc, Nat.add_assoc, ← Nat.add_assoc 0x1000] at hi
    have hm : Mapped s.params (.coef n i) := mapped_of_inBounds _ hok _ hn
    refine ⟨_, step_write_idle s a (.coef n i) v rest hm (by simp) hidle hi, coefWord_write _ n i v, ?_, rfl, fun x hx => ?_⟩
    · rw [State.coef, coefWord_write, lowHalf_setWidth, sext16]
    · simp only [writeReg, State.setRam, Memory.get_setWord, coefOff, hx, if_false]

/-! ## `MODE` (R63) -/

theorem modeOfWord_of_gt (v : Word) (h : 4 < v.toNat) : modeOfWord v = none := by
  unfold modeOfWord
  split
  case h_6 => rfl
  all_goals omega

/-- Settles O48: `MODE` is written at any time, through `modeOfWord`. -/
theorem modeWritesAreFiltered : Obligations.ModeWritesAreFiltered := by
  intro s a v rest hi
  have hm : Mapped s.params .mode := mapped_of_mem_fixedRegs _ _ (by decide)
  refine ⟨(modeOfWord v).getD s.mode, step_write s a .mode v rest hm (by decide) (by simp [writeAccess]) hi,
    ?stopped, ?passThrough, ?filter, ?sineGenerator, ?test, fun hv => by rw [modeOfWord_of_gt v hv]; rfl⟩
  case stopped | passThrough | filter | sineGenerator | test => rintro rfl; rfl

/-! ## `INT_STATUS` and `ERR_CODE` (R59, R61, R710, R711) -/

theorem statusWord_err_eq_false (s : State) (h : s.errCode = .none) : s.statusWord.getLsbD 1 = false :=
  Bool.eq_false_iff.2 fun hset => (statusWord_fields s).err.1 hset h

/-- Settles O51: both registers are written at any time. -/
theorem interruptsAndErrorClears : Obligations.InterruptsAndErrorClears := by
  intro s v
  refine ⟨by simp [State.irq], by simp [writeReg, clearInterrupts], ?_, fun a rest => ⟨fun hi => ?_, fun hi => ?_⟩⟩
  · exact ⟨rfl, rfl, rfl, rfl, statusWord_err_eq_false _ rfl⟩
  · have hm : Mapped s.params .intStatus := mapped_of_mem_fixedRegs _ _ (by decide)
    exact ⟨_, step_write s a .intStatus v rest hm (by decide) (by simp [writeAccess]) hi, rfl, twoBits_word _ _⟩
  · have hm : Mapped s.params .errCode := mapped_of_mem_fixedRegs _ _ (by decide)
    exact ⟨_, step_write s a .errCode v rest hm (by decide) (by simp [writeAccess]) hi, rfl, rfl, rfl,
      statusWord_err_eq_false _ rfl⟩

end Sys2Proof.Machine
end

section
/-!
PROOFS. Host reads (R77, R109, R119, R551): an idle read returns the register's value and changes nothing; a read while
busy of what a `PROCESS` writes is a draw; a `CYCLE_LO` read draws the counter and latches its high half.
-/
namespace Sys2Proof.Machine

/-- No register's value depends on the accesses still to be served. -/
theorem regValue_inbox (s : State) (rest : List Event) (r : Reg) : regValue { s with inbox := rest } r = regValue s r := by
  cases r
  case wide w hi => cases w <;> rfl
  all_goals rfl

/-! ## What one read does -/

theorem readReg_plain (s : State) (r : Reg) (hd : (s.busy && drawnWhileBusy r) = false)
    (hs : (s.busy && (r == .status)) = false) (hc : r ≠ .cycleLo) : readReg s r = (s, regValue s r) := by
  simp [readReg, hd, hs, hc]

theorem readReg_drawn (s : State) (r : Reg) (hb : s.busy = true) (hd : drawnWhileBusy r = true) :
    readReg s r = (s.countDraw, s.busyDraw) := by
  simp [readReg, hb, hd]

theorem readReg_busy_status (s : State) (hb : s.busy = true) : readReg s .status = (s.countDraw, s.busyStatusWord) := by
  simp [readReg, hb, drawnWhileBusy]

theorem readReg_cycleLo (s : State) :
    readReg s .cycleLo =
      ({ s.readCycle with cycleShadow := s.nextCycle.extractLsb' 32 32 }, s.nextCycle.extractLsb' 0 32) := by
  simp [readReg, drawnWhileBusy, regValue]

/-- A step that serves a read without a draw only logs the register's value (R109). -/
theorem step_read_plain (s : State) (a : Actor) (r : Reg) (rest : List Event) (hm : Mapped s.params r)
    (hd : (s.busy && drawnWhileBusy r) = false) (hs : (s.busy && (r == .status)) = false) (hc : r ≠ .cycleLo)
    (hi : s.inbox = .read a (s.params.base + regOff r) 4 :: rest) :
    step s = .next { s with inbox := rest, readLog := ⟨a, regValue s r⟩ :: s.readLog } := by
  rw [step_read s a r rest hm hi, readReg_plain { s with inbox := rest } r hd hs hc, regValue_inbox, State.reply]

/-- Settles O49: `regValue` has the fields of `RegisterViews`, and an idle read returns it. -/
theorem readsHaveNoSideEffect : Obligations.ReadsHaveNoSideEffect := by
  intro s hok hidle
  refine ⟨regValue s, regValue_views s, fun a r rest hb hc hi => ?_⟩
  exact step_read_plain s a r rest (mapped_of_inBounds _ hok r hb) (by simp [hidle]) (by simp [hidle]) hc hi

/-! ## Reads while busy (R119) -/

/-- The registers whose read while busy is a draw, listed (R119). -/
theorem drawnWhileBusy_iff (r : Reg) :
    drawnWhileBusy r = true ↔
      r ∈ [Reg.outFlags, .filtDiff, .perfFrames, .diagCount] ∨ (∃ f, r = .outBuf f) ∨
      (∃ w hi, r = .wide w hi ∧ w ∈ [WideReg.oscW, .oscS0, .oscS1, .chSweep, .chStep]) ∨
      (∃ t, r = .perfStat t ∨ r = .perfMean t) ∨ ∃ t i, r = .perfSample t i := by
  cases r
  case wide w hi => cases w <;> simp [drawnWhileBusy]
  all_goals simp [drawnWhileBusy]

/-- `STATUS` while busy: bits 5:2 are the draw's, the others as usual (R119). -/
theorem busyStatusWord_getLsbD (s : State) (i : Nat) (hi : i < 32) :
    s.busyStatusWord.getLsbD i = if 2 ≤ i ∧ i ≤ 5 then s.busyDraw.getLsbD i else s.statusWord.getLsbD i := by
  have hmask : ∀ i < 32, (0x3C#32).getLsbD i = decide (2 ≤ i ∧ i ≤ 5) := by decide
  simp only [State.busyStatusWord, BitVec.getLsbD_or, BitVec.getLsbD_and, BitVec.getLsbD_not, hmask i hi, hi]
  by_cases h : 2 ≤ i ∧ i ≤ 5 <;> simp [h]

theorem busyStatusWord_busy (s : State) (hb : s.busy = true) : s.busyStatusWord.getLsbD 0 = true := by
  rw [busyStatusWord_getLsbD s 0 (by decide), if_neg (by decide), (statusWord_fields s).busy]
  exact Option.isSome_iff_ne_none.1 hb

/-- Settles O50: the three kinds of read while busy. -/
theorem busyReadsAreFree : Obligations.BusyReadsAreFree := by
  intro s hok hbusy
  refine ⟨regValue s, regValue_views s, fun a r rest hb hi => ?_⟩
  have hm := mapped_of_inBounds _ hok r hb
  simp only [← drawnWhileBusy_iff]
  refine ⟨fun hd => ?_, ?_, fun hd hs hc => ?_⟩
  · rw [step_read s a r rest hm hi, readReg_drawn { s with inbox := rest } r hbusy hd]; rfl
  · rintro rfl
    refine ⟨s.busyStatusWord, busyStatusWord_busy s hbusy, busyStatusWord_getLsbD s, ?_⟩
    rw [step_read s a _ rest hm hi, readReg_busy_status { s with inbox := rest } hbusy]; rfl
  · exact step_read_plain s a r rest hm (by simp [hd]) (by simp [hs]) hc hi

/-! ## The counter (R550, R551) -/

/-- A step that serves a read of `CYCLE_LO` draws the counter and latches its high half. -/
theorem step_read_cycleLo (s : State) (a : Actor) (rest : List Event)
    (hi : s.inbox = .read a (s.params.base + 0x100) 4 :: rest) :
    step s = .next { s with
      inbox := rest, readLog := ⟨a, s.nextCycle.extractLsb' 0 32⟩ :: s.readLog, cycle := s.nextCycle,
      cycleShadow := s.nextCycle.extractLsb' 32 32, draws := s.draws + 1 } := by
  rw [step_read s a .cycleLo rest (mapped_of_mem_fixedRegs _ _ (by decide)) hi,
    readReg_cycleLo { s with inbox := rest }]
  rfl

/-- Settles O28: the first read draws the value and latches its high half, which the second returns. -/
theorem cyclePairIsConsistent : Obligations.CyclePairIsConsistent := by
  intro s a b rest hi
  obtain ⟨hmono, hfree⟩ := nextCycle_spec s
  have hhi : Mapped s.params .cycleHi := mapped_of_mem_fixedRegs _ _ (by decide)
  exact ⟨_, _, s.nextCycle, step_read_cycleLo s a _ hi,
    step_read_plain _ b .cycleHi rest hhi (Bool.and_false _) (Bool.and_false _) (by decide) rfl, rfl, rfl, hmono, hfree⟩

end Sys2Proof.Machine
end

section
/-!
PROOFS. What each command can change (R50 to R83, R134): one inversion lemma for `exec`, and from it the frame of all
commands and the unit that each one writes.
-/
namespace Sys2Proof.Machine

/-! ## The effect of a command -/

/-- The commands that read their unit and write `RES` alone (R212 to R215, R257 to R262). -/
def writesOnlyRes : Instr → Bool
  | .accOut | .sati | .satf | .mulq15 | .dlLatest _ | .dlReadi _ _ | .dlReadr _ | .dlCursor _ | .dlRaw _ _ => true
  | _ => false

/-- The commands that `exec` may answer with a recorded error (R136, R262, R600). -/
def mayRecordError (i : Instr) : Prop := i.wellFormed = false ∨ (∃ u imm, i = .dlRaw u imm) ∨ i = .process

/-- What a command can do to a state: the updates it makes, with any values. -/
inductive CmdEffect (s : State) : Instr → State → Prop
  | nop : CmdEffect s .nop s
  | error (i : Instr) (c : ErrCode) (w : Word) (hi : mayRecordError i) : CmdEffect s i (raiseError c w s)
  | accSet (imm : Half) (v : Int) : CmdEffect s (.accSet imm) (s.setAcc v)
  | accMac (v : Int) : CmdEffect s .accMac (s.setAcc v)
  | res (i : Instr) (v : Int) (hi : writesOnlyRes i = true) : CmdEffect s i (s.setRes v)
  | dlWrite (u : BitVec 4) (k : Fin 9) (l : DelayLine) : CmdEffect s (.dlWrite u) (s.setLine k l)
  | dlClear (u : BitVec 4) (k : Fin 9) (l : DelayLine) : CmdEffect s (.dlClear u) (s.setLine k l)
  | firStep (u : BitVec 4) (k : Fin 2) (l : DelayLine) (v : Int) :
      CmdEffect s (.firStep u) ((s.setLine (firLine k) l).newEpoch.setRes v)
  | combStep (u : BitVec 4) (k : Fin 4) (l : DelayLine) (v : Int) :
      CmdEffect s (.combStep u) ((s.setLine (combLine k) l).setRes v)
  | apStep (u : BitVec 4) (k : Fin 2) (l : DelayLine) (v : Int) :
      CmdEffect s (.apStep u) ((s.setLine (apLine k) l).setRes v)
  | revStep (ls : Vector DelayLine 9) (v : Int)
      (hother : ∀ u : Fin 9, u.val ≤ 1 ∨ u.val = 8 → ls[u] = s.line u) :
      CmdEffect s .revStep (State.setRes { s with lines := ls } v)
  | chStep (l : DelayLine) (sweep step : DWord) (v : Int) :
      CmdEffect s .chStep
        (((s.setLine chorusLine l).setChorus { s.chorus with sweep := sweep, step := step }).setRes v)
  | oscStep (o : Osc) (v : Int) : CmdEffect s .oscStep ((s.setOsc o).setRes v)
  | oscSetfreq (o : Osc) : CmdEffect s .oscSetfreq (s.setOsc o)
  | perfStart (u : BitVec 4) (k : Fin 2) (x : Timer) : CmdEffect s (.perfStart u) (s.readCycle.setTimer k x)
  | perfStopRunning (u : BitVec 4) (k : Fin 2) (x : Timer) : CmdEffect s (.perfStop u) (s.readCycle.setTimer k x)
  | perfStopStopped (u : BitVec 4) : CmdEffect s (.perfStop u) s
  | perfClear (u : BitVec 4) (k : Fin 2) (x : Timer) : CmdEffect s (.perfClear u) (s.setTimer k x)
  | perfCalibrate (w : Word) : CmdEffect s .perfCalibrate { s.readCycle.readCycle with perfCal := w }
  | diagReset (ts : Vector Timer 2) (d : DiagState) (c : BitVec 16) (f : Word) :
      CmdEffect s .diagReset { s with timers := ts, diagState := d, diagCount := c, perfFrames := f }
  | process (m : Mode) (p : Option Pending) : CmdEffect s .process { s with modeLatched := m, pending := p }

/-- The sweep moves, and its bounds and the mix stay (R451). -/
theorem chAdvance_eq (c : Chorus) :
    chAdvance c = { c with sweep := (chAdvance c).sweep, step := (chAdvance c).step } := by
  unfold chAdvance
  dsimp only
  split_ifs <;> rfl

/-- The network writes the lines of the combs and the allpasses only (R400). -/
theorem reverbRun_line_other (x : Int) (s : State) (u : Fin 9) (h : u.val ≤ 1 ∨ u.val = 8) :
    (reverbRun x s).1.line u = s.line u := by
  have hcomb : ∀ k, u ≠ combLine k := fun k e => by have := congrArg Fin.val e; simp only [combLine] at this; omega
  have hap : ∀ k, u ≠ apLine k := fun k e => by have := congrArg Fin.val e; simp only [apLine] at this; omega
  simp only [reverbRun, combsRun_all, apNext, combNext, line_dlWrite, hcomb, hap, if_false]

theorem onUnit_effect (n : Nat) (u : BitVec 4) (i : Instr) (s t : State) (f : Fin n → State)
    (hrange : i.unitRange = some (u, n)) (h : onUnit n u i s f = .next t) (hf : ∀ k, CmdEffect s i (f k)) :
    CmdEffect s i t := by
  rcases onUnit_cases _ _ _ _ _ _ h with ⟨k, rfl⟩ | ⟨hu, rfl⟩
  · exact hf k
  · exact .error i _ _ (.inl (by simp [Instr.wellFormed, hrange, hu]))

theorem execDlRaw_effect (u : BitVec 4) (imm : Half) (s t : State) (h : execDlRaw u imm s = .next t) :
    CmdEffect s (.dlRaw u imm) t := by
  refine onUnit_effect _ _ _ _ _ _ rfl h fun k => ?_
  split
  · exact .error _ _ _ (.inr (.inl ⟨u, imm, rfl⟩))
  · exact .res _ _ rfl

theorem execPerfStop_effect (u : BitVec 4) (s t : State) (h : execPerfStop u s = .next t) :
    CmdEffect s (.perfStop u) t := by
  refine onUnit_effect _ _ _ _ _ _ rfl h fun k => ?_
  unfold timerStop
  split
  · exact .perfStopRunning _ _ _
  · exact .perfStopStopped _

theorem execRevStep_effect (s t : State) (h : execRevStep s = .next t) : CmdEffect s .revStep t := by
  cases h
  rw [reverbRun_eq]
  exact .revStep _ _ (reverbRun_line_other _ s)

theorem execChStep_effect (s t : State) (h : execChStep s = .next t) : CmdEffect s .chStep t := by
  cases h
  rw [chNext, chAdvance_eq]
  exact .chStep _ _ _ _

theorem execProcess_effect (s t : State) (h : execProcess s = .next t) : CmdEffect s .process t := by
  simp only [execProcess] at h
  split at h <;> cases h
  · exact .error _ _ _ (.inr (.inr rfl))
  · exact .process _ _

/-- All that a command can do. -/
theorem exec_effect (i : Instr) (s t : State) (h : exec i s = .next t) : CmdEffect s i t := by
  cases i
  case nop => cases h; exact .nop
  case accSet => cases h; exact .accSet _ _
  case accMac => cases h; exact .accMac _
  case accOut | sati | satf | mulq15 => cases h; exact .res _ _ rfl
  case dlWrite => exact onUnit_effect _ _ _ _ _ _ rfl h fun _ => .dlWrite _ _ _
  case dlLatest | dlReadi | dlReadr | dlCursor => exact onUnit_effect _ _ _ _ _ _ rfl h fun _ => .res _ _ rfl
  case dlRaw => exact execDlRaw_effect _ _ _ _ h
  case dlClear => exact onUnit_effect _ _ _ _ _ _ rfl h fun _ => .dlClear _ _ _
  case firStep => exact onUnit_effect _ _ _ _ _ _ rfl h fun _ => .firStep _ _ _ _
  case combStep => exact onUnit_effect _ _ _ _ _ _ rfl h fun _ => .combStep _ _ _ _
  case apStep => exact onUnit_effect _ _ _ _ _ _ rfl h fun _ => .apStep _ _ _ _
  case revStep => exact execRevStep_effect _ _ h
  case chStep => exact execChStep_effect _ _ h
  case oscStep => cases h; exact .oscStep _ _
  case oscSetfreq => cases h; exact .oscSetfreq _
  case perfStart => exact onUnit_effect _ _ _ _ _ _ rfl h fun _ => .perfStart _ _ _
  case perfStop => exact execPerfStop_effect _ _ _ h
  case perfClear => exact onUnit_effect _ _ _ _ _ _ rfl h fun _ => .perfClear _ _ _
  case perfCalibrate => cases h; exact .perfCalibrate _
  case diagReset => cases h; exact .diagReset _ _ _ _
  case process => exact execProcess_effect _ _ h

/-! ## The frame of all commands -/

/-- Settles O59: no effect touches the fields of the frame. -/
theorem commandFrame : Obligations.CommandFrame := by
  intro i s t h
  cases exec_effect i s t h <;>
    exact ⟨rfl, rfl, rfl, rfl, rfl, rfl, rfl, rfl, rfl, rfl, rfl, rfl, rfl, rfl, rfl, rfl, rfl, rfl, rfl, rfl, rfl, rfl, rfl,
      fun _ => rfl⟩

/-! ## The unit of each command -/

section EffectOn
variable {s t : State} {i : Instr}

theorem CmdEffect.acc_eq (h : CmdEffect s i t) (hset : ∀ imm, i ≠ .accSet imm) (hmac : i ≠ .accMac) : t.acc = s.acc := by
  cases h
  case accSet imm _ => exact absurd rfl (hset imm)
  case accMac => exact absurd rfl hmac
  all_goals rfl

theorem CmdEffect.osc_eq (h : CmdEffect s i t) (hstep : i ≠ .oscStep) (hfreq : i ≠ .oscSetfreq) : t.osc = s.osc := by
  cases h
  case oscStep => exact absurd rfl hstep
  case oscSetfreq => exact absurd rfl hfreq
  all_goals rfl

theorem CmdEffect.chorus_eq (h : CmdEffect s i t) (hstep : i ≠ .chStep) : t.chorus = s.chorus := by
  cases h
  case chStep => exact absurd rfl hstep
  all_goals rfl

theorem CmdEffect.perfCal_eq (h : CmdEffect s i t) (hcal : i ≠ .perfCalibrate) : t.perfCal = s.perfCal := by
  cases h
  case perfCalibrate => exact absurd rfl hcal
  all_goals rfl

theorem CmdEffect.timers_eq (h : CmdEffect s i t) (hstart : ∀ k, i ≠ .perfStart k) (hstop : ∀ k, i ≠ .perfStop k)
    (hclear : ∀ k, i ≠ .perfClear k) (hreset : i ≠ .diagReset) : t.timers = s.timers := by
  cases h
  case perfStart u _ _ => exact absurd rfl (hstart u)
  case perfStopRunning u _ _ => exact absurd rfl (hstop u)
  case perfClear u _ _ => exact absurd rfl (hclear u)
  case diagReset => exact absurd rfl hreset
  all_goals rfl

theorem CmdEffect.counter_eq (h : CmdEffect s i t) (hstart : ∀ k, i ≠ .perfStart k) (hstop : ∀ k, i ≠ .perfStop k)
    (hcal : i ≠ .perfCalibrate) : t.cycle = s.cycle ∧ t.draws = s.draws := by
  cases h
  case perfStart u _ _ => exact absurd rfl (hstart u)
  case perfStopRunning u _ _ => exact absurd rfl (hstop u)
  case perfCalibrate => exact absurd rfl hcal
  all_goals exact ⟨rfl, rfl⟩

theorem CmdEffect.diag_eq (h : CmdEffect s i t) (hreset : i ≠ .diagReset) :
    t.diagState = s.diagState ∧ t.diagCount = s.diagCount ∧ t.perfFrames = s.perfFrames := by
  cases h
  case diagReset => exact absurd rfl hreset
  all_goals exact ⟨rfl, rfl, rfl⟩

theorem CmdEffect.pending_eq (h : CmdEffect s i t) (hprocess : i ≠ .process) :
    t.pending = s.pending ∧ t.modeLatched = s.modeLatched := by
  cases h
  case process => exact absurd rfl hprocess
  all_goals exact ⟨rfl, rfl⟩

/-- A command changes a line only if it writes any line, or the line is its unit's (R70). -/
theorem CmdEffect.line_eq (h : CmdEffect s i t) (u : Fin 9) (hwrite : ∀ k, i ≠ .dlWrite k) (hclear : ∀ k, i ≠ .dlClear k)
    (hfir : u.val ≤ 1 → ∀ k, i ≠ .firStep k) (hcomb : 2 ≤ u.val ∧ u.val ≤ 5 → (∀ k, i ≠ .combStep k) ∧ i ≠ .revStep)
    (hap : 6 ≤ u.val ∧ u.val ≤ 7 → (∀ k, i ≠ .apStep k) ∧ i ≠ .revStep) (hch : u.val = 8 → i ≠ .chStep) :
    t.line u = s.line u := by
  cases h
  case dlWrite n _ _ => exact absurd rfl (hwrite n)
  case dlClear n _ _ => exact absurd rfl (hclear n)
  case firStep n k _ _ =>
    have hne : u ≠ firLine k := by rintro rfl; exact hfir (by simp only [firLine]; omega) n rfl
    exact (line_setLine _ _ _ _).trans (if_neg hne)
  case combStep n k _ _ =>
    have hne : u ≠ combLine k := by rintro rfl; exact (hcomb (by simp only [combLine]; omega)).1 n rfl
    exact (line_setLine _ _ _ _).trans (if_neg hne)
  case apStep n k _ _ =>
    have hne : u ≠ apLine k := by rintro rfl; exact (hap (by simp only [apLine]; omega)).1 n rfl
    exact (line_setLine _ _ _ _).trans (if_neg hne)
  case revStep ls _ hother =>
    refine hother u ?_
    by_contra hu
    rcases (by omega : (2 ≤ u.val ∧ u.val ≤ 5) ∨ (6 ≤ u.val ∧ u.val ≤ 7)) with hu | hu
    · exact (hcomb hu).2 rfl
    · exact (hap hu).2 rfl
  case chStep =>
    have hne : u ≠ chorusLine := by rintro rfl; exact hch rfl rfl
    exact (line_setLine _ _ _ _).trans (if_neg hne)
  all_goals rfl

/-- `RES` is kept by the commands that produce no value (R52). -/
theorem CmdEffect.res_eq (h : CmdEffect s i t)
    (hi : i ∈ [Instr.nop, .accMac, .oscSetfreq, .perfCalibrate, .diagReset, .process] ∨ (∃ imm, i = .accSet imm) ∨
      ∃ k, i = .dlWrite k ∨ i = .dlClear k ∨ i = .perfStart k ∨ i = .perfStop k ∨ i = .perfClear k) : t.res = s.res := by
  cases h
  case res _ hres => cases i <;> simp [writesOnlyRes] at hi hres
  case firStep | combStep | apStep | revStep | chStep | oscStep => simp at hi
  all_goals rfl

theorem CmdEffect.error_eq (h : CmdEffect s i t) (hwf : i.wellFormed = true) (hraw : ∀ u imm, i ≠ .dlRaw u imm)
    (hprocess : i ≠ .process) : t.errCode = s.errCode ∧ t.errInfo = s.errInfo ∧ t.intErr = s.intErr := by
  cases h
  case error _ _ hi =>
    rcases hi with hi | ⟨u, imm, rfl⟩ | rfl
    · simp [hwf] at hi
    · exact absurd rfl (hraw u imm)
    · exact absurd rfl hprocess
  all_goals exact ⟨rfl, rfl, rfl⟩

end EffectOn

/-- Settles O60, clause by clause from the effect of the command. -/
theorem commandsWriteOnlyTheirUnit : Obligations.CommandsWriteOnlyTheirUnit := by
  intro i s t h
  have e := exec_effect i s t h
  exact ⟨e.acc_eq, e.osc_eq, e.chorus_eq, e.perfCal_eq, e.timers_eq, e.counter_eq, e.diag_eq, e.pending_eq, e.line_eq,
    e.res_eq, e.error_eq⟩

end Sys2Proof.Machine
end

section
/-!
PROOFS. The values after power-on reset (R90, R712, R800, R802).
-/
namespace Sys2Proof.Machine

theorem timerFull_resetOf (p : Params) (t : Fin 2) (hp : 1 ≤ p.perfSamples) : (State.resetOf p).timerFull t = false := by
  have hne : 0 ≠ p.perfSamples := by omega
  rw [State.timerFull, timer_resetOf]
  exact decide_eq_false hne

theorem statusWord_resetOf (p : Params) (hp : 1 ≤ p.perfSamples) : (State.resetOf p).statusWord = 0#32 := by
  rw [State.statusWord, timerFull_resetOf p 0 hp, timerFull_resetOf p 1 hp]
  rfl

theorem timerStatWord_resetOf (p : Params) (t : Fin 2) (hp : 1 ≤ p.perfSamples) :
    (State.resetOf p).timerStatWord t = 0#32 := by
  rw [State.timerStatWord, timerFull_resetOf p t hp, timer_resetOf]
  rfl

/-- Of no samples the trimmed mean is 0 (R560). -/
theorem meanWord_resetOf (p : Params) (t : Fin 2) : (State.resetOf p).meanWord t = 0#32 := by
  rw [State.meanWord, timer_resetOf]
  rfl

theorem sample_resetOf (p : Params) (t : Fin 2) (i : Nat) : ((State.resetOf p).timer t).samples.getD i 0#32 = 0#32 := by
  rw [timer_resetOf, Timer.cleared, List.getD_eq_getElem?_getD, List.getElem?_replicate]
  split <;> rfl

theorem halfOf_zero (hi : Bool) : halfOf 0#64 hi = 0#32 := by cases hi <;> decide

theorem wide_resetOf (p : Params) (w : WideReg) : (State.resetOf p).wide w = 0#64 := by cases w <;> rfl

/-- The single registers that hold a value of R90, all 0, but `STATUS`. -/
theorem regValue_resetOf_single (p : Params) :
    ∀ r ∈ [Reg.opa, .opb, .res, .acc false, .acc true, .cmd, .ctrl, .intStatus, .intEn, .errCode, .errInfo, .mode,
      .frames, .inFlags, .outFlags, .filtDiff, .cycleHi, .perfCal, .diagCount, .perfFrames],
      regValue (State.resetOf p) r = 0#32 := by
  have hacc : ∀ hi, regValue (State.resetOf p) (.acc hi) = 0#32 := halfOf_zero
  simp only [List.forall_mem_cons]
  exact ⟨rfl, rfl, rfl, hacc false, hacc true, rfl, rfl, rfl, rfl, rfl, rfl, rfl, rfl, rfl, rfl, rfl, rfl, rfl, rfl, rfl,
    fun _ h => by cases h⟩

/-- Settles O53: the build is kept, every other field of the reset state is a constant or a cleared line or timer. -/
theorem resetValues : Obligations.ResetValues := by
  refine ⟨fun p r hr hp => ?_, fun p t hp => timerStatWord_resetOf p t hp, fun p => ?_, fun s rest hi => ?_⟩
  · rcases hr with hr | ⟨w, hi, rfl⟩ | ⟨k, rfl⟩ | ⟨k, rfl⟩ | ⟨t, i, rfl⟩ | ⟨t, rfl⟩
    · by_cases hs : r = .status
      · subst hs; exact statusWord_resetOf p hp
      · exact regValue_resetOf_single p r (by simpa [hs] using hr)
    · rw [regValue, wide_resetOf, halfOf_zero]
    · simp [regValue, State.resetOf]
    · simp [regValue, State.resetOf]
    · exact sample_resetOf p t i
    · exact meanWord_resetOf p t
  · exact ⟨rfl, rfl, rfl, line_resetOf p, timer_resetOf p, fun _ => rfl, rfl, rfl, rfl⟩
  · exact step_of_no_command s .powerOn rest hi rfl

end Sys2Proof.Machine
end

section
/-!
PROOFS. The address map (R104, R105): the rows and windows of the table against `regOff` and `regAt`, both ways.
-/
namespace Sys2Proof.Machine

/-! ## Single registers -/

/-- Every row of the table is a single register at its offset, with its access. -/
theorem addressMap_rows : ∀ row ∈ addressMap,
    row.2.1 ∈ fixedRegs ∧ regOff row.2.1 = row.1 ∧ writeAccess row.2.1 = row.2.2 := by decide

theorem mem_addressMap_of_mem_fixedRegs : ∀ r ∈ fixedRegs, (regOff r, r, writeAccess r) ∈ addressMap := by decide

/-! ## Windows -/

/-- Every window word below its parameter bound is a register in bounds at its offset, with its access. -/
theorem addressWindows_rows (p : Params) : ∀ row ∈ addressWindows p, ∀ i < row.2.2.1,
    inBounds p (row.2.1 i) ∧ regOff (row.2.1 i) = row.1 i ∧ writeAccess (row.2.1 i) = row.2.2.2 := by
  simp only [addressWindows, List.forall_mem_cons]
  exact ⟨fun _ h => ⟨h, rfl, rfl⟩, fun _ h => ⟨h, rfl, rfl⟩, fun _ h => ⟨h, rfl, rfl⟩, fun _ h => ⟨h, rfl, rfl⟩,
    fun _ h => ⟨h, rfl, rfl⟩, fun _ h => ⟨h, rfl, rfl⟩, fun _ h => by cases h⟩

/-- A register in bounds has a row of the table or is a word of one of its windows. -/
theorem row_or_window_of_inBounds (p : Params) (r : Reg) (hb : inBounds p r) :
    (∃ access, (regOff r, r, access) ∈ addressMap) ∨
      ∃ row ∈ addressWindows p, ∃ i < row.2.2.1, regOff r = row.1 i ∧ r = row.2.1 i := by
  simp only [addressWindows, List.exists_mem_cons_iff]
  rcases mem_fixedRegs_or_window r with h | ⟨t, i, rfl⟩ | ⟨n, i, rfl⟩ | ⟨f, rfl⟩ | ⟨f, rfl⟩
  · exact .inl ⟨_, mem_addressMap_of_mem_fixedRegs r h⟩
  · match t with
    | 0 => exact .inr (.inl ⟨i, hb, rfl, rfl⟩)
    | 1 => exact .inr (.inr (.inl ⟨i, hb, rfl, rfl⟩))
  · match n with
    | 0 => exact .inr (.inr (.inr (.inl ⟨i, hb, rfl, rfl⟩)))
    | 1 => exact .inr (.inr (.inr (.inr (.inl ⟨i, hb, rfl, rfl⟩))))
  · exact .inr (.inr (.inr (.inr (.inr (.inl ⟨f, hb, rfl, rfl⟩)))))
  · exact .inr (.inr (.inr (.inr (.inr (.inr (.inl ⟨f, hb, rfl, rfl⟩))))))

/-! ## From the offset to the register -/

/-- What is found at an aligned offset is the register with that offset (R104). -/
theorem regOff_of_regAt (p : Params) (off : Nat) (r : Reg) (halign : off % 4 = 0) (h : regAt p off = some r) :
    regOff r = off := by
  unfold regAt at h
  split at h
  · next hf => cases h; simpa using List.find?_some hf
  · unfold windowReg at h
    split_ifs at h <;> cases h <;>
      simp only [regOff, coefOff, inBufOff, outBufOff, Fin.val_zero, Fin.val_one] <;> omega

/-- At an offset of no register in bounds nothing is found (R105). -/
theorem regAt_eq_none (p : Params) (off : Nat) (halign : off % 4 = 0) (h : ∀ r, inBounds p r → regOff r ≠ off) :
    regAt p off = none := by
  rw [Option.eq_none_iff_forall_ne_some]
  intro r hr
  exact h r (inBounds_of_regAt p off r hr) (regOff_of_regAt p off r halign hr)

/-- Settles O42: the rows and the windows are what `regOff` says, and `regAt` inverts `regOff`. -/
theorem addressMapIsOneToOne : Obligations.AddressMapIsOneToOne := by
  intro p hok
  refine ⟨fun row hrow => ?_, fun row hrow i hi => ?_, fun off r halign hr => ?_, regAt_regOff p hok,
    fun off r halign hr => ⟨regOff_of_regAt p off r halign hr, inBounds_of_regAt p off r hr⟩⟩
  · obtain ⟨hmem, hoff, hacc⟩ := addressMap_rows row hrow
    exact ⟨hoff ▸ regAt_of_mem_fixedRegs p _ hmem, hoff, hacc⟩
  · obtain ⟨hb, hoff, hacc⟩ := addressWindows_rows p row hrow i hi
    exact ⟨hoff ▸ regAt_regOff p hok _ hb, hoff, hacc⟩
  · have hrow := row_or_window_of_inBounds p r (inBounds_of_regAt p off r hr)
    rwa [regOff_of_regAt p off r halign hr] at hrow

end Sys2Proof.Machine
end

section
/-!
PROOFS. The command port (R115, R118, R140): what one step does with a command word.
-/
namespace Sys2Proof.Machine

/-- A step whose oldest event is a 4-byte write of `CMD` runs the word written. -/
theorem step_command (s : State) (a : Actor) (w : Word) (rest : List Event)
    (hi : s.inbox = .write a (s.params.base + 0x30) 4 w :: rest) :
    step s = runCommand w { s with inbox := rest, ramEpoch := s.ramEpoch + 1 } := by
  have hc : commandOf s.params (.write a (s.params.base + 0x30) 4 w) = some w := by simp [commandOf]
  simp only [step, hi, hc, takeEvent, State.newEpoch]

theorem runCommand_busy (w : Word) (s : State) (hb : s.busy = true) :
    runCommand w s = .next (raiseError .busyCmd w s) := by
  simp [runCommand, acceptCommand, hb]

theorem runCommand_ok (w : Word) (s : State) (i : Instr) (hidle : s.busy = false) (hd : decode w = .ok i) :
    runCommand w s = exec i (latchCommand w s) := by
  simp [runCommand, acceptCommand, hidle, hd]

/-- Settles O5: an idle port accepts a word that decodes, and latches it before `exec`. -/
theorem stepRunsDecodedCommand : Obligations.StepRunsDecodedCommand := by
  intro s a w rest i hi hidle hd
  exact (step_command s a w rest hi).trans
    (runCommand_ok w { s with inbox := rest, ramEpoch := s.ramEpoch + 1 } i hidle hd)

end Sys2Proof.Machine
end

section
/-!
PROOFS. Any bus access (R100, R101, R105, R118): one step of an access in the window or outside it, the errors it records,
and what a write does while a buffer is running.
-/
namespace Sys2Proof.Machine

/-! ## The window (R100) -/

theorem windowOff_of_inWindow (p : Params) (addr : Nat) (hlo : p.base ≤ addr) (hhi : addr ≤ p.base + 0x3FFFF) :
    windowOff p addr = some (addr - p.base) := if_pos ⟨hlo, hhi⟩

theorem windowOff_of_outside (p : Params) (addr : Nat) (h : ¬ (p.base ≤ addr ∧ addr ≤ p.base + 0x3FFFF)) :
    windowOff p addr = none := if_neg h

/-- A step that serves a read in the window. -/
theorem step_read_inWindow (s t : State) (a : Actor) (addr width : Nat) (x : Word) (rest : List Event)
    (hlo : s.params.base ≤ addr) (hhi : addr ≤ s.params.base + 0x3FFFF) (hi : s.inbox = .read a addr width :: rest)
    (hr : busRead (addr - s.params.base) width { s with inbox := rest } = (t, x)) : step s = .next (t.reply a x) := by
  rw [step_of_no_command s _ rest hi rfl]
  simp only [serveEvent, takeEvent, windowOff_of_inWindow _ _ hlo hhi, hr]

/-- A step that serves a write in the window, other than a command word. -/
theorem step_write_inWindow (s t : State) (a : Actor) (addr width : Nat) (v : Word) (rest : List Event)
    (hlo : s.params.base ≤ addr) (hhi : addr ≤ s.params.base + 0x3FFFF)
    (hcmd : ¬ (width = 4 ∧ addr = s.params.base + 0x30)) (hi : s.inbox = .write a addr width v :: rest)
    (hw : busWrite (addr - s.params.base) width v { s with inbox := rest, ramEpoch := s.ramEpoch + 1 } = t) :
    step s = .next t := by
  rw [step_of_no_command s _ rest hi (if_neg hcmd)]
  simp only [serveEvent, takeEvent, State.newEpoch, windowOff_of_inWindow _ _ hlo hhi, hw]

/-- A step whose oldest event is an access outside the window stops. -/
theorem step_outsideWindow (s : State) (a : Actor) (addr width : Nat) (v : Word) (rest : List Event)
    (hi : s.inbox = .read a addr width :: rest ∨ s.inbox = .write a addr width v :: rest)
    (hout : ¬ (s.params.base ≤ addr ∧ addr ≤ s.params.base + 0x3FFFF)) : step s = .fault .outsideWindow := by
  rcases hi with hi | hi
  · rw [step_of_no_command s _ rest hi rfl]
    simp only [serveEvent, takeEvent, windowOff_of_outside _ _ hout]
  · have hcmd : ¬ (width = 4 ∧ addr = s.params.base + 0x30) := by omega
    rw [step_of_no_command s _ rest hi (if_neg hcmd)]
    simp only [serveEvent, takeEvent, State.newEpoch, windowOff_of_outside _ _ hout]

/-! ## Misaligned and unmapped accesses (R101, R105) -/

theorem busRead_misaligned (off width : Nat) (s : State) (h : width ≠ 4 ∨ off % 4 ≠ 0) :
    busRead off width s = (raiseError .busMisaligned (BitVec.ofNat 32 off) s, 0#32) := if_pos h

theorem busWrite_misaligned (off width : Nat) (v : Word) (s : State) (h : width ≠ 4 ∨ off % 4 ≠ 0) :
    busWrite off width v s = raiseError .busMisaligned (BitVec.ofNat 32 off) s := if_pos h

theorem busRead_unmapped (off width : Nat) (s : State) (h : ¬ (width ≠ 4 ∨ off % 4 ≠ 0))
    (hnone : regAt s.params off = none) :
    busRead off width s = (raiseError .busUnmapped (BitVec.ofNat 32 off) s, 0#32) := by
  rw [busRead, if_neg h, hnone]

theorem busWrite_unmapped (off width : Nat) (v : Word) (s : State) (h : ¬ (width ≠ 4 ∨ off % 4 ≠ 0))
    (hnone : regAt s.params off = none) :
    busWrite off width v s = raiseError .busUnmapped (BitVec.ofNat 32 off) s := by
  rw [busWrite, if_neg h, hnone]

/-- Settles O43: no such access is a command word, for `CMD` is mapped at an aligned offset. -/
theorem badAccessesRecordErrors : Obligations.BadAccessesRecordErrors := by
  intro s a addr width v rest hok hlo hhi off bad unmapped rd wr
  have hnone : unmapped → regAt s.params off = none := fun ⟨hgood, hfree⟩ =>
    regAt_eq_none s.params off (by simp only [bad] at hgood; omega) hfree
  have hcmd : bad ∨ unmapped → ¬ (width = 4 ∧ addr = s.params.base + 0x30) := by
    rintro h ⟨rfl, rfl⟩
    have hoff : off = 0x30 := Nat.add_sub_cancel_left _ _
    rcases h with hbad | ⟨-, hfree⟩
    · simp [bad, hoff] at hbad
    · exact hfree .cmd trivial hoff.symm
  refine ⟨fun hi => ⟨fun h => ?_, fun h => ?_⟩, fun hi => ⟨fun h => ?_, fun h => ?_⟩⟩
  · exact step_read_inWindow s _ a addr width _ rest hlo hhi hi (busRead_misaligned _ _ _ h)
  · exact step_read_inWindow s _ a addr width _ rest hlo hhi hi (busRead_unmapped _ _ _ h.1 (hnone h))
  · exact step_write_inWindow s _ a addr width v rest hlo hhi (hcmd (.inl h)) hi (busWrite_misaligned _ _ _ _ h)
  · exact step_write_inWindow s _ a addr width v rest hlo hhi (hcmd (.inr h)) hi
      (busWrite_unmapped _ _ _ _ h.1 (hnone h))

/-! ## Writes while busy (R118) -/

theorem busWrite_rejected (s : State) (r : Reg) (v : Word) (hm : Mapped s.params r) (hbusy : s.busy = true)
    (hacc : writeAccess r = .whileIdle) :
    busWrite (regOff r) 4 v s = raiseError .busyWrite (BitVec.ofNat 32 (regOff r)) s := by
  simp [busWrite, regOff_mod_four, hm.found, hbusy, hacc]

/-- A step that serves a write which the running buffer rejects. -/
theorem step_write_rejected (s : State) (a : Actor) (r : Reg) (v : Word) (rest : List Event) (hm : Mapped s.params r)
    (hbusy : s.busy = true) (hacc : writeAccess r = .whileIdle)
    (hi : s.inbox = .write a (s.params.base + regOff r) 4 v :: rest) :
    step s = .next (raiseError .busyWrite (BitVec.ofNat 32 (regOff r))
      { s with inbox := rest, ramEpoch := s.ramEpoch + 1 }) := by
  have hcmd : regOff r ≠ 0x30 := fun h => by rw [hm.eq_cmd h] at hacc; cases hacc
  refine step_write_inWindow s _ a _ 4 v rest (Nat.le_add_right _ _) (Nat.add_le_add_left hm.inWindow _)
    (by simp [hcmd]) hi ?_
  rw [Nat.add_sub_cancel_left]
  exact busWrite_rejected { s with inbox := rest, ramEpoch := s.ramEpoch + 1 } r v hm hbusy hacc

/-- A running buffer accepts writes of `FOPA` and `FOPB` and rejects those of the units' 64-bit registers (R118). -/
theorem writeAccess_wide (w : WideReg) (hi : Bool) (ha : w ≠ .fopa) (hb : w ≠ .fopb) :
    writeAccess (.wide w hi) = .whileIdle := by
  cases w
  case fopa => exact absurd rfl ha
  case fopb => exact absurd rfl hb
  all_goals rfl

/-- The registers whose write a running buffer rejects, listed (R118). -/
theorem writeAccess_whileIdle (r : Reg)
    (h : r = .frames ∨ r = .inFlags ∨ r = .filtThresh ∨ r = .perfCal ∨ (∃ k, r = .gainComb k) ∨ (∃ k, r = .gainAp k) ∨
      (∃ n i, r = .coef n i) ∨ (∃ f, r = .inBuf f) ∨ ∃ w hi, r = .wide w hi ∧ w ≠ .fopa ∧ w ≠ .fopb) :
    writeAccess r = .whileIdle := by
  rcases h with rfl | rfl | rfl | rfl | ⟨k, rfl⟩ | ⟨k, rfl⟩ | ⟨n, i, rfl⟩ | ⟨f, rfl⟩ | ⟨w, hi, rfl, ha, hb⟩
  any_goals rfl
  exact writeAccess_wide w hi ha hb

/-- Settles O44: the access column of each register decides whether its write is taken. -/
theorem busyWritesAreRejected : Obligations.BusyWritesAreRejected := by
  intro s a r v rest hok hbusy hi hb s'
  have hm := mapped_of_inBounds s.params hok r hb
  have htaken : writeAccess r = .always → step s = .next (writeReg s' v r) := fun hacc =>
    step_write s a r v rest hm (by rintro rfl; cases hacc) (by simp [hacc]) hi
  refine ⟨fun h => step_write_rejected s a r v rest hm hbusy (writeAccess_whileIdle r h) hi, ?cmd, ?opa, ?opb, ?intEn,
    ?errCode, ?fopa, ?fopb, ?mode, ?ctrl, fun hro => step_write_readOnly s a r v rest hm hro hi, ?intStatus⟩
  case cmd => rintro rfl; rw [step_command s a v rest hi, runCommand_busy v s' hbusy]
  case opa | opb | intEn | errCode | mode | ctrl | intStatus => rintro rfl; exact htaken rfl
  case fopa | fopb => rintro hi rfl; exact htaken rfl

end Sys2Proof.Machine
end

section
/-!
PROOFS. Who makes an access (R108, R740), and when a step stops (R100, R700, R730).
-/
namespace Sys2Proof.Machine

/-! ## The two actors -/

theorem busRead_readLog (off width : Nat) (s : State) : (busRead off width s).1.readLog = s.readLog := by
  unfold busRead
  split
  · rfl
  · split
    · rfl
    · unfold readReg
      split_ifs <;> rfl

/-- Settles O52: only the reply names the actor of an access. -/
theorem actorsHaveTheSameRights : Obligations.ActorsHaveTheSameRights := by
  refine fun s a b addr width v rest => ⟨rfl, fun t ht => ?_⟩
  by_cases hin : s.params.base ≤ addr ∧ addr ≤ s.params.base + 0x3FFFF
  · rcases hr : busRead (addr - s.params.base) width { s with inbox := rest } with ⟨u, x⟩
    have hlog : u.readLog = s.readLog := (congrArg (·.1.readLog) hr).symm.trans (busRead_readLog _ _ _)
    have hread : ∀ c, step { s with inbox := .read c addr width :: rest } = .next (u.reply c x) := fun c =>
      step_read_inWindow _ u c addr width x rest hin.1 hin.2 rfl hr
    cases (hread a).symm.trans ht
    exact ⟨x, congrArg _ hlog, (hread b).trans (by rw [State.reply, hlog]; rfl)⟩
  · cases ht.symm.trans (step_outsideWindow _ a addr width v rest (.inl rfl) hin)

/-! ## Stops -/

theorem onUnit_next (n : Nat) (u : BitVec 4) (i : Instr) (s : State) (f : Fin n → State) :
    ∃ t, onUnit n u i s f = .next t := by
  unfold onUnit
  split <;> exact ⟨_, rfl⟩

/-- Every command answers a next state, in every state. -/
theorem exec_next (i : Instr) (s : State) : ∃ t, exec i s = .next t := by
  cases i
  case process =>
    simp only [exec, execProcess]
    split <;> exact ⟨_, rfl⟩
  case nop | accSet | accMac | accOut | sati | satf | mulq15 | revStep | chStep | oscStep | oscSetfreq | perfCalibrate
    | diagReset => exact ⟨_, rfl⟩
  all_goals exact onUnit_next _ _ _ _ _

/-- So does the command port for every word: a rejected one records its error. -/
theorem runCommand_next (w : Word) (s : State) : ∃ t, runCommand w s = .next t := by
  unfold runCommand
  split
  · exact exec_next _ _
  · exact ⟨_, rfl⟩

/-- The oldest event, if it is an access, has its address in the window (R100). -/
abbrev OldestInWindow (s : State) : Prop :=
  ∀ (a : Actor) (addr width : Nat) (v : Word) (rest : List Event),
    (s.inbox = .read a addr width :: rest ∨ s.inbox = .write a addr width v :: rest) →
    s.params.base ≤ addr ∧ addr ≤ s.params.base + 0x3FFFF

theorem step_next_of_oldestInWindow (s : State) (h : OldestInWindow s) : ∃ t, step s = .next t := by
  rcases hi : s.inbox with _ | ⟨e, rest⟩
  · exact ⟨completeProcess s, by simp only [step, hi]⟩
  · cases e with
    | read a addr width =>
      obtain ⟨hlo, hhi⟩ := h a addr width 0 rest (.inl hi)
      exact ⟨_, step_read_inWindow s _ a addr width _ rest hlo hhi hi Prod.mk.eta.symm⟩
    | write a addr width v =>
      obtain ⟨hlo, hhi⟩ := h a addr width v rest (.inr hi)
      by_cases hcmd : width = 4 ∧ addr = s.params.base + 0x30
      · obtain ⟨rfl, rfl⟩ := hcmd
        rw [step_command s a v rest hi]
        exact runCommand_next v _
      · exact ⟨_, step_write_inWindow s _ a addr width v rest hlo hhi hcmd hi rfl⟩
    | sequencer => exact ⟨_, step_of_no_command s _ rest hi rfl⟩
    | powerOn => exact ⟨_, step_of_no_command s _ rest hi rfl⟩

/-- Settles O58: an oldest event outside the window stops the step, and no other does. -/
theorem stopsOnlyOutsideTheWindow : Obligations.StopsOnlyOutsideTheWindow := by
  intro s
  by_cases h : OldestInWindow s
  · exact .inr ⟨step_next_of_oldestInWindow s h, h⟩
  · simp only [OldestInWindow, not_forall] at h
    obtain ⟨a, addr, width, v, rest, hi, hout⟩ := h
    exact .inl ⟨step_outsideWindow s a addr width v rest hi hout, a, addr, width, v, rest, hi, by omega⟩

end Sys2Proof.Machine
end

section
/-!
PROOFS. Command words (R130 to R142): the decoder and the encoder invert each other, because the row that `rowOf` gives
an opcode and the commands that carry the opcode agree field by field.
-/
namespace Sys2Proof.Machine
open Sys2Proof.Laws.WordFields (opcode unit immediate)

/-! ## A command and its word -/

/-- A command's word is assembled from the command's own fields (R131, R134). -/
theorem encode_eq_mkWord (i : Instr) : encode i = mkWord (opcode i) (unit i) (immediate i) := by cases i <;> rfl

/-- A command is well formed when the unit it names is not beyond its opcode's range (R136). -/
theorem wellFormed_eq_not_unitBeyond (i : Instr) :
    i.wellFormed = !unitBeyond (i.unitRange.map Prod.snd) (unit i) := by
  unfold Instr.wellFormed unitBeyond unit
  cases i.unitRange with
  | none => rfl
  | some r => exact (decide_eq_decide.2 not_le.symm).trans decide_not

theorem unit_eq_zero_of_unused (i : Instr) (h : i.unitRange.map Prod.snd = none) : unit i = 0#4 := by
  simp [unit, Option.map_eq_none_iff.1 h]

/-! ## A row and its commands -/

/-- The row of a command's opcode has the command's range of units, leaves `IMM` unused only if the command has none, and
builds the command from its fields. -/
theorem rowOf_opcode (i : Instr) : ∃ row, rowOf (opcode i) = some row ∧ row.units = i.unitRange.map Prod.snd ∧
    (row.usesImm = false → immediate i = 0#16) ∧ row.build (unit i) (immediate i) = i := by
  cases i <;> exact ⟨_, rfl, rfl, by simp [plainRow, unitRow, immediate], rfl⟩

/-- What the row of an opcode builds has that opcode, the fields it was built from, and the row's range of units. -/
theorem fields_build (opc : BitVec 8) (row : Row) (h : rowOf opc = some row) (u : BitVec 4) (imm : Half)
    (hu : row.units = none → u = 0#4) (himm : row.usesImm = false → imm = 0#16) :
    opcode (row.build u imm) = opc ∧ unit (row.build u imm) = u ∧ immediate (row.build u imm) = imm ∧
      (row.build u imm).unitRange.map Prod.snd = row.units := by
  unfold rowOf at h
  split at h
  case h_28 => cases h
  all_goals
    next hopc =>
    cases h
    refine ⟨BitVec.eq_of_toNat_eq hopc.symm, ?_, ?_, rfl⟩
    · simp_all [plainRow, unitRow, unit, Instr.unitRange]
    · simp_all [plainRow, unitRow, immediate]

/-! ## The decoder, check by check (R140) -/

/-- `RSV`, or a field that the row leaves unused, is nonzero: the word fails the checks of R140 between the opcode's and
the unit's. -/
def ReservedFieldSet (row : Row) (w : Word) : Prop :=
  rsvOf w ≠ 0#4 ∨ (row.units = none ∧ unitOf w ≠ 0#4) ∨ (row.usesImm = false ∧ immOf w ≠ 0#16)

theorem not_reservedFieldSet_iff (row : Row) (w : Word) : ¬ ReservedFieldSet row w ↔
    rsvOf w = 0#4 ∧ (row.units = none → unitOf w = 0#4) ∧ (row.usesImm = false → immOf w = 0#16) := by
  simp [ReservedFieldSet]

theorem decode_of_no_row (w : Word) (h : rowOf (opcOf w) = none) : decode w = .error .illegalOpcode := by
  simp only [decode, h]

theorem decode_of_reservedFieldSet (w : Word) (row : Row) (h : rowOf (opcOf w) = some row)
    (hset : ReservedFieldSet row w) : decode w = .error .reservedField := by
  simp only [decode, h]
  rcases hset with hrsv | hunit | himm
  · rw [if_pos hrsv]
  · rw [if_pos hunit, ite_self]
  · rw [if_pos himm, ite_self, ite_self]

/-- A word with no reserved field set is left to the check of its unit. -/
theorem decode_of_row (w : Word) (row : Row) (h : rowOf (opcOf w) = some row) (hset : ¬ ReservedFieldSet row w) :
    decode w = if unitBeyond row.units (unitOf w) then .error .illegalUnit else .ok (row.build (unitOf w) (immOf w)) := by
  simp only [ReservedFieldSet, not_or] at hset
  obtain ⟨hrsv, hunit, himm⟩ := hset
  simp only [decode, h]
  rw [if_neg hrsv, if_neg hunit, if_neg himm]

/-- The decoder inverted: a word that decodes has a row and passes the row's checks. -/
theorem decode_eq_ok_iff (w : Word) (i : Instr) :
    decode w = .ok i ↔ ∃ row, rowOf (opcOf w) = some row ∧ ¬ ReservedFieldSet row w ∧
      unitBeyond row.units (unitOf w) = false ∧ row.build (unitOf w) (immOf w) = i := by
  rcases hrow : rowOf (opcOf w) with _ | row
  · simp [decode_of_no_row w hrow]
  · by_cases hset : ReservedFieldSet row w
    · simp [decode_of_reservedFieldSet w row hrow hset, hset]
    · cases hb : unitBeyond row.units (unitOf w) <;> simp [decode_of_row w row hrow hset, hset, hb]

/-- Settles O1: the row of the command's opcode accepts the command's fields and builds the command from them. -/
theorem decodeInvertsEncode : Obligations.DecodeInvertsEncode := by
  intro i hwf
  obtain ⟨row, hrow, hunits, himm, hbuild⟩ := rowOf_opcode i
  have hunit : row.units = none → unit i = 0#4 := fun hn => unit_eq_zero_of_unused i (hunits ▸ hn)
  rw [wellFormed_eq_not_unitBeyond, ← hunits, Bool.not_eq_true'] at hwf
  rw [encode_eq_mkWord, decode_eq_ok_iff]
  refine ⟨row, ?_⟩
  rw [not_reservedFieldSet_iff, opcOf_mkWord, unitOf_mkWord, rsvOf_mkWord, immOf_mkWord]
  exact ⟨hrow, ⟨rfl, hunit, himm⟩, hwf, hbuild⟩

/-- Settles O2: the command carries the fields of the word that its row built it from. -/
theorem encodeInvertsDecode : Obligations.EncodeInvertsDecode := by
  intro w i h
  obtain ⟨row, hrow, hset, hbeyond, rfl⟩ := (decode_eq_ok_iff w i).1 h
  obtain ⟨hrsv, hunit, himm⟩ := (not_reservedFieldSet_iff row w).1 hset
  obtain ⟨hopc, hu, hi, hunits⟩ := fields_build _ row hrow _ _ hunit himm
  constructor
  · rw [encode_eq_mkWord, hopc, hu, hi, mkWord_fields w hrsv]
  · rw [wellFormed_eq_not_unitBeyond, hu, hunits, hbeyond, Bool.not_false]

/-- Settles O3: each word is the encoding of its command, whose unit exists. -/
theorem wordsOfTheSpecDecode : Obligations.WordsOfTheSpecDecode :=
  ⟨decodeInvertsEncode (.dlReadi 2 0xFFFF) rfl, decodeInvertsEncode (.accSet 0x4000) rfl,
    decodeInvertsEncode (.firStep 1) rfl, decodeInvertsEncode (.combStep 3) rfl, decodeInvertsEncode (.apStep 1) rfl,
    decodeInvertsEncode .revStep rfl, decodeInvertsEncode .chStep rfl, decodeInvertsEncode .oscSetfreq rfl,
    decodeInvertsEncode (.perfStart 1) rfl, decodeInvertsEncode .process rfl, decodeInvertsEncode (.dlRaw 2 12) rfl,
    decodeInvertsEncode .nop rfl⟩

end Sys2Proof.Machine
end

section
/-!
PROOFS. The checks of R140 on a command word, by the rows of the spec's table and the fields of the word as numbers.
-/
namespace Sys2Proof.Machine

/-! ## The fields of a word as numbers (R130) -/

theorem toNat_opcOf (w : Word) : (opcOf w).toNat = w.toNat / 2 ^ 24 := by
  simp only [opcOf, BitVec.extractLsb'_toNat, Nat.shiftRight_eq_div_pow]
  omega

theorem toNat_unitOf (w : Word) : (unitOf w).toNat = w.toNat / 2 ^ 20 % 16 := by
  simp [unitOf, Nat.shiftRight_eq_div_pow]

theorem toNat_rsvOf (w : Word) : (rsvOf w).toNat = w.toNat / 2 ^ 16 % 16 := by
  simp [rsvOf, Nat.shiftRight_eq_div_pow]

theorem toNat_immOf (w : Word) : (immOf w).toNat = w.toNat % 2 ^ 16 := by
  simp [immOf]

/-! ## The spec's table and the decoder's (R134) -/

/-- The two tables have the same rows, where a row with `m` as its largest unit has `m + 1` units. -/
theorem rowOf_eq_opcodeMap (opc : BitVec 8) :
    (rowOf opc).map (fun row => (row.units, row.usesImm)) =
      (opcodeMap.find? (fun r => r.1 == opc.toNat)).map (fun r => (r.2.1.map (· + 1), r.2.2)) := by
  unfold rowOf
  split
  case h_28 =>
    have hnone : opcodeMap.find? (fun r => r.1 == opc.toNat) = none := by
      simp only [imp_false] at *
      simp [opcodeMap]
      omega
    rw [hnone, Option.map_none, Option.map_none]
  all_goals next hopc => rw [hopc]; rfl

theorem rowOf_eq_none_of_opcodeMap (w : Word) (h : opcodeMap.find? (fun r => r.1 == w.toNat / 2 ^ 24) = none) :
    rowOf (opcOf w) = none := by
  have hrow := rowOf_eq_opcodeMap (opcOf w)
  rwa [toNat_opcOf, h, Option.map_none, Option.map_eq_none_iff] at hrow

theorem rowOf_of_opcodeMap (w : Word) (k : Nat) (maxUnit : Option Nat) (usesImm : Bool)
    (h : opcodeMap.find? (fun r => r.1 == w.toNat / 2 ^ 24) = some (k, maxUnit, usesImm)) :
    ∃ row, rowOf (opcOf w) = some row ∧ row.units = maxUnit.map (· + 1) ∧ row.usesImm = usesImm := by
  have hrow := rowOf_eq_opcodeMap (opcOf w)
  rw [toNat_opcOf, h, Option.map_some, Option.map_eq_some_iff] at hrow
  obtain ⟨row, hrow, hfields⟩ := hrow
  exact ⟨row, hrow, Prod.mk.inj hfields⟩

theorem reservedFieldSet_iff (w : Word) (row : Row) (maxUnit : Option Nat) (hunits : row.units = maxUnit.map (· + 1)) :
    ReservedFieldSet row w ↔ w.toNat / 2 ^ 16 % 16 ≠ 0 ∨ (maxUnit = none ∧ w.toNat / 2 ^ 20 % 16 ≠ 0) ∨
      (row.usesImm = false ∧ w.toNat % 2 ^ 16 ≠ 0) := by
  simp only [ReservedFieldSet, hunits, Option.map_eq_none_iff, ← toNat_unitOf, ← toNat_rsvOf, ← toNat_immOf, ne_eq,
    ← BitVec.toNat_inj, BitVec.toNat_zero]

theorem unitBeyond_iff (w : Word) (row : Row) (maxUnit : Option Nat) (hunits : row.units = maxUnit.map (· + 1)) :
    unitBeyond row.units (unitOf w) = true ↔ ∃ m ∈ maxUnit, m < w.toNat / 2 ^ 20 % 16 := by
  rw [hunits, ← toNat_unitOf]
  cases maxUnit <;> simp [unitBeyond]

/-! ## The command port -/

theorem runCommand_rejected (w : Word) (s : State) (r : Reject) (hidle : s.busy = false) (hd : decode w = .error r) :
    runCommand w s = .next (raiseError (rejectError r) w s) := by
  simp [runCommand, acceptCommand, hidle, hd]

/-- Settles O4: the branches of the statement are the checks of `decode`, in its order. -/
theorem commandWordChecks : Obligations.CommandWordChecks := by
  intro s a w rest hi s' opc unit rsv imm
  have hstep : step s = runCommand w s' := step_command s a w rest hi
  split
  next hbusy => exact hstep.trans (runCommand_busy w s' hbusy)
  next hbusy =>
  have hidle : s.busy = false := Bool.eq_false_of_not_eq_true hbusy
  have rejected (r : Reject) (hd : decode w = .error r) : step s = .next (raiseError (rejectError r) w s') :=
    hstep.trans (runCommand_rejected w s' r hidle hd)
  split
  next hnone => exact rejected _ (decode_of_no_row w (rowOf_eq_none_of_opcodeMap w hnone))
  next k maxUnit usesImm hsome =>
  obtain ⟨row, hrow, hunits, rfl⟩ := rowOf_of_opcodeMap w k maxUnit usesImm hsome
  split
  next hset =>
    exact rejected _ (decode_of_reservedFieldSet w row hrow ((reservedFieldSet_iff w row maxUnit hunits).2 hset))
  next hset =>
  have hd := decode_of_row w row hrow (mt (reservedFieldSet_iff w row maxUnit hunits).1 hset)
  split
  next hunit => exact rejected _ (hd.trans (if_pos ((unitBeyond_iff w row maxUnit hunits).2 hunit)))
  next hunit =>
  have hok := hd.trans (if_neg (mt (unitBeyond_iff w row maxUnit hunits).1 hunit))
  exact ⟨_, (encodeInvertsDecode w _ hok).1, stepRunsDecodedCommand s a w rest _ hi hidle hok⟩

end Sys2Proof.Machine
end

section
/-!
PROOFS. Samples and their saturations (R12, R13, R15, R19): the model's arithmetic in the terms of the integers and the
rationals.
-/
namespace Sys2Proof.Machine

/-! ## Saturations (R11 to R13) -/

theorem sat16_eq_max_min (v : Int) : sat16 v = max (-32768) (min v 32767) := clamp_eq_max_min _ _ _ (by omega)

theorem satA_eq_max_min (width : Nat) (v : Int) :
    satA width v = max (-2 ^ (width - 1)) (min v (2 ^ (width - 1) - 1)) := by
  have hpos : (0 : Int) < 2 ^ (width - 1) := by positivity
  exact clamp_eq_max_min _ _ _ (by omega)

theorem asr_eq_fdiv (v : Int) (k : Nat) : asr v k = v.fdiv (2 ^ k) :=
  (Int.fdiv_eq_ediv_of_nonneg v (by positivity)).symm

theorem accToSample_eq_max_min (acc : Int) : accToSample acc = max (-32768) (min (acc.fdiv 32768) 32767) := by
  rw [accToSample, sat16_eq_max_min, asr_eq_fdiv]
  rfl

/-! ## Products of Samples (R19) -/

theorem sext16_isSample (v : Half) : IsSample (sext16 v) :=
  ⟨BitVec.le_toInt v, Int.le_of_lt_add_one BitVec.toInt_lt⟩

theorem mul_bounds_of_isSample {a b : Int} (ha : IsSample a) (hb : IsSample b) :
    -32767 * 32768 ≤ a * b ∧ a * b ≤ 32768 * 32768 := by
  obtain ⟨ha₁, ha₂⟩ := ha
  obtain ⟨hb₁, hb₂⟩ := hb
  constructor <;> nlinarith

/-- The largest product is that of the two most negative Samples alone. -/
theorem mul_eq_top_iff_of_isSample {a b : Int} (ha : IsSample a) (hb : IsSample b) :
    a * b = 32768 * 32768 ↔ a = -32768 ∧ b = -32768 := by
  constructor
  · intro h
    obtain ⟨ha₁, ha₂⟩ := ha
    obtain ⟨hb₁, hb₂⟩ := hb
    constructor <;> nlinarith
  · rintro ⟨rfl, rfl⟩
    rfl

theorem mulQ15_floor (a b : Int) : mulQ15 a b * 32768 ≤ a * b ∧ a * b < (mulQ15 a b + 1) * 32768 := by
  unfold mulQ15 asr
  omega

/-- The Q15 product of two Samples leaves the Sample range for the two most negative ones only (R19, R215). -/
theorem mulQ15_range {a b : Int} (ha : IsSample a) (hb : IsSample b) :
    -32767 ≤ mulQ15 a b ∧ mulQ15 a b ≤ 32768 ∧ (mulQ15 a b = 32768 ↔ a = -32768 ∧ b = -32768) := by
  rw [← mul_eq_top_iff_of_isSample ha hb]
  have hfloor := mulQ15_floor a b
  have hmul := mul_bounds_of_isSample ha hb
  omega

/-! ## Rounding half away from zero (R15, R18) -/

theorem rhazScale_true (m : Nat) (e : Int) : rhazScale true m e = -rhazScale false m e := by
  unfold rhazScale
  split <;> rfl

/-- A value that is not negative is rounded to the floor of the value and a half. -/
theorem rhazScale_false (m : Nat) (e : Int) : rhazScale false m e = ⌊exactValue false m e + 1 / 2⌋ := by
  unfold rhazScale
  split
  next he =>
    have hv := signedScale_mul_zpow false m he
    rw [sub_zero, zpow_zero, mul_one] at hv
    have hhalf : ⌊(1 / 2 : ℚ)⌋ = 0 := by norm_num
    rw [← hv, Int.floor_intCast_add, hhalf, add_zero]
  next he =>
    obtain ⟨k, rfl⟩ : ∃ k : ℕ, e = -k := ⟨(-e).toNat, by omega⟩
    have hv : exactValue false m (-k) + 1 / 2 = ((2 * m + 2 ^ k : ℕ) : ℚ) / ((2 * 2 ^ k : ℕ) : ℚ) := by
      rw [exactValue, zpow_neg, zpow_natCast]
      push_cast
      field_simp
      simp [signOf]
    rw [hv, Rat.floor_natCast_div_natCast, neg_neg, Int.toNat_natCast]
    simp [signedScale]

theorem exactValue_true (m : Nat) (e : Int) : exactValue true m e = -exactValue false m e := by
  simp [exactValue, signOf]

theorem exactValue_false_nonneg (m : Nat) (e : Int) : 0 ≤ exactValue false m e := by
  rw [exactValue, signOf, if_neg Bool.false_ne_true]
  positivity

/-- `rhaz` in the words of R15, for either sign; the negative zero is a zero. -/
theorem rhazScale_eq_floor (n : Bool) (m : Nat) (e : Int) :
    rhazScale n m e =
      if 0 ≤ exactValue n m e then ⌊exactValue n m e + 1 / 2⌋ else -⌊-exactValue n m e + 1 / 2⌋ := by
  have hnonneg := exactValue_false_nonneg m e
  cases n with
  | false => rw [if_pos hnonneg, rhazScale_false]
  | true =>
    rw [rhazScale_true, rhazScale_false, exactValue_true, neg_neg]
    rcases hnonneg.eq_or_lt with hzero | hpos
    · norm_num [← hzero]
    · rw [if_neg (by linarith)]

end Sys2Proof.Machine
end

section
/-!
PROOFS. The accumulator's commands (R210 to R215) and the accumulator of a FIR (R204, R301).
-/
namespace Sys2Proof.Machine

/-! ## Commands -/

theorem exec_accSet (imm : Half) (s : State) : exec (.accSet imm) s = .next (s.setAcc (sext16 imm)) := rfl

theorem exec_accMac (s : State) :
    exec .accMac s = .next (s.setAcc (satA s.params.accWidth (s.acc + opaSample s * opbSample s))) := rfl

theorem exec_accOut (s : State) : exec .accOut s = .next (s.setRes (accToSample s.acc)) := rfl

theorem exec_sati (s : State) : exec .sati s = .next (s.setRes (sat16 (opaInt s))) := rfl

theorem exec_satf (s : State) : exec .satf s = .next (s.setRes (satF s.fopa)) := rfl

theorem exec_mulq15 (s : State) :
    exec .mulq15 s = .next (s.setRes (mulQ15 (opaSample s) (opbSample s))) := rfl

/-- The upper half of a sign-extended Sample is its sign (R54, R210). -/
theorem halfOf_bits64_sext16 (v : Half) : halfOf (bits64 (sext16 v)) true = if v.msb then 0xFFFFFFFF#32 else 0#32 := by
  have hext : bits64 (sext16 v) = v.signExtend 64 := rfl
  rw [hext]
  apply BitVec.eq_of_getLsbD_eq
  intro i hi
  have hbit : (v.signExtend 64).getLsbD (32 + i) = v.msb := by
    rw [BitVec.getLsbD_signExtend, if_neg (by omega), decide_eq_true (by omega), Bool.true_and]
  have hhalf : (halfOf (v.signExtend 64) true).getLsbD i = v.msb := by simp [halfOf, hi, hbit]
  rw [hhalf]
  cases v.msb with
  | false => simp
  | true => exact (BitVec.getLsbD_allOnes.trans (decide_eq_true hi)).symm

/-- Settles O7: the immediate is stored sign-extended, so the upper half reads as its sign. -/
theorem accSetLoadsImmediate : Obligations.AccSetLoadsImmediate :=
  fun imm s => ⟨decodeInvertsEncode (.accSet imm) rfl, exec_accSet imm s, halfOf_bits64_sext16 imm⟩

/-- Settles O8: the accumulator's saturation is the clamp to its two bounds (`satA_eq_max_min`). -/
theorem accMacSaturates : Obligations.AccMacSaturates := by
  refine ⟨decodeInvertsEncode .accMac rfl, fun s => ?_⟩
  rw [exec_accMac, satA_eq_max_min]
  rfl

/-- Settles O9: the saturations by their bounds, the product by its floor (`mulQ15_floor`, `mulQ15_range`). -/
theorem integerResults : Obligations.IntegerResults := by
  refine ⟨decodeInvertsEncode .accOut rfl, decodeInvertsEncode .sati rfl, decodeInvertsEncode .mulq15 rfl,
    fun s => ⟨?_, ?_, mulQ15 (opaSample s) (opbSample s), exec_mulq15 s, ?_⟩⟩
  · rw [exec_accOut, accToSample_eq_max_min]
    rfl
  · rw [exec_sati, sat16_eq_max_min]
    rfl
  · obtain ⟨hlo, hhi⟩ := mulQ15_floor (opaSample s) (opbSample s)
    exact ⟨hlo, hhi, mulQ15_range (sext16_isSample _) (sext16_isSample _)⟩

/-- Settles O10: a finite operand is rounded by `rhazScale_eq_floor`. -/
theorem satfRoundsAndClamps : Obligations.SatfRoundsAndClamps := by
  refine ⟨decodeInvertsEncode .satf rfl, fun s => ⟨satF s.fopa, exec_satf s, ?_⟩⟩
  unfold satF
  cases fUnpack s.fopa with
  | nan => rfl
  | inf neg => rfl
  | fin neg m e => exact (sat16_eq_max_min _).trans (by rw [rhazScale_eq_floor]; rfl)

/-! ## The accumulator of a FIR -/

/-- The exact sum of the products of the first `taps` taps (R300). -/
def firSum (s : State) (n : Fin 2) (taps : Nat) : Int :=
  ((List.range taps).map fun i : Nat => dlAt s (firLine n) (i : Int) * s.coef n i).sum

theorem firSum_succ (s : State) (n : Fin 2) (taps : Nat) :
    firSum s n (taps + 1) = firSum s n taps + dlAt s (firLine n) taps * s.coef n taps := by
  simp [firSum, List.range_succ]

/-- Every product is of two Samples, hence at most `2 ^ 30` in size. -/
theorem firSum_bounds (s : State) (n : Fin 2) (taps : Nat) :
    -2 ^ 30 * (taps : Int) ≤ firSum s n taps ∧ firSum s n taps ≤ 2 ^ 30 * (taps : Int) := by
  induction taps with
  | zero => simp [firSum]
  | succ taps ih =>
    have hmul : -32767 * 32768 ≤ dlAt s (firLine n) taps * s.coef n taps ∧
        dlAt s (firLine n) taps * s.coef n taps ≤ 32768 * 32768 :=
      mul_bounds_of_isSample (sext16_isSample _) (sext16_isSample _)
    rw [firSum_succ]
    push_cast
    omega

/-- The accumulator is exact as long as the largest possible sum fits its width (R204, R301). -/
theorem firAcc_eq_sum (s : State) (n : Fin 2) (taps : Nat)
    (hfit : rnd + 2 ^ 30 * (taps : Int) < 2 ^ (s.params.accWidth - 1)) : firAcc s n taps = rnd + firSum s n taps := by
  induction taps with
  | zero => rfl
  | succ taps ih =>
    have hsum := firSum_bounds s n (taps + 1)
    have hrnd : rnd = 16384 := rfl
    push_cast at hfit hsum
    rw [firAcc, macStep, ih (by omega), add_assoc, ← firSum_succ]
    exact clamp_of_range _ _ _ (by omega)

/-- Settles O18: 511 products and the rounding constant fit 40 bits, so `firAcc_eq_sum` applies. -/
theorem firIsExactUpTo511Taps : Obligations.FirIsExactUpTo511Taps := by
  intro n x s hwidth htaps t
  have hrnd : rnd = 16384 := rfl
  have hexact : firAcc t n (s.cap (firLine n)) = rnd + firSum t n (s.cap (firLine n)) := by
    apply firAcc_eq_sum
    rw [show t.params.accWidth = 40 from hwidth]
    omega
  calc firOut n x s = accToSample (firAcc t n (s.cap (firLine n))) := rfl
    _ = _ := by rw [hexact, accToSample_eq_max_min]; rfl

end Sys2Proof.Machine
end

section
/-!
PROOFS. The words of the commands that use `UNIT` alone (R131, R134, R136).
-/
namespace Sys2Proof.Machine

theorem mkWord_zero (opc : BitVec 8) (u : BitVec 4) : mkWord opc u 0#16 = opc ++ u ++ 0#20 := by
  rw [mkWord, BitVec.append_assoc]
  rfl

/-- Every word of a row that uses `UNIT` alone, its other fields 0, passes or fails by its unit only. -/
theorem unitWords_of_rowOf {opc : BitVec 8} {units : Nat} {f : BitVec 4 → Instr}
    (hrow : rowOf opc = some (unitRow units f)) : UnitWords opc units f := by
  intro u
  have hword : rowOf (opcOf (mkWord opc u 0#16)) = some (unitRow units f) := by rw [opcOf_mkWord, hrow]
  have hset : ¬ ReservedFieldSet (unitRow units f) (mkWord opc u 0#16) := by
    rw [not_reservedFieldSet_iff, rsvOf_mkWord, immOf_mkWord]
    exact ⟨rfl, nofun, fun _ => rfl⟩
  rw [← mkWord_zero, decode_of_row _ _ hword hset, unitOf_mkWord, immOf_mkWord]
  by_cases hu : u.toNat < units
  · simp [unitRow, unitBeyond, hu, Nat.not_le.2 hu]
  · simp [unitRow, unitBeyond, hu, Nat.not_lt.1 hu]

end Sys2Proof.Machine
end

section
/-!
PROOFS. The delay lines (R250 to R263): which slot an offset names and what it holds after a write, and from that the
seven commands and the reads of R254 and R255.
-/
namespace Sys2Proof.Machine

/-! ## Samples and their patterns (R10) -/

theorem bits16_sext16 (v : Half) : bits16 (sext16 v) = v := BitVec.ofInt_toInt

theorem sext16_bits16 {x : Int} (hx : IsSample x) : sext16 (bits16 x) = x :=
  BitVec.toInt_ofInt_eq_self (by decide) hx.1 (Int.lt_add_one_of_le hx.2)

/-! ## The slot of an offset (R252) -/

theorem slotAt_natCast (C : Nat) (l : DelayLine) (k : Nat) : slotAt C l k = (l.cur + k) % C := by
  rw [slotAt, ← Nat.cast_add, ← Int.natCast_mod, Int.toNat_natCast]

/-- Offsets a capacity apart name one slot (R255). -/
theorem slotAt_add_capacity (C : Nat) (l : DelayLine) (k : Int) : slotAt C l (k + C) = slotAt C l k := by
  rw [slotAt, slotAt, ← add_assoc, Int.add_emod_right]

/-- The slot one position behind the next write's is the cursor's, and so for every offset. -/
theorem prevCursor_add_succ_mod {C cur : Nat} (hcur : cur < C) (k : Nat) :
    (prevCursor C cur + (k + 1)) % C = (cur + k) % C := by
  unfold prevCursor
  split
  next hzero => rw [show C - 1 + (k + 1) = cur + k + C by omega, Nat.add_mod_right]
  next hpos => rw [show cur - 1 + (k + 1) = cur + k by omega]

/-- Other offsets within the capacity name other slots than the cursor's. -/
theorem add_succ_mod_ne_self {C p k : Nat} (hp : p < C) (hk : k + 1 < C) : (p + (k + 1)) % C ≠ p := by
  by_cases hwrap : p + (k + 1) < C
  · rw [Nat.mod_eq_of_lt hwrap]
    omega
  · rw [Nat.mod_eq_sub_mod (by omega), Nat.mod_eq_of_lt (by omega)]
    omega

/-! ## What offsets read after a write (R250, R252) -/

theorem lineAt_lineWrite_zero {C M : Nat} {l : DelayLine} (h : LineOk C M l) {x : Int} (hx : IsSample x) :
    lineAt C (lineWrite C M x l) (0 : Nat) = x := by
  obtain ⟨hlen, hcur, -⟩ := h
  rw [lineAt, slotAt_natCast, lineWrite_cur, add_zero, Nat.mod_eq_of_lt (prevCursor_lt C l.cur hcur), lineSlot,
    lineWrite_getD C M x l hlen hcur, if_pos (.inl rfl), sext16_bits16 hx]

/-- A write moves every older Sample one position back, but for the oldest, which it overwrites. -/
theorem lineAt_lineWrite_succ {C M : Nat} {l : DelayLine} (h : LineOk C M l) (x : Int) {k : Nat} (hk : k + 1 < C) :
    lineAt C (lineWrite C M x l) (k + 1 : Nat) = lineAt C l k := by
  obtain ⟨hlen, hcur, -⟩ := h
  have hne := add_succ_mod_ne_self (prevCursor_lt C l.cur hcur) hk
  rw [prevCursor_add_succ_mod hcur] at hne
  have hring : (l.cur + k) % C < C := Nat.mod_lt _ (by omega)
  rw [lineAt, lineAt, slotAt_natCast, slotAt_natCast, lineWrite_cur, prevCursor_add_succ_mod hcur, lineSlot, lineSlot,
    lineWrite_getD C M x l hlen hcur, if_neg (by omega)]

/-! ## A run of writes (R255) -/

/-- The line after writing the Samples in order. -/
def lineWrites (C M : Nat) (l : DelayLine) (xs : List Int) : DelayLine := xs.foldl (fun l x => lineWrite C M x l) l

theorem lineWrites_concat (C M : Nat) (l : DelayLine) (xs : List Int) (x : Int) :
    lineWrites C M l (xs ++ [x]) = lineWrite C M x (lineWrites C M l xs) := List.foldl_concat ..

theorem lineWrites_ok {C M : Nat} {l : DelayLine} (h : LineOk C M l) (xs : List Int) : LineOk C M (lineWrites C M l xs) :=
  List.foldlRecOn xs _ h fun _ hl x _ => lineWrite_ok C M x _ hl

/-- Samples are read back in reverse order of writing: each further write moves those before it one position back. -/
theorem lineAt_lineWrites {C M : Nat} {l : DelayLine} (h : LineOk C M l) (xs : List Int) (hlen : xs.length ≤ C)
    (hxs : ∀ x ∈ xs, IsSample x) (k : Nat) (hk : k < xs.length) :
    lineAt C (lineWrites C M l xs) k = xs.getD (xs.length - 1 - k) 0 := by
  induction xs using List.reverseRecOn generalizing k with
  | nil => exact absurd hk (Nat.not_lt_zero k)
  | append_singleton ys y ih =>
    have hok := lineWrites_ok h ys
    rw [List.length_append, List.length_singleton] at hlen hk ⊢
    rw [lineWrites_concat]
    cases k with
    | zero =>
      rw [lineAt_lineWrite_zero hok (hxs y (by simp))]
      simp
    | succ k =>
      rw [lineAt_lineWrite_succ hok y (by omega), ih (by omega) (fun x hx => hxs x (by simp [hx])) k (by omega),
        List.getD_append _ _ _ _ (by omega)]
      congr 1
      omega

/-! ## The word-parallel read (R254) -/

/-- Within the mirror, the slot `k` after the cursor holds the Sample of offset `k`: the ring's own slot, or the mirror
of the slot the offset wraps to. -/
theorem lineSlot_cur_add {C M : Nat} {l : DelayLine} (h : LineOk C M l) {k : Nat} (hk : k ≤ M) :
    lineSlot l (l.cur + k) = lineAt C l k := by
  obtain ⟨-, hcur, hmirror⟩ := h
  rw [lineAt, slotAt_natCast]
  by_cases hwrap : l.cur + k < C
  · rw [Nat.mod_eq_of_lt hwrap]
  · obtain ⟨j, hj⟩ := Nat.exists_eq_add_of_le (Nat.le_of_not_lt hwrap)
    rw [hj, Nat.add_mod_left, lineSlot, lineSlot, hmirror j (by omega)]

/-- Settles O16: one induction over the writes (`lineAt_lineWrites`), the period of the slots, and the mirror invariant. -/
theorem readsReverseWriteOrder : Obligations.ReadsReverseWriteOrder := by
  refine ⟨fun C M l xs h hlen hxs k hk => lineAt_lineWrites h xs hlen hxs k hk, fun s u => ?_,
    fun C M l h k hk => lineSlot_cur_add h hk⟩
  rw [dlAt, dlAt, lineAt, lineAt, ← slotAt_add_capacity _ _ 0, zero_add]

/-! ## Commands -/

section Commands
variable {u : BitVec 4} (h : u.toNat < 9) (imm : Half) (s : State)
include h

theorem exec_dlWrite : exec (.dlWrite u) s = .next (dlWrite ⟨u.toNat, h⟩ (opaSample s) s) := onUnit_of_lt _ _ _ _ _ h

theorem exec_dlLatest : exec (.dlLatest u) s = .next (s.setRes (dlLatest s ⟨u.toNat, h⟩)) := onUnit_of_lt _ _ _ _ _ h

theorem exec_dlReadi : exec (.dlReadi u imm) s = .next (s.setRes (dlAt s ⟨u.toNat, h⟩ (sext16 imm))) :=
  onUnit_of_lt _ _ _ _ _ h

theorem exec_dlReadr : exec (.dlReadr u) s = .next (s.setRes (dlAt s ⟨u.toNat, h⟩ (opaInt s))) :=
  onUnit_of_lt _ _ _ _ _ h

theorem exec_dlCursor : exec (.dlCursor u) s = .next (s.setRes (s.line ⟨u.toNat, h⟩).cur) := onUnit_of_lt _ _ _ _ _ h

theorem exec_dlRaw :
    exec (.dlRaw u imm) s = .next (
      if s.cap ⟨u.toNat, h⟩ + s.params.mirror ≤ imm.toNat then raiseError .rawIndex (encode (.dlRaw u imm)) s
      else s.setRes (lineSlot (s.line ⟨u.toNat, h⟩) imm.toNat)) :=
  onUnit_of_lt _ _ _ _ _ h

theorem exec_dlClear :
    exec (.dlClear u) s =
      .next (s.setLine ⟨u.toNat, h⟩ (DelayLine.cleared (s.cap ⟨u.toNat, h⟩) s.params.mirror)) :=
  onUnit_of_lt _ _ _ _ _ h

end Commands

/-- Settles O11: the write's slots are those of `lineWrite_getD`, and its Sample is the operand's pattern. -/
theorem dlWriteStoresAndMirrors : Obligations.DlWriteStoresAndMirrors := by
  refine ⟨unitWords_of_rowOf rfl, ?_⟩
  intro u h s k C ⟨hlen, hcur, _⟩
  refine ⟨lineWrite C s.params.mirror (opaSample s) (s.line k), exec_dlWrite h s, rfl, ?_, fun p hp => ?_⟩
  · rw [lineWrite_length, hlen]
  · rw [lineWrite_getD _ _ _ _ hlen hcur, lineWrite_cur, opaSample, bits16_sext16]
    simp only [hp, true_and]

/-- Settles O12: a Sample goes to `RES` sign-extended. -/
theorem dlLatestAndCursor : Obligations.DlLatestAndCursor :=
  ⟨unitWords_of_rowOf rfl, unitWords_of_rowOf rfl, fun _ h s => ⟨exec_dlLatest h s, exec_dlCursor h s⟩⟩

/-- Settles O13: the slots are those of the two offsets, each in range and congruent by `slotAt_spec`. -/
theorem dlReadsNormaliseOffsets : Obligations.DlReadsNormaliseOffsets := by
  refine ⟨unitWords_of_rowOf rfl, fun u imm h => decodeInvertsEncode (.dlReadi u imm) (decide_eq_true h), ?_⟩
  intro u h imm s k hC
  obtain ⟨hi, hdvdi⟩ := slotAt_spec (s.cap k) hC (s.line k) (sext16 imm)
  obtain ⟨hj, hdvdj⟩ := slotAt_spec (s.cap k) hC (s.line k) (opaInt s)
  exact ⟨_, _, hi, hj, hdvdi, hdvdj, exec_dlReadi h imm s, exec_dlReadr h s⟩

/-- Settles O14: the index check of `exec_dlRaw`, turned round. -/
theorem dlRawReadsSlotOrErrs : Obligations.DlRawReadsSlotOrErrs := by
  refine ⟨fun u imm h => decodeInvertsEncode (.dlRaw u imm) (decide_eq_true h), ?_⟩
  intro u h imm s k
  rw [exec_dlRaw h]
  by_cases hslot : imm.toNat < s.cap k + s.params.mirror
  · rw [if_pos hslot, if_neg (Nat.not_le.2 hslot)]
    rfl
  · rw [if_neg hslot, if_pos (Nat.not_lt.1 hslot)]
    rfl

/-- Settles O15: the cleared line is the initial one, written out. -/
theorem dlClearZeroesLine : Obligations.DlClearZeroesLine :=
  ⟨unitWords_of_rowOf rfl, fun _ h s => exec_dlClear h s⟩

end Sys2Proof.Machine
end

section
/-!
PROOFS. One sample of a FIR through its command (R300, R310).
-/
namespace Sys2Proof.Machine

/-- One more tap: its product is added to the accumulator, which is then clamped to its two bounds (R300). -/
theorem firAcc_succ_eq_max_min (s : State) (n : Fin 2) (taps : Nat) :
    firAcc s n (taps + 1) =
      max (-2 ^ (s.params.accWidth - 1))
        (min (firAcc s n taps + dlAt s (firLine n) taps * s.coef n taps) (2 ^ (s.params.accWidth - 1) - 1)) := by
  rw [firAcc, macStep, satA_eq_max_min]

/-- A FIR reads its line with the input already written (R300). -/
theorem dlAt_firWrite (n : Fin 2) (x k : Int) (s : State) :
    dlAt (firWrite n x s) (firLine n) k =
      lineAt (s.cap (firLine n)) (lineWrite (s.cap (firLine n)) s.params.mirror x (s.line (firLine n))) k := by
  rw [dlAt, firWrite, line_dlWrite, if_pos rfl, cap_dlWrite]

theorem coef_firWrite (n : Fin 2) (x : Int) (s : State) (i : Nat) : (firWrite n x s).coef n i = s.coef n i := rfl

/-- The result of a FIR, written out: the accumulator after every tap, shifted and saturated (R300). -/
theorem firOut_eq_max_min (n : Fin 2) (x : Int) (s : State) :
    firOut n x s = max (-32768) (min ((firAcc (firWrite n x s) n (s.cap (firLine n))).fdiv 32768) 32767) :=
  accToSample_eq_max_min _

theorem exec_firStep {n : BitVec 4} (h : n.toNat < 2) (s : State) :
    exec (.firStep n) s =
      .next ((firNext ⟨n.toNat, h⟩ (opaSample s) s).setRes (firOut ⟨n.toNat, h⟩ (opaSample s) s)) :=
  onUnit_of_lt _ _ _ _ _ h

/-- Settles O17: the accumulator is `firAcc` on the state whose line holds the new input. -/
theorem firStepConvolves : Obligations.FirStepConvolves := by
  refine ⟨unitWords_of_rowOf rfl, ?_⟩
  intro n h s k u N hi l
  refine ⟨firAcc (firWrite k (opaSample s) s) k, rfl, fun i _ => ?_, ?_⟩
  · rw [firAcc_succ_eq_max_min, dlAt_firWrite, coef_firWrite]
    rfl
  · rw [exec_firStep h, firOut_eq_max_min]
    rfl

end Sys2Proof.Machine
end

section
/-!
PROOFS. One sample of a comb and of an allpass through their commands (R350, R351, R370, R371).
-/
namespace Sys2Proof.Machine

theorem mulQ15_eq_fdiv (a b : Int) : mulQ15 a b = (a * b).fdiv 32768 := asr_eq_fdiv (a * b) 15

/-- The value of a comb, written out: the feedback of the oldest Sample is added, then the sum saturates (R350). -/
theorem combOut_eq_max_min (k : Fin 4) (x : Int) (s : State) :
    combOut k x s =
      max (-32768) (min (x + (dlOldest s (combLine k) * combGain s k).fdiv 32768) 32767) := by
  rw [combOut, sat16_eq_max_min, mulQ15_eq_fdiv]

/-- What an allpass stores, written out: the scaled oldest Sample is subtracted, then the difference saturates (R351). -/
theorem apStored_eq_max_min (k : Fin 2) (x : Int) (s : State) :
    apStored k x s =
      max (-32768) (min (x - (dlOldest s (apLine k) * apGain s k).fdiv 32768) 32767) := by
  rw [apStored, sat16_eq_max_min, mulQ15_eq_fdiv]

/-- The value of an allpass, written out: the oldest Sample is added to the scaled stored one, then the sum saturates
(R351). -/
theorem apOut_eq_max_min (k : Fin 2) (x : Int) (s : State) :
    apOut k x s =
      max (-32768) (min ((apStored k x s * apGain s k).fdiv 32768 + dlOldest s (apLine k)) 32767) := by
  rw [apOut, sat16_eq_max_min, mulQ15_eq_fdiv]

theorem exec_combStep {k : BitVec 4} (h : k.toNat < 4) (s : State) :
    exec (.combStep k) s =
      .next ((combNext ⟨k.toNat, h⟩ (opaSample s) s).setRes (combOut ⟨k.toNat, h⟩ (opaSample s) s)) :=
  onUnit_of_lt _ _ _ _ _ h

theorem exec_apStep {k : BitVec 4} (h : k.toNat < 2) (s : State) :
    exec (.apStep k) s =
      .next ((apNext ⟨k.toNat, h⟩ (opaSample s) s).setRes (apOut ⟨k.toNat, h⟩ (opaSample s) s)) :=
  onUnit_of_lt _ _ _ _ _ h

/-- Settles O19: the value that goes to `RES` is the one `combNext` stores, in the form of `combOut_eq_max_min`. -/
theorem combStepFeedsBack : Obligations.CombStepFeedsBack := by
  refine ⟨unitWords_of_rowOf rfl, ?_⟩
  intro k h s u C d y
  have hout : combOut ⟨k.toNat, h⟩ (opaSample s) s = y := combOut_eq_max_min _ _ _
  rw [exec_combStep h, combNext, hout]
  rfl

/-- Settles O20: both saturations are those of `apStored_eq_max_min` and `apOut_eq_max_min`; the second reads the
stored value after the first. -/
theorem apStepFeedsThrough : Obligations.ApStepFeedsThrough := by
  refine ⟨unitWords_of_rowOf rfl, ?_⟩
  intro k h s u C g d w
  have hstored : apStored ⟨k.toNat, h⟩ (opaSample s) s = w := apStored_eq_max_min _ _ _
  rw [exec_apStep h, apNext, apOut_eq_max_min, hstored]
  rfl

end Sys2Proof.Machine
end

section
/-!
PROOFS. `REV.STEP` (R400, R401, R410): the network written out, and the range of its mix.
-/
namespace Sys2Proof.Machine

theorem asr_two_eq_fdiv (v : Int) : asr v 2 = v.fdiv 4 := asr_eq_fdiv v 2

/-- The output of a comb shifted right by 2 is a quarter of a Sample (R401). -/
theorem combOut_fdiv_four_range (k : Fin 4) (x : Int) (s : State) :
    -8192 ≤ (combOut k x s).fdiv 4 ∧ (combOut k x s).fdiv 4 ≤ 8191 := by
  have hsample : IsSample (combOut k x s) := clamp_range _ _ _ (by omega)
  obtain ⟨hlo, hhi⟩ := hsample
  rw [Int.fdiv_eq_ediv_of_nonneg _ (by omega)]
  omega

/-- `REV.STEP` changes the lines and `RES` only (R410). -/
theorem exec_revStep (s : State) :
    exec .revStep s =
      .next { s with lines := (reverbRun (opaSample s) s).1.lines, res := bits32 (reverbRun (opaSample s) s).2 } := by
  have hexec : exec .revStep s = .next ((reverbRun (opaSample s) s).1.setRes (reverbRun (opaSample s) s).2) := rfl
  rw [hexec, reverbRun_eq, State.setRes]

/-- Settles O21: the mix is that of `combsRun_all`, four quarters of Samples, and the frame is `exec_revStep`. -/
theorem revStepRunsNetwork : Obligations.RevStepRunsNetwork := by
  refine ⟨decodeInvertsEncode .revStep rfl, ?_⟩
  intro s x s1 s2 s3 s4 m s5 a s6
  have hmix : combsRun x allCombs 0 s = (s4, m) := by
    simp only [combsRun_all, asr_two_eq_fdiv, Int.zero_add]
    rfl
  have hrun : reverbRun (opaSample s) s = (s6, apOut 1 a s5) := by
    change reverbRun x s = _
    rw [reverbRun, hmix]
  constructor
  · have h0 := combOut_fdiv_four_range 0 x s
    have h1 := combOut_fdiv_four_range 1 x s1
    have h2 := combOut_fdiv_four_range 2 x s2
    have h3 := combOut_fdiv_four_range 3 x s3
    omega
  · rw [exec_revStep, hrun]
    rfl

end Sys2Proof.Machine
end

section
/-!
PROOFS. The network over a buffer (R402). The network is built from its combs and allpasses by two ways of joining
units; over a buffer each join runs one part after the other, because a unit reads and writes its own line only.
-/
namespace Sys2Proof.Machine

/-! ## A write to another line -/

section
variable {u v : Fin 9} (h : v ≠ u) (s : State) (l : DelayLine)
include h

theorem setLine_setLine_comm (l' : DelayLine) : (s.setLine v l).setLine u l' = (s.setLine u l').setLine v l := by
  have hval : v.val ≠ u.val := fun e => h (Fin.ext e)
  simp only [State.setLine, Vector.set_comm _ _ hval]

theorem dlOldest_setLine_other : dlOldest (s.setLine v l) u = dlOldest s u := by
  simp [dlOldest, dlAt, h.symm]

theorem dlWrite_setLine_other (x : Int) : dlWrite u x (s.setLine v l) = (dlWrite u x s).setLine v l := by
  simp only [dlWrite, line_setLine, if_neg h.symm, setLine_setLine_comm h]
  rfl

end

/-! ## Units and their joins -/

/-- One sample of a unit: the state after it and its output, both from the input and the state before it. -/
structure SampleUnit where
  next : Int → State → State
  out : Int → State → Int

namespace SampleUnit

/-- The unit over a buffer. -/
def run (U : SampleUnit) (xs : List Int) (s : State) : State × List Int := runUnit U.next U.out xs s

/-- The unit with its output shifted right by 2, as the mix takes it (R400). -/
def quarter (U : SampleUnit) : SampleUnit := ⟨U.next, fun x s => asr (U.out x s) 2⟩

/-- One comb's output taken into the mix (R400). -/
def addQuarter (m c : Int) : Int := m + asr c 2

/-- `V` on the same input after `U`, its shifted output added to that of `U` (R400). -/
def mixWith (U V : SampleUnit) : SampleUnit :=
  ⟨fun x s => V.next x (U.next x s), fun x s => addQuarter (U.out x s) (V.out x (U.next x s))⟩

/-- `V` on the output of `U`. -/
def series (U V : SampleUnit) : SampleUnit :=
  ⟨fun x s => V.next (U.out x s) (U.next x s), fun x s => V.out (U.out x s) (U.next x s)⟩

/-- The steps of the two units commute and neither changes the other's output. -/
structure Independent (U V : SampleUnit) : Prop where
  next_next : ∀ x y s, U.next x (V.next y s) = V.next y (U.next x s)
  out_next : ∀ x y s, U.out x (V.next y s) = U.out x s
  next_out : ∀ x y s, V.out y (U.next x s) = V.out y s

section
variable {U V W : SampleUnit}

theorem Independent.quarter (h : Independent U W) : Independent U.quarter W where
  next_next := h.next_next
  out_next x y s := by simp only [SampleUnit.quarter, h.out_next]
  next_out := h.next_out

theorem Independent.mixWith (hU : Independent U W) (hV : Independent V W) : Independent (U.mixWith V) W where
  next_next x y s := by simp only [SampleUnit.mixWith, hU.next_next, hV.next_next]
  out_next x y s := by simp only [SampleUnit.mixWith, hU.out_next, hU.next_next, hV.out_next]
  next_out x y s := by simp only [SampleUnit.mixWith, hV.next_out, hU.next_out]

theorem Independent.series (hU : Independent U W) (hV : Independent V W) : Independent (U.series V) W where
  next_next x y s := by simp only [SampleUnit.series, hU.out_next, hU.next_next, hV.next_next]
  out_next x y s := by simp only [SampleUnit.series, hU.out_next, hU.next_next, hV.out_next]
  next_out x y s := by simp only [SampleUnit.series, hV.next_out, hU.next_out]

/-! ## Joins over a buffer -/

theorem run_cons (U : SampleUnit) (x : Int) (xs : List Int) (s : State) :
    U.run (x :: xs) s = ((U.run xs (U.next x s)).1, U.out x s :: (U.run xs (U.next x s)).2) := rfl

theorem run_quarter (U : SampleUnit) (xs : List Int) (s : State) :
    U.quarter.run xs s = ((U.run xs s).1, (U.run xs s).2.map (asr · 2)) := by
  induction xs generalizing s with
  | nil => rfl
  | cons x xs ih => rw [run_cons, run_cons, ih]; rfl

/-- A step of an independent unit may be taken before the buffer or after it. -/
theorem Independent.run_next (h : Independent U V) (xs : List Int) (y : Int) (s : State) :
    U.run xs (V.next y s) = (V.next y (U.run xs s).1, (U.run xs s).2) := by
  induction xs generalizing s with
  | nil => rfl
  | cons x xs ih => simp only [run_cons, h.next_next, h.out_next, ih]

theorem Independent.out_run (h : Independent U V) (xs : List Int) (y : Int) (s : State) :
    V.out y (U.run xs s).1 = V.out y s := by
  induction xs generalizing s with
  | nil => rfl
  | cons x xs ih => rw [run_cons, ih, h.next_out]

/-- The whole buffer through `U`, then the dry buffer through `V`, then the sum of the two outputs. -/
theorem Independent.run_mixWith (h : Independent U V) (xs : List Int) (s : State) :
    (U.mixWith V).run xs s =
      ((V.run xs (U.run xs s).1).1, List.zipWith addQuarter (U.run xs s).2 (V.run xs (U.run xs s).1).2) := by
  induction xs generalizing s with
  | nil => rfl
  | cons x xs ih =>
    have hstep : U.run xs ((U.mixWith V).next x s) = (V.next x (U.run xs (U.next x s)).1, (U.run xs (U.next x s)).2) :=
      h.run_next xs x _
    simp only [run_cons, ih, hstep, h.out_run, List.zipWith_cons_cons]
    rfl

/-- The whole buffer through `U`, then its whole output through `V`. -/
theorem Independent.run_series (h : Independent U V) (xs : List Int) (s : State) :
    (U.series V).run xs s = V.run (U.run xs s).2 (U.run xs s).1 := by
  induction xs generalizing s with
  | nil => rfl
  | cons x xs ih =>
    have hstep : U.run xs ((U.series V).next x s) =
        (V.next (U.out x s) (U.run xs (U.next x s)).1, (U.run xs (U.next x s)).2) := h.run_next xs _ _
    simp only [run_cons, ih, hstep, h.out_run]
    rfl

/-! ## Units on lines of their own -/

/-- The unit reads and writes line `u` and no other line. -/
structure OnLine (U : SampleUnit) (u : Fin 9) : Prop where
  next_eq : ∀ x s, ∃ l, U.next x s = s.setLine u l
  next_setLine : ∀ x s v l, v ≠ u → U.next x (s.setLine v l) = (U.next x s).setLine v l
  out_setLine : ∀ x s v l, v ≠ u → U.out x (s.setLine v l) = U.out x s

theorem OnLine.independent {u v : Fin 9} (hU : U.OnLine u) (hV : V.OnLine v) (huv : u ≠ v) : Independent U V where
  next_next x y s := by
    obtain ⟨l, hl⟩ := hV.next_eq y s
    obtain ⟨l', hl'⟩ := hU.next_eq x s
    rw [hl, hU.next_setLine x s v l huv.symm, hl', hV.next_setLine y s u l' huv, hl, setLine_setLine_comm huv.symm]
  out_next x y s := by
    obtain ⟨l, hl⟩ := hV.next_eq y s
    rw [hl, hU.out_setLine x s v l huv.symm]
  next_out x y s := by
    obtain ⟨l, hl⟩ := hU.next_eq x s
    rw [hl, hV.out_setLine y s u l huv]

end

/-! ## The combs and the allpasses -/

/-- Comb `k` (R350). -/
def comb (k : Fin 4) : SampleUnit := ⟨combNext k, combOut k⟩

/-- Allpass `k` (R351). -/
def allpass (k : Fin 2) : SampleUnit := ⟨apNext k, apOut k⟩

theorem comb_onLine (k : Fin 4) : (comb k).OnLine (combLine k) := by
  have hout (x : Int) (s : State) (v : Fin 9) (l : DelayLine) (hv : v ≠ combLine k) :
      combOut k x (s.setLine v l) = combOut k x s := by
    rw [combOut, dlOldest_setLine_other hv]
    rfl
  refine ⟨fun x s => ⟨_, rfl⟩, fun x s v l hv => ?_, hout⟩
  simp only [comb, combNext, hout x s v l hv, dlWrite_setLine_other hv]

theorem allpass_onLine (k : Fin 2) : (allpass k).OnLine (apLine k) := by
  have hstored (x : Int) (s : State) (v : Fin 9) (l : DelayLine) (hv : v ≠ apLine k) :
      apStored k x (s.setLine v l) = apStored k x s := by
    rw [apStored, dlOldest_setLine_other hv]
    rfl
  refine ⟨fun x s => ⟨_, rfl⟩, fun x s v l hv => ?_, fun x s v l hv => ?_⟩
  · simp only [allpass, apNext, hstored x s v l hv, dlWrite_setLine_other hv]
  · simp only [allpass, apOut, hstored x s v l hv, dlOldest_setLine_other hv]
    rfl

theorem comb_independent_comb {j k : Fin 4} (h : j ≠ k) : Independent (comb j) (comb k) := by
  refine (comb_onLine j).independent (comb_onLine k) fun e => h (Fin.ext ?_)
  have hval : 2 + j.val = 2 + k.val := congrArg Fin.val e
  omega

theorem comb_independent_allpass (j : Fin 4) (k : Fin 2) : Independent (comb j) (allpass k) := by
  refine (comb_onLine j).independent (allpass_onLine k) fun e => ?_
  have hval : 2 + j.val = 6 + k.val := congrArg Fin.val e
  omega

theorem allpass_independent_allpass : Independent (allpass 0) (allpass 1) :=
  (allpass_onLine 0).independent (allpass_onLine 1) (by decide)

/-! ## The network -/

/-- The first two combs and their mix. -/
def mixOfTwo : SampleUnit := (comb 0).quarter.mixWith (comb 1)

/-- The first three combs and their mix. -/
def mixOfThree : SampleUnit := mixOfTwo.mixWith (comb 2)

/-- The four combs and their mix (R400). -/
def mixOfFour : SampleUnit := mixOfThree.mixWith (comb 3)

/-- The network (R400). -/
def network : SampleUnit := (mixOfFour.series (allpass 0)).series (allpass 1)

theorem mixOfFour_eq (x : Int) (s : State) : (mixOfFour.next x s, mixOfFour.out x s) = combsRun x allCombs 0 s := by
  rw [combsRun_all, Int.zero_add]
  rfl

theorem network_eq (x : Int) (s : State) : (network.next x s, network.out x s) = reverbRun x s := by
  rw [reverbRun, ← mixOfFour_eq]
  rfl

theorem mixOfTwo_independent {W : SampleUnit} (h0 : Independent (comb 0) W) (h1 : Independent (comb 1) W) :
    Independent mixOfTwo W := h0.quarter.mixWith h1

theorem mixOfThree_independent {W : SampleUnit} (h0 : Independent (comb 0) W) (h1 : Independent (comb 1) W)
    (h2 : Independent (comb 2) W) : Independent mixOfThree W := (mixOfTwo_independent h0 h1).mixWith h2

theorem mixOfFour_independent_allpass (k : Fin 2) : Independent mixOfFour (allpass k) :=
  (mixOfThree_independent (comb_independent_allpass 0 k) (comb_independent_allpass 1 k)
    (comb_independent_allpass 2 k)).mixWith (comb_independent_allpass 3 k)

/-- The mix of four buffers added comb by comb; it stops with the shortest buffer. -/
theorem mixBuffers_eq_zipWith : ∀ as bs cs ds : List Int,
    mixBuffers as bs cs ds =
      List.zipWith addQuarter (List.zipWith addQuarter (List.zipWith addQuarter (as.map (asr · 2)) bs) cs) ds
  | _ :: as, _ :: bs, _ :: cs, _ :: ds => congrArg (_ :: ·) (mixBuffers_eq_zipWith as bs cs ds)
  | [], _, _, _ | _ :: _, [], _, _ | _ :: _, _ :: _, [], _ | _ :: _, _ :: _, _ :: _, [] => by simp [mixBuffers]

/-- The mix over a buffer is the mix of the buffers: each comb runs after the combs before it (R402). -/
theorem run_mixOfFour (xs : List Int) (s : State) :
    let r0 := (comb 0).run xs s
    let r1 := (comb 1).run xs r0.1
    let r2 := (comb 2).run xs r1.1
    let r3 := (comb 3).run xs r2.1
    mixOfFour.run xs s = (r3.1, mixBuffers r0.2 r1.2 r2.2 r3.2) := by
  have h1 : Independent (comb 0).quarter (comb 1) := (comb_independent_comb (by decide)).quarter
  have h2 : Independent mixOfTwo (comb 2) :=
    mixOfTwo_independent (comb_independent_comb (by decide)) (comb_independent_comb (by decide))
  have h3 : Independent mixOfThree (comb 3) :=
    mixOfThree_independent (comb_independent_comb (by decide)) (comb_independent_comb (by decide))
      (comb_independent_comb (by decide))
  intro r0 r1 r2 r3
  rw [mixBuffers_eq_zipWith, mixOfFour, h3.run_mixWith, mixOfThree, h2.run_mixWith, mixOfTwo, h1.run_mixWith,
    run_quarter]

end SampleUnit

open SampleUnit

/-- Settles O22: the network's two series joins and the joins of its mix run part by part over the buffer. -/
theorem reverbBufferForm : Obligations.ReverbBufferForm := by
  intro xs s
  have hnetwork : runUnit (fun x s => (reverbRun x s).1) (fun x s => (reverbRun x s).2) xs s = network.run xs s := by
    simp only [← network_eq]
    rfl
  have hallpass : Independent (mixOfFour.series (allpass 0)) (allpass 1) :=
    (mixOfFour_independent_allpass 1).series allpass_independent_allpass
  rw [hnetwork, network, hallpass.run_series, (mixOfFour_independent_allpass 0).run_series, run_mixOfFour]
  rfl

end Sys2Proof.Machine
end

section
/-!
PROOFS. The chorus (R450, R451, R452, R470): the order of binary64 patterns other than NaNs, the branches of the sweep's
advance, and the command written out.
-/
namespace Sys2Proof.Machine

/-! ## The order of patterns other than NaNs (R451) -/

/-- Finite values are ordered by their exact values; the infinities lie at the two ends. -/
theorem fLeVal_total : ∀ {x y : FVal}, x ≠ .nan → y ≠ .nan → fLeVal x y = true ∨ fLeVal y x = true
  | .nan, _, hx, _ => absurd rfl hx
  | _, .nan, _, hy => absurd rfl hy
  | .inf a, .inf b, _, _ => by cases a <;> cases b <;> decide
  | .inf false, .fin _ _ _, _, _ => .inr rfl
  | .inf true, .fin _ _ _, _, _ => .inl rfl
  | .fin _ _ _, .inf false, _, _ => .inl rfl
  | .fin _ _ _, .inf true, _, _ => .inr rfl
  | .fin _ _ _, .fin _ _ _, _, _ => by
    rw [fLeVal_fin_iff, fLeVal_fin_iff]
    exact le_total _ _

theorem fUnpack_ne_nan {b : DWord} (h : ¬ fIsNaN b = true) : fUnpack b ≠ .nan :=
  fun hb => h (by rw [fIsNaN, hb])

theorem fLe_total {a b : DWord} (ha : ¬ fIsNaN a = true) (hb : ¬ fIsNaN b = true) :
    fLe a b = true ∨ fLe b a = true :=
  fLeVal_total (fUnpack_ne_nan ha) (fUnpack_ne_nan hb)

theorem fLe_refl {b : DWord} (h : ¬ fIsNaN b = true) : fLe b b = true := (fLe_total h h).elim id id

/-- A comparison that holds has no NaN operand. -/
theorem not_nan_of_fLe {a b : DWord} (h : fLe a b = true) : ¬ fIsNaN a = true ∧ ¬ fIsNaN b = true := by
  rw [← not_or]
  intro hnan
  rw [fLe_of_nan hnan] at h
  exact absurd h (by decide)

theorem fNeg_ne_self (b : DWord) : fNeg b ≠ b := by
  intro h
  have hsign := congrArg BitVec.msb h
  simp at hsign

/-! ## One advance of the sweep (R451) -/

/-- All an advance can do: turn at the upper bound, turn at the lower bound, or move by the step. -/
theorem chAdvance_cases (c : Chorus) :
    let n := fAdd c.sweep c.step
    (fLe c.max n = true ∧ chAdvance c = { c with sweep := c.max, step := fNeg c.step }) ∨
    (¬ fLe c.max n = true ∧ fLe n c.min = true ∧ chAdvance c = { c with sweep := c.min, step := fNeg c.step }) ∨
    (¬ fLe c.max n = true ∧ ¬ fLe n c.min = true ∧ chAdvance c = { c with sweep := n }) := by
  intro n
  by_cases hmax : fLe c.max n = true
  · exact .inl ⟨hmax, if_pos hmax⟩
  · by_cases hmin : fLe n c.min = true
    · exact .inr (.inl ⟨hmax, hmin, (if_neg hmax).trans (if_pos hmin)⟩)
    · exact .inr (.inr ⟨hmax, hmin, (if_neg hmax).trans (if_neg hmin)⟩)

/-- An advance leaves the bounds as they are. -/
theorem chAdvance_bounds (c : Chorus) : (chAdvance c).min = c.min ∧ (chAdvance c).max = c.max := by
  rcases chAdvance_cases c with ⟨-, h⟩ | ⟨-, -, h⟩ | ⟨-, -, h⟩ <;> rw [h] <;> exact ⟨rfl, rfl⟩

/-- A turn leaves the sweep on a bound; otherwise the sum is a number that has not reached either bound, so it lies
between them (R452). -/
theorem chAdvance_sweep_mem {c : Chorus} (hbounds : fLe c.min c.max = true) (hsweep : fIsFinite c.sweep = true)
    (hstep : fIsFinite c.step = true) :
    fLe c.min (chAdvance c).sweep = true ∧ fLe (chAdvance c).sweep c.max = true := by
  obtain ⟨hmin, hmax⟩ := not_nan_of_fLe hbounds
  have hsum := (fAdd_rounded ((fIsFinite_iff _).1 hsweep) ((fIsFinite_iff _).1 hstep)).not_nan
  rcases chAdvance_cases c with ⟨-, h⟩ | ⟨-, -, h⟩ | ⟨habove, hbelow, h⟩ <;> rw [h]
  · exact ⟨hbounds, fLe_refl hmax⟩
  · exact ⟨fLe_refl hmin, hbounds⟩
  · exact ⟨(fLe_total hmin hsum).resolve_right hbelow, (fLe_total hsum hmax).resolve_right habove⟩

/-- The step's sign flips on a turn and on no other advance (R452). -/
theorem chAdvance_step_flips_iff (c : Chorus) :
    (chAdvance c).step = fNeg c.step ↔
      (fLe c.max (fAdd c.sweep c.step) = true ∨ fLe (fAdd c.sweep c.step) c.min = true) := by
  rcases chAdvance_cases c with ⟨hmax, h⟩ | ⟨-, hmin, h⟩ | ⟨hmax, hmin, h⟩ <;> rw [h]
  · exact iff_of_true rfl (.inl hmax)
  · exact iff_of_true rfl (.inr hmin)
  · exact iff_of_false (fNeg_ne_self c.step).symm (not_or.2 ⟨hmax, hmin⟩)

theorem chAdvance_step_or (c : Chorus) : (chAdvance c).step = c.step ∨ (chAdvance c).step = fNeg c.step := by
  rcases chAdvance_cases c with ⟨-, h⟩ | ⟨-, -, h⟩ | ⟨-, -, h⟩ <;> rw [h]
  · exact .inr rfl
  · exact .inr rfl
  · exact .inl rfl

/-- Settles O24: the chorus registers after a sample are those of `chAdvance`. -/
theorem sweepStaysInBounds : Obligations.SweepStaysInBounds := by
  intro x s hbounds hsweep _ _ hstep n c
  obtain ⟨hlo, hhi⟩ := chAdvance_sweep_mem hbounds hsweep hstep
  obtain ⟨hmin, hmax⟩ := chAdvance_bounds s.chorus
  exact ⟨hlo, hhi, hmin, hmax, chAdvance_step_flips_iff s.chorus, chAdvance_step_or s.chorus⟩

/-! ## The command (R470) -/

/-- A line is read with the Sample just written in it (R250, R252). -/
theorem dlAt_dlWrite_same (u : Fin 9) (x k : Int) (s : State) :
    dlAt (dlWrite u x s) u k = lineAt (s.cap u) (lineWrite (s.cap u) s.params.mirror x (s.line u)) k := by
  rw [dlAt, line_dlWrite, if_pos rfl, cap_dlWrite]

/-- `CH.STEP` changes line 8, the chorus registers and `RES` only (R470). -/
theorem exec_chStep (s : State) :
    exec .chStep s =
      .next { s with
        lines := s.lines.set 8 (lineWrite (s.cap 8) s.params.mirror (opaSample s) (s.line 8))
        chorus := chAdvance s.chorus
        res := bits32 (chOut (opaSample s) s) } := rfl

/-- Settles O23: the frame is `exec_chStep`; both neighbours are read from the written line by `dlAt_dlWrite_same`. -/
theorem chStepInterpolatesAndSweeps : Obligations.ChStepInterpolatesAndSweeps := by
  refine ⟨decodeInvertsEncode .chStep rfl, ?_⟩
  intro s x C l c i fr a b wet y n c'
  have hout : chOut (opaSample s) s = y := by
    simp only [chOut, dlAt_dlWrite_same]
    rfl
  rw [exec_chStep, hout]
  rfl

end Sys2Proof.Machine
end

section
/-!
PROOFS. The oscillator (R500, R520, R521): its two constants as values, and its two commands.
-/
namespace Sys2Proof.Machine

/-! ## The constants of `oscStep()` (R500) -/

theorem fUnpack_f32767 : fUnpack f32767 = .fin false (32767 * 2 ^ 38) (-38) := by decide

theorem fUnpack_f2 : fUnpack f2 = .fin false (2 * 2 ^ 51) (-51) := by decide

/-! ## The commands -/

/-- `OSC.STEP` emits the Sample of the state before the step (R500, R520). -/
theorem exec_oscStep (s : State) :
    exec .oscStep s = .next ((s.setOsc (oscAdvance s.osc)).setRes (oscOut s.osc)) := rfl

/-- `OSC.SETFREQ` accepts any two patterns (R502, R521). -/
theorem exec_oscSetfreq (s : State) : exec .oscSetfreq s = .next (s.setOsc ⟨s.fopa, fZero false, s.fopb⟩) := rfl

/-- Settles O25: the words are those of `encode`; each command's next state is that of its own lemma. -/
theorem oscillatorStepsAndSeeds : Obligations.OscillatorStepsAndSeeds := by
  refine ⟨decodeInvertsEncode .oscStep rfl, decodeInvertsEncode .oscSetfreq rfl, fUnpack_f32767, fUnpack_f2,
    fun s => ⟨?_, ?_⟩⟩
  · exact exec_oscStep s
  · exact exec_oscSetfreq s

end Sys2Proof.Machine
end

section
/-!
PROOFS. The output frames of a buffer (R604, R631): a path run over the first frames of the input, frame by frame, and
what it leaves in the RAM words.
-/
namespace Sys2Proof.Machine

/-! ## One frame more (R604) -/

theorem runFrames_concat (path : Word → State → State × Word) (f : Nat) (ws : List Word) (w : Word) (s : State) :
    runFrames path f (ws ++ [w]) s =
      writeOut (f + ws.length) (path w (runFrames path f ws s)).2 (path w (runFrames path f ws s)).1 := by
  induction ws generalizing f s with
  | nil => rfl
  | cons v vs ih =>
    rw [List.cons_append, runFrames, ih, List.length_cons, ← Nat.add_assoc, Nat.add_right_comm]
    rfl

theorem inFrames_succ (s : State) (n : Nat) : inFrames s (n + 1) = inFrames s n ++ [inFrame s n] := by
  simp [inFrames, List.range_succ]

/-- The state after a path has run over the first `n` frames of its effective input. -/
def runBuffer (path : Word → State → State × Word) (s : State) (n : Nat) : State := runFrames path 0 (inFrames s n) s

theorem runBuffer_succ (path : Word → State → State × Word) (s : State) (n : Nat) :
    runBuffer path s (n + 1) =
      writeOut n (path (inFrame s n) (runBuffer path s n)).2 (path (inFrame s n) (runBuffer path s n)).1 := by
  rw [runBuffer, inFrames_succ, runFrames_concat, inFrames_length, Nat.zero_add]
  rfl

/-! ## The RAM words (R83, R102) -/

/-- The RAM list `m'` is `m` with the first `n` words of `OUT_BUF` written: word `f` is `y f`. -/
def WritesOutput (m m' : List Host.Cell) (n : Nat) (y : Nat → Word) : Prop :=
  ∀ x, Memory.get m' x =
    if 0x20000 ≤ x ∧ x < 0x20000 + 4 * n then some (byteOf (y ((x - 0x20000) / 4)) ((x - 0x20000) % 4))
    else Memory.get m x

theorem writesOutput_zero (m : List Host.Cell) (y : Nat → Word) : WritesOutput m m 0 y := fun x => by
  rw [if_neg (by omega)]

theorem WritesOutput.succ {m m' : List Host.Cell} {n : Nat} {y : Nat → Word} (h : WritesOutput m m' n y) :
    WritesOutput m (Memory.setWord m' (outBufOff n) (y n)) (n + 1) y := fun x => by
  rw [Memory.get_setWord, h x, outBufOff]
  by_cases hlast : 0x20000 + 4 * n ≤ x ∧ x < 0x20000 + 4 * n + 4
  · have hword : (x - 0x20000) / 4 = n := by omega
    have hbyte : (x - 0x20000) % 4 = x - (0x20000 + 4 * n) := by omega
    rw [if_pos hlast, if_pos (by omega), hword, hbyte]
  · rw [if_neg hlast]
    exact if_congr (by omega) rfl rfl

theorem WritesOutput.other {m m' : List Host.Cell} {n : Nat} {y : Nat → Word} (h : WritesOutput m m' n y) (x : Nat)
    (hx : ¬ (0x20000 ≤ x ∧ x < 0x20000 + 4 * n)) : Memory.get m' x = Memory.get m x :=
  (h x).trans (if_neg hx)

theorem WritesOutput.byte {m m' : List Host.Cell} {n : Nat} {y : Nat → Word} (h : WritesOutput m m' n y) {f k : Nat}
    (hf : f < n) (hk : k < 4) : Memory.get m' (0x20000 + 4 * f + k) = some (byteOf (y f) k) := by
  have hword : (0x20000 + 4 * f + k - 0x20000) / 4 = f := by omega
  have hbyte : (0x20000 + 4 * f + k - 0x20000) % 4 = k := by omega
  rw [h, if_pos (by omega), hword, hbyte]

/-- A written output word is read as it was written, whatever the contents of the unwritten bytes. -/
theorem WritesOutput.ramWord {m m' : List Host.Cell} {n : Nat} {y : Nat → Word} (h : WritesOutput m m' n y) {t : State}
    (ht : t.mem = m') {f : Nat} (hf : f < n) : t.ramWord (0x20000 + 4 * f) = y f := by
  have hbyte : ∀ k < 4, t.ramByte (0x20000 + 4 * f + k) = byteOf (y f) k := fun k hk => by
    rw [State.ramByte, ht, h.byte hf hk, Option.getD_some]
  have hzero := hbyte 0 (by decide)
  rw [Nat.add_zero] at hzero
  rw [State.ramWord, hbyte 3 (by decide), hbyte 2 (by decide), hbyte 1 (by decide), hzero, byteOf_join]

/-- A path that leaves the RAM words alone writes each frame's output and nothing else. -/
theorem runBuffer_writesOutput (path : Word → State → State × Word) (hmem : ∀ w s, (path w s).1.mem = s.mem) (s : State)
    (n : Nat) :
    WritesOutput s.mem (runBuffer path s n).mem n fun f => (path (inFrame s f) (runBuffer path s f)).2 := by
  induction n with
  | zero => exact writesOutput_zero _ _
  | succ n ih =>
    rw [runBuffer_succ, writeOut, setRam_mem, hmem]
    exact ih.succ

end Sys2Proof.Machine
end

section
/-!
PROOFS. The completion step of a buffer (R600, R602) and the modes other than FILTER (R605 to R607, R609): what each
outputs, and what it leaves unchanged.
-/
namespace Sys2Proof.Machine

/-! ## The completion step (R600) -/

theorem step_sequencer (s : State) (rest : List Event) (hi : s.inbox = .sequencer :: rest) :
    step s = .next (completeProcess { s with inbox := rest }) := step_of_no_command s _ rest hi rfl

/-- The state that a completed buffer leaves. -/
def bufferEnd (u : State) : State := { u.newEpoch with pending := none, intDone := true }

@[simp] theorem bufferEnd_mem (u : State) : (bufferEnd u).mem = u.mem := rfl

theorem completeProcess_of_pending (s : State) (p : Pending) (hp : s.pending = some p) :
    completeProcess s = bufferEnd (processBuffer p.mode p.frames s.newEpoch) := by
  simp only [completeProcess, hp, bufferEnd]

/-- The state in which the effects of a buffer begin, in the sequencer's turn. -/
def bufferStart (s : State) (rest : List Event) : State := { s with inbox := rest, ramEpoch := s.ramEpoch + 1 }

theorem step_completes (s : State) (mode : Mode) (n : Nat) (rest : List Event) (hi : s.inbox = .sequencer :: rest)
    (hp : s.pending = some ⟨mode, n⟩) :
    step s = .next (bufferEnd (processBuffer mode n (bufferStart s rest))) :=
  (step_sequencer s rest hi).trans
    (congrArg _ (completeProcess_of_pending { s with inbox := rest } ⟨mode, n⟩ hp))

/-- The completion of a mode that runs one path over its frames and leaves the RAM words to the output. -/
theorem step_completes_path (s : State) (mode : Mode) (n : Nat) (rest : List Event) (hi : s.inbox = .sequencer :: rest)
    (hp : s.pending = some ⟨mode, n⟩) (path : Word → State → State × Word) (b : Bool)
    (hmem : ∀ w s, (path w s).1.mem = s.mem)
    (hbuf : processBuffer mode n (bufferStart s rest) = (runBuffer path (bufferStart s rest) n).setOutSilent b) :
    ∃ t : State, step s = .next t ∧
      t = bufferEnd ((runBuffer path (bufferStart s rest) n).setOutSilent b) ∧
      (∀ f < n, t.ramWord (0x20000 + 4 * f) =
        (path (inFrame (bufferStart s rest) f) (runBuffer path (bufferStart s rest) f)).2) ∧
      ∀ x, ¬ (0x20000 ≤ x ∧ x < 0x20000 + 4 * n) → Memory.get t.mem x = Memory.get s.mem x := by
  have hout := runBuffer_writesOutput path hmem (bufferStart s rest) n
  refine ⟨_, step_completes s mode n rest hi hp, congrArg bufferEnd hbuf, ?_, ?_⟩
  · rw [hbuf]
    exact fun f hf => hout.ramWord (bufferEnd_mem _) hf
  · rw [hbuf]
    exact hout.other

/-! ## STOPPED and PASS_THROUGH (R605, R606) -/

/-- STOPPED and PASS_THROUGH frames leave the state to the output writes. -/
theorem runBuffer_plain_eq (path : Word → State → State × Word) (hpath : ∀ w s, (path w s).1 = s) (s : State) (n : Nat) :
    ∃ m, runBuffer path s n = { s with mem := m } := ⟨_, runFrames_plain_eq path hpath 0 _ s⟩

theorem inFrame_of_silent (s : State) (f : Nat) (h : s.inSilent = true) : inFrame s f = 0#32 := if_pos h

theorem inFrame_of_not_silent (s : State) (f : Nat) (h : ¬ s.inSilent = true) :
    inFrame s f = s.ramWord (0x10000 + 4 * f) := if_neg h

/-- Settles O35: both modes change the RAM words and the flag only; the output frames are 0 or the effective input. -/
theorem stoppedAndPassBuffers : Obligations.StoppedAndPassBuffers := by
  intro s n mode rest hi hp hmode
  rcases hmode with rfl | rfl
  · obtain ⟨t, hstep, ht, hout, hother⟩ :=
      step_completes_path s .stopped n rest hi hp stoppedFrame true (fun _ _ => rfl) rfl
    obtain ⟨m, hm⟩ := runBuffer_plain_eq stoppedFrame (fun _ _ => rfl) (bufferStart s rest) n
    refine ⟨t, hstep, ?_, fun f hf => ?_, hother⟩
    · rw [ht, hm]; rfl
    · rw [hout f hf, if_pos (.inl rfl)]; rfl
  · obtain ⟨t, hstep, ht, hout, hother⟩ :=
      step_completes_path s .passThrough n rest hi hp passFrame s.inSilent (fun _ _ => rfl) rfl
    obtain ⟨m, hm⟩ := runBuffer_plain_eq passFrame (fun _ _ => rfl) (bufferStart s rest) n
    refine ⟨t, hstep, ?_, fun f hf => ?_, hother⟩
    · rw [ht, hm]; rfl
    · refine (hout f hf).trans ?_
      by_cases hs : s.inSilent = true
      · rw [if_pos (.inr hs)]
        exact inFrame_of_silent (bufferStart s rest) f hs
      · rw [if_neg (by simp [hs])]
        exact inFrame_of_not_silent (bufferStart s rest) f hs

/-! ## SINE_GENERATOR (R607) -/

theorem runBuffer_sine_eq (s : State) (n : Nat) :
    ∃ m, runBuffer sineFrame s n = { s with osc := oscAdvance^[n] s.osc, mem := m } := by
  induction n with
  | zero => exact ⟨s.mem, rfl⟩
  | succ n ih =>
    obtain ⟨m, hm⟩ := ih
    rw [runBuffer_succ, hm, Function.iterate_succ_apply']
    exact ⟨_, rfl⟩

/-- Settles O36: before frame `f` the oscillator has made `f` steps. -/
theorem sineBuffer : Obligations.SineBuffer := by
  intro s n rest hi hp
  obtain ⟨t, hstep, ht, hout, hother⟩ :=
    step_completes_path s .sineGenerator n rest hi hp sineFrame false (fun _ _ => rfl) rfl
  refine ⟨t, hstep, ?_, fun f hf => ?_, hother⟩
  · obtain ⟨m, hm⟩ := runBuffer_sine_eq (bufferStart s rest) n
    rw [ht, hm]; rfl
  · obtain ⟨m, hm⟩ := runBuffer_sine_eq (bufferStart s rest) f
    rw [hout f hf, hm]; rfl

/-! ## TEST (R609) -/

theorem runBuffer_test_eq (s : State) (n : Nat) :
    ∃ m, runBuffer testFrame s n = { s with lines := (runBuffer testFrame s n).lines, mem := m } :=
  ⟨_, runFrames_test_eq 0 _ s⟩

theorem testFrame_mem (w : Word) (s : State) : (testFrame w s).1.mem = s.mem := by
  rw [testFrame, reverbRun_eq]

/-- The network before frame `f`, where the RAM words that the frames before it wrote play no part. -/
theorem runBuffer_test_lines_succ (s : State) (f : Nat) :
    (runBuffer testFrame s (f + 1)).lines =
      (reverbRun (mono (inFrame s f)) { s with lines := (runBuffer testFrame s f).lines }).1.lines := by
  obtain ⟨m, hm⟩ := runBuffer_test_eq s f
  rw [runBuffer_succ, hm]
  rfl

theorem testFrame_runBuffer (s : State) (f : Nat) :
    (testFrame (inFrame s f) (runBuffer testFrame s f)).2 =
      stereo (reverbRun (mono (inFrame s f)) { s with lines := (runBuffer testFrame s f).lines }).2 := by
  obtain ⟨m, hm⟩ := runBuffer_test_eq s f
  rw [hm]
  rfl

/-- Settles O37: the lines before frame `f` are those of the network run over the frames before it. -/
theorem reverbBuffer : Obligations.ReverbBuffer := by
  intro s n rest hi hp
  obtain ⟨t, hstep, ht, hout, hother⟩ :=
    step_completes_path s .test n rest hi hp testFrame false testFrame_mem rfl
  refine ⟨t, fun f => (runBuffer testFrame (bufferStart s rest) f).lines, hstep, rfl, fun f hf => ⟨?_, ?_⟩, ?_, hother⟩
  · exact runBuffer_test_lines_succ (bufferStart s rest) f
  · exact (hout f hf).trans (testFrame_runBuffer (bufferStart s rest) f)
  · obtain ⟨m, hm⟩ := runBuffer_test_eq (bufferStart s rest) n
    rw [ht, hm]
    rfl

end Sys2Proof.Machine
end

section
/-!
PROOFS. The FILTER path (R608, R611): as a path of both FIRs over the frames, with the sum of their differences.
-/
namespace Sys2Proof.Machine

/-! ## One frame (R300, R608) -/

/-- The effect of one FILTER frame: both FIRs run on its left channel, FIR A's Sample is the output. -/
def firFrame (w : Word) (s : State) : State × Word :=
  (firNext 1 (mono w) (firNext 0 (mono w) s), stereo (firOut 0 (mono w) s))

theorem firFrame_fst_eq (w : Word) (s : State) :
    (firFrame w s).1 = { s with lines := (firFrame w s).1.lines, ramEpoch := s.ramEpoch + 2 } := by
  simp only [firFrame, firNext, firWrite, dlWrite, State.setLine, State.newEpoch]

theorem firFrame_mem (w : Word) (s : State) : (firFrame w s).1.mem = s.mem := rfl

/-- The difference that one FILTER frame adds. -/
def firFrameDiff (w : Word) (s : State) : Nat :=
  rectifiedDiff (firOut 0 (mono w) s) (firOut 1 (mono w) (firNext 0 (mono w) s))

/-- FILTER runs its frames as the other modes run theirs. -/
theorem filterRun_fst (f : Nat) (ws : List Word) (d : Nat) (s : State) :
    (filterRun f ws d s).1 = runFrames firFrame f ws s := by
  induction ws generalizing f d s with
  | nil => rfl
  | cons w ws ih => exact ih _ _ _

theorem filterRun_snd_concat (f : Nat) (ws : List Word) (w : Word) (d : Nat) (s : State) :
    (filterRun f (ws ++ [w]) d s).2 =
      (filterRun f ws d s).2 + firFrameDiff w (runFrames firFrame f ws s) := by
  induction ws generalizing f d s with
  | nil => rfl
  | cons v vs ih => exact ih _ _ _

/-- The sum over the frames of a buffer, each with the units as the frames before it left them. -/
theorem filterRun_snd (s : State) (n : Nat) :
    (filterRun 0 (inFrames s n) 0 s).2 =
      ((List.range n).map fun f => firFrameDiff (inFrame s f) (runBuffer firFrame s f)).sum := by
  induction n with
  | zero => rfl
  | succ n ih =>
    rw [inFrames_succ, filterRun_snd_concat, ih, List.range_succ, List.map_append, List.sum_append]
    simp [runBuffer]

theorem filterPath_eq_runBuffer (n : Nat) (s : State) :
    filterPath n s =
      { runBuffer firFrame s n with
        filtDiff := BitVec.ofNat 32 (filterRun 0 (inFrames s n) 0 s).2
        outSilent := filterSilent (filterRun 0 (inFrames s n) 0 s).2 s.filtThresh } := by
  rw [filterPath, filterRun_fst, runBuffer]

theorem filterPath_filtDiff (n : Nat) (s : State) :
    (filterPath n s).filtDiff = BitVec.ofNat 32 (filterRun 0 (inFrames s n) 0 s).2 := rfl

theorem filterPath_outSilent (n : Nat) (s : State) :
    (filterPath n s).outSilent = filterSilent (filterRun 0 (inFrames s n) 0 s).2 s.filtThresh := rfl

theorem filterPath_writesOutput (n : Nat) (s : State) :
    WritesOutput s.mem (filterPath n s).mem n fun f => (firFrame (inFrame s f) (runBuffer firFrame s f)).2 := by
  rw [filterPath_eq_runBuffer]
  exact runBuffer_writesOutput firFrame firFrame_mem s n

/-! ## The coefficients are apart from the output (R104) -/

section
variable {m m' : List Host.Cell} (h : ∀ x < 0x20000, Memory.get m' x = Memory.get m x) (s : State) (n : Fin 2)
include h

theorem coef_of_mem_agree {i : Nat} (hi : i < 1024) : { s with mem := m' }.coef n i = { s with mem := m }.coef n i := by
  have hn := n.isLt
  have hbyte : ∀ k < 4, { s with mem := m' }.ramByte (coefOff n i + k) = { s with mem := m }.ramByte (coefOff n i + k) :=
    fun k hk => by simp only [State.ramByte]; rw [h _ (by rw [coefOff]; omega)]
  have hzero := hbyte 0 (by decide)
  rw [Nat.add_zero] at hzero
  simp only [State.coef, State.coefWord, State.ramWord, hzero, hbyte 1 (by decide), hbyte 2 (by decide),
    hbyte 3 (by decide)]

theorem firAcc_of_mem_agree {taps : Nat} (htaps : taps ≤ 1024) :
    firAcc { s with mem := m' } n taps = firAcc { s with mem := m } n taps := by
  induction taps with
  | zero => rfl
  | succ taps ih =>
    rw [firAcc, firAcc, ih (by omega), coef_of_mem_agree h s n (by omega)]
    rfl

theorem firOut_of_mem_agree (hcap : s.cap (firLine n) ≤ 1024) (x : Int) :
    firOut n x { s with mem := m' } = firOut n x { s with mem := m } :=
  congrArg accToSample (firAcc_of_mem_agree h (firWrite n x s) n hcap)

end

theorem cap_firLine_le_of_ok {p : Params} (h : p.Ok) (n : Fin 2) : p.cap (firLine n) ≤ 1024 := by
  obtain ⟨-, -, ⟨-, htaps⟩, hA, hB, -⟩ := h
  match n with
  | 0 => exact le_trans hA htaps
  | 1 => exact le_trans hB htaps

/-! ## Frame by frame -/

/-- The FIRs before frame `f`: only their lines have moved, and the epoch of the unwritten RAM words by two a frame. -/
theorem runBuffer_fir_eq (s : State) (f : Nat) :
    ∃ m, runBuffer firFrame s f =
      { s with lines := (runBuffer firFrame s f).lines, ramEpoch := s.ramEpoch + 2 * f, mem := m } := by
  induction f with
  | zero => exact ⟨s.mem, rfl⟩
  | succ f ih =>
    obtain ⟨m, hm⟩ := ih
    generalize (runBuffer firFrame s f).lines = ls at hm
    rw [runBuffer_succ, hm, firFrame_fst_eq]
    generalize (firFrame _ _).1.lines = ls'
    generalize (firFrame _ _).2 = y
    exact ⟨_, rfl⟩

/-- The FIRs before frame `f` over the RAM words of the buffer's start. -/
def firStart (s : State) (f : Nat) : State :=
  { s with lines := (runBuffer firFrame s f).lines, ramEpoch := s.ramEpoch + 2 * f }

theorem firNext_withMem (n : Fin 2) (x : Int) (s : State) (m : List Host.Cell) :
    firNext n x { s with mem := m } = { firNext n x s with mem := m } := rfl

/-- The output frames written so far leave the coefficients as they were (R104). -/
theorem runBuffer_fir_agrees (s : State) (f : Nat) :
    ∃ m, runBuffer firFrame s f = { firStart s f with mem := m } ∧
      ∀ y < 0x20000, Memory.get m y = Memory.get s.mem y := by
  obtain ⟨m, hm⟩ := runBuffer_fir_eq s f
  have hmem : (runBuffer firFrame s f).mem = m := by rw [hm]
  exact ⟨m, hm, fun y hy => hmem ▸ (runBuffer_writesOutput firFrame firFrame_mem s f).other y (by omega)⟩

/-- The lines before the next frame are those of both FIRs run on this one. -/
theorem runBuffer_fir_lines_succ (s : State) (f : Nat) :
    (runBuffer firFrame s (f + 1)).lines =
      (firNext 1 (mono (inFrame s f)) (firNext 0 (mono (inFrame s f)) (firStart s f))).lines := by
  obtain ⟨m, hm, -⟩ := runBuffer_fir_agrees s f
  rw [runBuffer_succ, hm, firFrame, firNext_withMem, firNext_withMem]
  rfl

section
variable (s : State) (hok : s.params.Ok) (f : Nat)
include hok

theorem firFrame_runBuffer :
    (firFrame (inFrame s f) (runBuffer firFrame s f)).2 =
      stereo (firOut 0 (mono (inFrame s f)) (firStart s f)) := by
  obtain ⟨m, hm, hagree⟩ := runBuffer_fir_agrees s f
  rw [hm, firFrame]
  exact congrArg stereo (firOut_of_mem_agree hagree (firStart s f) 0 (cap_firLine_le_of_ok hok 0) _)

theorem firFrameDiff_runBuffer :
    firFrameDiff (inFrame s f) (runBuffer firFrame s f) =
      rectifiedDiff (firOut 0 (mono (inFrame s f)) (firStart s f))
        (firOut 1 (mono (inFrame s f)) (firNext 0 (mono (inFrame s f)) (firStart s f))) := by
  obtain ⟨m, hm, hagree⟩ := runBuffer_fir_agrees s f
  rw [hm, firFrameDiff, firNext_withMem]
  exact congrArg₂ rectifiedDiff (firOut_of_mem_agree hagree (firStart s f) 0 (cap_firLine_le_of_ok hok 0) _)
    (firOut_of_mem_agree hagree (firNext 0 _ (firStart s f)) 1 (cap_firLine_le_of_ok hok 1) _)

end

/-- Settles O38: frame by frame, FIR A's output and the difference; the sum is at most `2^29`, so `FILT_DIFF` holds it. -/
theorem filterPathIntegratesDifference : Obligations.FilterPathIntegratesDifference := by
  intro s n hok hn
  refine ⟨fun f => (runBuffer firFrame s f).lines, fun f => firOut 0 (mono (inFrame s f)) (firStart s f),
    fun f => firOut 1 (mono (inFrame s f)) (firNext 0 (mono (inFrame s f)) (firStart s f)), rfl,
    fun f _ => ⟨rfl, rfl, runBuffer_fir_lines_succ s f⟩, ?_⟩
  intro t diff
  have hsum : (filterRun 0 (inFrames s n) 0 s).2 = diff := by
    rw [filterRun_snd]
    exact congrArg List.sum (List.map_congr_left fun f _ => firFrameDiff_runBuffer s hok f)
  have hfilt : t.filtDiff = BitVec.ofNat 32 diff := hsum ▸ filterPath_filtDiff n s
  have hflag : t.outSilent = filterSilent diff s.filtThresh := hsum ▸ filterPath_outSilent n s
  have hlines : (filterPath n s).lines = (runBuffer firFrame s n).lines := by rw [filterPath_eq_runBuffer]
  have hbound : diff ≤ n * 32768 := by
    have hle := filterRun_diff_le 0 (inFrames s n) 0 s
    rw [hsum, inFrames_length] at hle
    omega
  have hmax := maxFrames_le_of_ok hok
  have hwritten := filterPath_writesOutput n s
  refine ⟨fun f hf => (hwritten.ramWord rfl hf).trans (firFrame_runBuffer s hok f), ?_, hbound, ?_, ?_,
    hwritten.other⟩
  · rw [hfilt, BitVec.toNat_ofNat]
    exact Nat.mod_eq_of_lt (by omega)
  · rw [hflag]
    exact decide_eq_true_iff
  · exact (filterPath_eq n s).trans (by rw [hlines])

end Sys2Proof.Machine
end

section
/-!
PROOFS. The diagnostic machine (R620 to R623): a FILTER buffer is the path, run once, beside one move of the machine.
-/
namespace Sys2Proof.Machine

/-! ## Updates of the machine's own fields -/

theorem leaveWarmup_eq_withDiagOf (s : State) : leaveWarmup s = withDiagOf s (leaveWarmup s) := by
  unfold leaveWarmup
  split <;> rfl

theorem timerStop_eq_withDiagOf (k : Fin 2) (s : State) : timerStop k s = withDiagOf s (timerStop k s) := by
  rw [timerStop_eq]
  split <;> rfl

/-- Whatever changes the machine's own fields only commutes with the path. -/
theorem filterPath_of_eq_withDiagOf (n : Nat) {s t : State} (h : t = withDiagOf s t) :
    filterPath n t = withDiagOf (filterPath n s) t := by
  conv_lhs => rw [h]
  exact filterPath_withDiagOf n s t

theorem filterPath_eq_withDiagOf (n : Nat) (s : State) : filterPath n s = withDiagOf (filterPath n s) s :=
  filterPath_of_eq_withDiagOf n rfl

/-! ## The buffer of each phase -/

theorem warmupBuffer_eq (n : Nat) (s : State) :
    warmupBuffer n s = withDiagOf (filterPath n s) { s with diagCount := s.diagCount + 1#16 } := by
  rw [warmupBuffer, filterPath_eq_withDiagOf]
  rfl

/-- The moves of the timers in SAMPLING_A, with no path between them (R621). -/
def samplingATimers (s : State) : State := timerStop 0 (timerStart 0 (timerStart 1 s))

theorem timer_timerStart (k : Fin 2) (s : State) (j : Fin 2) :
    (timerStart k s).timer j = if j = k then timerStarted s.nextCycle (s.timer k) else s.timer j := by
  rw [timerStart, timer_setTimer]
  rfl

theorem timerStop_of_running (k : Fin 2) (s : State) (h : (s.timer k).running = true) :
    timerStop k s = s.readCycle.setTimer k (timerStopped s.params.perfSamples s.nextCycle (s.timer k)) := if_pos h

/-- A started timer runs, so its stop takes the third counter read. -/
theorem samplingATimers_eq (s : State) :
    samplingATimers s =
      (timerStart 0 (timerStart 1 s)).readCycle.setTimer 0
        (timerRecord s.params.perfSamples (s.readCycle.readCycle.nextCycle - s.readCycle.nextCycle)
          { s.timer 0 with start := s.readCycle.nextCycle, running := false }) := by
  have ht : (timerStart 0 (timerStart 1 s)).timer 0 = timerStarted s.readCycle.nextCycle (s.timer 0) := by
    rw [timer_timerStart, if_pos rfl, timer_timerStart, if_neg (by decide)]
    rfl
  rw [samplingATimers, timerStop_of_running 0 _ (by rw [ht]; rfl), ht]
  rfl

/-- The counter reads of SAMPLING_A are those of its two starts and its stop, in that order. -/
theorem samplingATimers_fields (s : State) :
    (samplingATimers s).diagCount = s.diagCount ∧ (samplingATimers s).draws = s.draws + 3 ∧
      (samplingATimers s).cycle = s.readCycle.readCycle.nextCycle ∧ (samplingATimers s).perfFrames = s.perfFrames ∧
      (samplingATimers s).timer 1 = timerStarted s.nextCycle (s.timer 1) ∧
      (samplingATimers s).timer 0 =
        timerRecord s.params.perfSamples (s.readCycle.readCycle.nextCycle - s.readCycle.nextCycle)
          { s.timer 0 with start := s.readCycle.nextCycle, running := false } := by
  rw [samplingATimers_eq]
  refine ⟨by simp, by simp [timerStart], by simp [timerStart, State.nextCycle], by simp [timerStart], ?_, ?_⟩
  · rw [timer_setTimer, if_neg (by decide), timer_readCycle, timer_timerStart, if_neg (by decide), timer_timerStart,
      if_pos rfl]
  · rw [timer_setTimer, if_pos rfl]

theorem timerStop_withDiagOf (k : Fin 2) (s t : State) (hp : s.params = t.params) :
    timerStop k (withDiagOf s t) = withDiagOf s (timerStop k t) := by
  have hstep : timerStop k (withDiagOf s t) =
      if (t.timer k).running then
        (withDiagOf s t).readCycle.setTimer k (timerStopped s.params.perfSamples t.nextCycle (t.timer k))
      else withDiagOf s t := rfl
  rw [hstep, timerStop, hp]
  split <;> rfl

theorem samplingABuffer_eq (n : Nat) (s : State) :
    samplingABuffer n s = withDiagOf (filterPath n s) { samplingATimers s with diagState := .samplingB } := by
  have hstart : timerStart 0 (timerStart 1 s) = withDiagOf s (timerStart 0 (timerStart 1 s)) := rfl
  rw [samplingABuffer, filterPath_of_eq_withDiagOf n hstart,
    timerStop_withDiagOf _ _ _ (by rw [filterPath_params, timerStart_params, timerStart_params])]
  rfl

/-- A pair of buffers is counted, and the machine settles or samples again (R622). -/
def countPair (n : Nat) (s : State) : State :=
  { s with
    diagCount := s.diagCount + 1#16, perfFrames := BitVec.ofNat 32 n,
    diagState := if s.params.perfSamples ≤ (s.diagCount + 1#16).toNat then .settled else .samplingA }

theorem countPair_withDiagOf (n : Nat) (s t : State) (hp : s.params = t.params) :
    countPair n (withDiagOf s t) = withDiagOf s (countPair n t) := by
  simp only [countPair, withDiagOf, hp]

theorem samplingBBuffer_eq (n : Nat) (s : State) :
    samplingBBuffer n s = withDiagOf (filterPath n s) (countPair n (timerStop 1 s)) := by
  have hcount : samplingBBuffer n s = countPair n (filterPath n (timerStop 1 s)) := rfl
  rw [hcount, filterPath_of_eq_withDiagOf n (timerStop_eq_withDiagOf 1 s), countPair_withDiagOf]
  rw [filterPath_params, timerStop_params]

/-! ## The phase of a buffer (R620) -/

/-- A buffer measures: the machine is in SAMPLING_A, or its warm-up has elapsed. -/
abbrev EntersSamplingA (s : State) : Prop :=
  s.diagState = .samplingA ∨ (s.diagState = .warmingUp ∧ s.params.warmupBuffers ≤ s.diagCount.toNat)

theorem leaveWarmup_of_stays (s : State) (h : ¬ (s.diagState = .warmingUp ∧ s.params.warmupBuffers ≤ s.diagCount.toNat)) :
    leaveWarmup s = s := if_neg h

theorem leaveWarmup_of_entersSamplingA (s : State) (h : EntersSamplingA s) :
    leaveWarmup s =
      { s with diagState := .samplingA, diagCount := if s.diagState = .samplingA then s.diagCount else 0#16 } := by
  rcases h with hd | ⟨hd, hc⟩
  · rw [leaveWarmup_of_stays s (by simp [hd]), if_pos hd, ← hd]
  · rw [if_neg (by simp [hd])]
    exact if_pos ⟨hd, hc⟩

theorem filterBuffer_warmingUp (n : Nat) (s : State) (hd : s.diagState = .warmingUp)
    (hc : s.diagCount.toNat < s.params.warmupBuffers) :
    filterBuffer n s = withDiagOf (filterPath n s) { s with diagCount := s.diagCount + 1#16 } := by
  have hstay := leaveWarmup_of_stays s fun h => absurd h.2 (Nat.not_le.2 hc)
  rw [← warmupBuffer_eq]
  simp only [filterBuffer, hstay, hd]

theorem filterBuffer_samplingA (n : Nat) (s : State) (h : EntersSamplingA s) :
    filterBuffer n s =
      withDiagOf (filterPath n s) { samplingATimers (leaveWarmup s) with diagState := .samplingB } := by
  have hd : (leaveWarmup s).diagState = .samplingA := by rw [leaveWarmup_of_entersSamplingA s h]
  have hbuf : filterBuffer n s = samplingABuffer n (leaveWarmup s) := by simp only [filterBuffer, hd]
  rw [hbuf, samplingABuffer_eq, filterPath_of_eq_withDiagOf n (leaveWarmup_eq_withDiagOf s)]
  rfl

theorem filterBuffer_samplingB (n : Nat) (s : State) (hd : s.diagState = .samplingB) :
    filterBuffer n s = withDiagOf (filterPath n s) (countPair n (timerStop 1 s)) := by
  have hstay := leaveWarmup_of_stays s (by simp [hd])
  rw [← samplingBBuffer_eq]
  simp only [filterBuffer, hstay, hd]

theorem filterBuffer_settled (n : Nat) (s : State) (hd : s.diagState = .settled) :
    filterBuffer n s = withDiagOf (filterPath n s) s := by
  have hstay := leaveWarmup_of_stays s (by simp [hd])
  rw [← filterPath_eq_withDiagOf]
  simp only [filterBuffer, hstay, hd]

/-- Whatever the phase, a buffer is the path, run once, and changes of the machine's own fields. -/
theorem filterBuffer_eq_withDiagOf (n : Nat) (s : State) : ∃ d, filterBuffer n s = withDiagOf (filterPath n s) d := by
  cases hd : s.diagState with
  | warmingUp =>
    rcases Nat.lt_or_ge s.diagCount.toNat s.params.warmupBuffers with hc | hc
    · exact ⟨_, filterBuffer_warmingUp n s hd hc⟩
    · exact ⟨_, filterBuffer_samplingA n s (.inr ⟨hd, hc⟩)⟩
  | samplingA => exact ⟨_, filterBuffer_samplingA n s (.inl hd)⟩
  | samplingB => exact ⟨_, filterBuffer_samplingB n s hd⟩
  | settled => exact ⟨_, filterBuffer_settled n s hd⟩

/-- Settles O39: the step is `step_completes`; each phase is the path beside the move that its own lemma names. -/
theorem diagnosticMachineSteps : Obligations.DiagnosticMachineSteps := by
  intro s n t entersA
  obtain ⟨d, hd⟩ := filterBuffer_eq_withDiagOf n s
  refine ⟨fun rest hi hp => step_completes s .filter n rest hi hp, ?path, ?frame, ?warmingUp, ?samplingA, ?samplingB,
    ?settled⟩
  case path => simp only [t, hd]; exact ⟨rfl, rfl, rfl, rfl⟩
  case frame => simp only [t, hd]; rfl
  case warmingUp =>
    rintro ⟨hw, hc⟩
    simp only [t, filterBuffer_warmingUp n s hw hc]
    exact ⟨hw, rfl, rfl, rfl, rfl, rfl⟩
  case samplingA =>
    intro h
    simp only [t, filterBuffer_samplingA n s h, leaveWarmup_of_entersSamplingA s h]
    exact ⟨rfl, samplingATimers_fields _⟩
  case samplingB =>
    intro hb
    simp only [t, filterBuffer_samplingB n s hb]
    refine ⟨?_, rfl, rfl, rfl, rfl, ?_⟩
    · exact congrArg (· + 1#16) (timerStop_diagCount 1 s)
    · simp [withDiagOf, countPair]
  case settled =>
    intro hs
    simp only [t, filterBuffer_settled n s hs]
    exact ⟨hs, rfl, rfl, rfl, rfl, rfl⟩

end Sys2Proof.Machine
end

section
/-!
PROOFS. All modes together (R603 to R609): a completed buffer is full (R631, R703, R830), and a mode advances only the
units of its path (R612, R624).
-/
namespace Sys2Proof.Machine

/-! ## The effect of a buffer (R612) -/

/-- What a buffer of each mode can do to a state: the updates it makes, with any values. -/
inductive BufferEffect (s : State) : Mode → State → Prop
  | stopped (m : List Host.Cell) (b : Bool) : BufferEffect s .stopped { s with mem := m, outSilent := b }
  | passThrough (m : List Host.Cell) (b : Bool) : BufferEffect s .passThrough { s with mem := m, outSilent := b }
  | filter (ls : Vector DelayLine 9) (m : List Host.Cell) (e : Nat) (w : Word) (b : Bool) (d : State)
      (hother : ∀ u : Fin 9, 2 ≤ u.val → ls[u] = s.line u) :
      BufferEffect s .filter
        (withDiagOf { s with lines := ls, mem := m, ramEpoch := e, filtDiff := w, outSilent := b } d)
  | sineGenerator (o : Osc) (m : List Host.Cell) (b : Bool) :
      BufferEffect s .sineGenerator { s with osc := o, mem := m, outSilent := b }
  | test (ls : Vector DelayLine 9) (m : List Host.Cell) (b : Bool)
      (hother : ∀ u : Fin 9, u.val ≤ 1 ∨ u.val = 8 → ls[u] = s.line u) :
      BufferEffect s .test { s with lines := ls, mem := m, outSilent := b }

theorem firNext_line_other (n : Fin 2) (x : Int) (s : State) (u : Fin 9) (hu : 2 ≤ u.val) :
    (firNext n x s).line u = s.line u := by
  have hne : u ≠ firLine n := by rintro rfl; simp only [firLine] at hu; omega
  exact (line_dlWrite (firLine n) x s u).trans (if_neg hne)

/-- FILTER writes the two FIRs' lines only. -/
theorem filterPath_line_other (n : Nat) (s : State) (u : Fin 9) (hu : 2 ≤ u.val) :
    (filterPath n s).line u = s.line u :=
  filterRun_keeps (fun t => t.line u = s.line u) n
    (fun k x t ht => (firNext_line_other k x t u hu).trans ht) (fun _ _ _ _ ht => ht)
    (inFrames s n) 0 0 s (by simp) rfl

/-- TEST writes the lines of the combs and the allpasses only. -/
theorem testPath_line_other (n : Nat) (s : State) (u : Fin 9) (hu : u.val ≤ 1 ∨ u.val = 8) :
    (testPath n s).line u = s.line u :=
  runFrames_keeps (fun t => t.line u = s.line u) testFrame n
    (fun w t ht => (reverbRun_line_other (mono w) t u hu).trans ht) (fun _ _ _ _ ht => ht)
    (inFrames s n) 0 s (by simp) rfl

theorem filterBuffer_effect (n : Nat) (s : State) : BufferEffect s .filter (filterBuffer n s) := by
  obtain ⟨d, hd⟩ := filterBuffer_eq_withDiagOf n s
  rw [hd, filterPath_eq]
  exact .filter _ _ _ _ _ d (filterPath_line_other n s)

/-- All that a buffer can do. -/
theorem processBuffer_effect (mode : Mode) (n : Nat) (s : State) : BufferEffect s mode (processBuffer mode n s) := by
  cases mode with
  | stopped => rw [processBuffer, stoppedPath, runFrames_plain_eq _ fun _ _ => rfl]; exact .stopped _ _
  | passThrough => rw [processBuffer, passPath, runFrames_plain_eq _ fun _ _ => rfl]; exact .passThrough _ _
  | filter => exact filterBuffer_effect n s
  | sineGenerator => rw [processBuffer, sinePath, runFrames_sine_eq]; exact .sineGenerator _ _ _
  | test =>
    have hother := testPath_line_other n s
    rw [testPath] at hother
    rw [processBuffer, testPath, runFrames_test_eq]
    exact .test _ _ _ hother

section EffectOn
variable {s t : State} {mode : Mode}

theorem BufferEffect.untouched (h : BufferEffect s mode t) :
    t.chorus = s.chorus ∧ t.acc = s.acc ∧ t.res = s.res ∧ t.errCode = s.errCode := by
  cases h <;> exact ⟨rfl, rfl, rfl, rfl⟩

theorem BufferEffect.osc_eq (h : BufferEffect s mode t) (hsine : mode ≠ .sineGenerator) : t.osc = s.osc := by
  cases h
  case sineGenerator => exact absurd rfl hsine
  all_goals rfl

theorem BufferEffect.diag_eq (h : BufferEffect s mode t) (hfilter : mode ≠ .filter) :
    t.diagState = s.diagState ∧ t.diagCount = s.diagCount ∧ t.timers = s.timers ∧ t.filtDiff = s.filtDiff ∧
      t.cycle = s.cycle ∧ t.draws = s.draws := by
  cases h
  case filter => exact absurd rfl hfilter
  all_goals exact ⟨rfl, rfl, rfl, rfl, rfl, rfl⟩

/-- A FIR's line moves in FILTER only, a comb's or an allpass's in TEST only, the chorus's in no mode. -/
theorem BufferEffect.line_eq (h : BufferEffect s mode t) (u : Fin 9) (hfilter : mode = .filter → 2 ≤ u.val)
    (htest : mode = .test → u.val ≤ 1 ∨ u.val = 8) : t.line u = s.line u := by
  cases h
  case filter ls _ _ _ _ _ hother => exact hother u (hfilter rfl)
  case test ls _ _ hother => exact hother u (htest rfl)
  all_goals rfl

end EffectOn

/-! ## Full output (R631) -/

theorem filterBuffer_mem (n : Nat) (s : State) : (filterBuffer n s).mem = (filterPath n s).mem := by
  obtain ⟨d, hd⟩ := filterBuffer_eq_withDiagOf n s
  rw [hd, withDiagOf]

/-- Every mode writes its output frames and no other RAM byte. -/
theorem processBuffer_writesOutput (mode : Mode) (n : Nat) (s : State) :
    ∃ y, WritesOutput s.mem (processBuffer mode n s).mem n y := by
  cases mode with
  | stopped => exact ⟨_, runBuffer_writesOutput stoppedFrame (fun _ _ => rfl) s n⟩
  | passThrough => exact ⟨_, runBuffer_writesOutput passFrame (fun _ _ => rfl) s n⟩
  | filter => exact ⟨_, filterBuffer_mem n s ▸ filterPath_writesOutput n s⟩
  | sineGenerator => exact ⟨_, runBuffer_writesOutput sineFrame (fun _ _ => rfl) s n⟩
  | test => exact ⟨_, runBuffer_writesOutput testFrame testFrame_mem s n⟩

theorem completeProcess_idle (s : State) (h : s.pending = none) : completeProcess s = s := by
  simp only [completeProcess, h]

theorem step_empty (s : State) (h : s.inbox = []) : step s = .next (completeProcess s) := by
  simp only [step, h]

/-- The sequencer's turn, called or with no access left, completes the pending buffer (R830). -/
theorem step_turn (s : State) (rest : List Event) (hi : s.inbox = .sequencer :: rest ∨ (s.inbox = [] ∧ rest = [])) :
    step s = .next (completeProcess { s with inbox := rest }) := by
  rcases hi with hi | ⟨hi, rfl⟩
  · exact step_sequencer s rest hi
  · rw [step_empty s hi, ← hi]

/-- Settles O40: both ways of the sequencer's turn are `step_turn`; every byte written is there by `WritesOutput.byte`. -/
theorem outputBufferIsAlwaysFull : Obligations.OutputBufferIsAlwaysFull := by
  refine ⟨fun s rest hp => ⟨fun hi => ?_, fun hi => ?_⟩, fun s => ?_, fun s p rest hi hp => ?_⟩
  · rw [step_sequencer s rest hi, completeProcess_idle { s with inbox := rest } hp]
  · rw [step_empty s hi, completeProcess_idle s hp]
  · exact (step_empty _ rfl).trans (step_sequencer { s with inbox := [.sequencer] } [] rfl).symm
  · obtain ⟨y, hy⟩ := processBuffer_writesOutput p.mode p.frames (bufferStart s rest)
    obtain ⟨-, -, -, herr⟩ := (processBuffer_effect p.mode p.frames (bufferStart s rest)).untouched
    refine ⟨_, step_turn s rest hi, (completeProcess_spec _).2, ?_⟩
    rw [completeProcess_of_pending { s with inbox := rest } p hp]
    refine ⟨rfl, rfl, herr, fun f hf k hk => ?_⟩
    rw [bufferEnd_mem]
    exact Option.ne_none_iff_exists'.2 ⟨_, hy.byte hf hk⟩

/-- Settles O41, mode by mode from the effect of the buffer. -/
theorem modesAdvanceOnlyTheirUnits : Obligations.ModesAdvanceOnlyTheirUnits := by
  intro mode n s t
  have e : BufferEffect s mode t := processBuffer_effect mode n s
  obtain ⟨hchorus, hacc, hres, -⟩ := e.untouched
  refine ⟨hchorus, e.line_eq 8 (fun _ => by decide) (fun _ => .inr rfl), hacc, hres, fun hf => ⟨?_, ?_, e.diag_eq hf⟩,
    fun ht u hu => ?_, e.osc_eq⟩
  · exact e.line_eq 0 (absurd · hf) fun _ => .inl (by decide)
  · exact e.line_eq 1 (absurd · hf) fun _ => .inl (by decide)
  · exact e.line_eq u (fun _ => hu) (absurd · ht)

end Sys2Proof.Machine
end

section
/-!
PROOFS. The timers' commands (R552 to R554, R570 to R574) and the trimmed mean (R560).
-/
namespace Sys2Proof.Machine

/-! ## Elapsed cycles (R553, R573) -/

/-- The cycles between two counter reads, modulo `2^64`, saturated to 32 bits. -/
theorem satCycles_sub (v start : DWord) :
    satCycles (v - start) =
      BitVec.ofNat 32 (min ((v.toNat + 2 ^ 64 - start.toNat) % 2 ^ 64) 4294967295) := by
  have hstart := start.isLt
  have helapsed : 2 ^ 64 - start.toNat + v.toNat = v.toNat + 2 ^ 64 - start.toNat := by omega
  rw [satCycles, BitVec.toNat_sub, helapsed]
  rfl

/-! ## Commands -/

section Commands
variable {t : BitVec 4} (h : t.toNat < 2) (s : State)
include h

theorem exec_perfStart : exec (.perfStart t) s = .next (timerStart ⟨t.toNat, h⟩ s) := onUnit_of_lt _ _ _ _ _ h

theorem exec_perfStop : exec (.perfStop t) s = .next (timerStop ⟨t.toNat, h⟩ s) := onUnit_of_lt _ _ _ _ _ h

theorem exec_perfClear : exec (.perfClear t) s = .next (timerClear ⟨t.toNat, h⟩ s) := onUnit_of_lt _ _ _ _ _ h

end Commands

theorem timerStop_of_stopped (k : Fin 2) (s : State) (h : (s.timer k).running = false) : timerStop k s = s :=
  if_neg (by simp [h])

theorem timerStopped_of_full (m : Nat) (v : DWord) (x : Timer) (h : ¬ x.count < m) :
    timerStopped m v x = { x with running := false } := if_neg h

theorem timerStopped_of_not_full (m : Nat) (v : DWord) (x : Timer) (h : x.count < m) :
    timerStopped m v x =
      ⟨x.start, false, x.count + 1, x.samples.set x.count (satCycles (v - x.start))⟩ := if_pos h

/-- Settles O29: the command is `timerStart` on its unit. -/
theorem perfStartLatches : Obligations.PerfStartLatches :=
  ⟨unitWords_of_rowOf rfl, fun _ h s => exec_perfStart h s⟩

/-- Settles O30: a running timer is stopped, and records unless its list is full. -/
theorem perfStopRecords : Obligations.PerfStopRecords := by
  refine ⟨unitWords_of_rowOf rfl, ?_⟩
  intro t h s k T e
  rw [exec_perfStop h]
  by_cases hrun : T.running = false
  · rw [if_pos hrun, timerStop_of_stopped k s hrun]
  rw [if_neg hrun, timerStop_of_running k s (Bool.eq_true_of_not_eq_false hrun)]
  by_cases hfull : T.count < s.params.perfSamples
  · rw [if_pos hfull, timerStopped_of_not_full _ _ _ hfull, satCycles_sub]
    rfl
  · rw [if_neg hfull, timerStopped_of_full _ _ _ hfull]
    rfl

/-- Both timers written, one after the other. -/
theorem set_zero_set_one (ts : Vector Timer 2) (x y : Timer) : (ts.set 0 x).set 1 y = #v[x, y] := by
  apply Vector.ext
  intro i hi
  interval_cases i <;> simp

theorem exec_diagReset (s : State) :
    exec .diagReset s =
      .next { s with
        timers := (s.timers.set 0 (Timer.cleared s.params.perfSamples)).set 1 (Timer.cleared s.params.perfSamples)
        diagState := .warmingUp, diagCount := 0#16, perfFrames := 0#32 } := rfl

/-- Settles O31: the cleared timer is the initial one, written out. -/
theorem perfClearAndDiagReset : Obligations.PerfClearAndDiagReset := by
  refine ⟨unitWords_of_rowOf rfl, decodeInvertsEncode .diagReset rfl, fun t h s => exec_perfClear h s, ?_⟩
  intro s T
  rw [exec_diagReset, set_zero_set_one]
  rfl

theorem exec_perfCalibrate (s : State) :
    exec .perfCalibrate s =
      .next { s with
        perfCal := satCycles (s.readCycle.nextCycle - s.nextCycle), cycle := s.readCycle.nextCycle,
        draws := s.draws + 2 } := rfl

/-- Settles O32: the difference of the two reads is that of `satCycles_sub`. -/
theorem perfCalibrateMeasures : Obligations.PerfCalibrateMeasures := by
  refine ⟨decodeInvertsEncode .perfCalibrate rfl, ?_⟩
  intro s c1 c2
  rw [exec_perfCalibrate, satCycles_sub]

/-! ## The trimmed mean (R560) -/

theorem insertAsc_eq_orderedInsert (x : Nat) (l : List Nat) : insertAsc x l = l.orderedInsert (· ≤ ·) x := by
  induction l with
  | nil => rfl
  | cons y ys ih => rw [insertAsc, ih, List.orderedInsert]

theorem sortAsc_eq_insertionSort (l : List Nat) : sortAsc l = l.insertionSort (· ≤ ·) := by
  induction l with
  | nil => rfl
  | cons x xs ih => rw [sortAsc, ih, insertAsc_eq_orderedInsert, List.insertionSort_cons]

/-- There is one ascending arrangement. -/
theorem sortAsc_eq_of_perm {l v : List Nat} (hperm : v.Perm l) (hasc : v.Pairwise (· ≤ ·)) : sortAsc l = v := by
  rw [sortAsc_eq_insertionSort]
  exact ((List.perm_insertionSort _ l).trans hperm.symm).eq_of_pairwise' (List.pairwise_insertionSort _ l) hasc

theorem take_drop_eq_map_getD (v : List Nat) (a k : Nat) (h : a + k ≤ v.length) :
    (v.drop a).take k = (List.range k).map fun i => v.getD (a + i) 0 := by
  apply List.ext_getElem
  · simp only [List.length_take, List.length_drop, List.length_map, List.length_range]
    omega
  · intro i _ hi
    rw [List.length_map, List.length_range] at hi
    rw [List.getElem_take, List.getElem_drop, List.getElem_map, List.getElem_range,
      List.getD_eq_getElem _ _ (by omega)]

theorem trimmedMean_of_ne_nil {l : List Nat} (hl : l ≠ []) (cal : Nat) :
    trimmedMean l cal =
      (((sortAsc l).drop (l.length / 10)).take (l.length - 2 * (l.length / 10))).sum
        / (l.length - 2 * (l.length / 10)) - cal :=
  if_neg (mt List.length_eq_zero_iff.1 hl)

theorem perfMean_mem_fixedRegs : ∀ t, Reg.perfMean t ∈ fixedRegs := by decide

/-- A step that reads `PERF_Tn_MEAN` in an idle block logs the mean and changes nothing else. -/
theorem step_read_perfMean (s : State) (a : Actor) (t : Fin 2) (rest : List Event)
    (hi : s.inbox = .read a (s.params.base + 0x118 + 4 * t.val) 4 :: rest) (hidle : s.busy = false) :
    step s = .next { s with inbox := rest, readLog := ⟨a, s.meanWord t⟩ :: s.readLog } := by
  rw [Nat.add_assoc] at hi
  have hm : Mapped s.params (.perfMean t) := mapped_of_mem_fixedRegs _ _ (perfMean_mem_fixedRegs t)
  exact step_read_plain s a (.perfMean t) rest hm (by simp [hidle]) (by simp [hidle]) nofun hi

/-- Settles O33: the ascending arrangement is unique (`sortAsc_eq_of_perm`), so the kept samples are the given one's. -/
theorem trimmedMeanOfSortedSamples : Obligations.TrimmedMeanOfSortedSamples := by
  refine ⟨fun _ => rfl, fun l v cal hl hperm hasc => ?_, step_read_perfMean⟩
  have hpos : 0 < l.length := List.length_pos_iff.2 hl
  have hlen : v.length = l.length := hperm.length_eq
  refine ⟨by omega, ?_⟩
  rw [trimmedMean_of_ne_nil hl, sortAsc_eq_of_perm hperm hasc, take_drop_eq_map_getD v _ _ (by omega)]

end Sys2Proof.Machine
end

section
/-!
PROOFS. `NOP` (R640), the acceptance of `PROCESS` (R600, R601) and the soft reset (R801).
-/
namespace Sys2Proof.Machine

/-- Settles O6: the command does nothing, and the step around it latches its word. -/
theorem nopChangesOnlyCmd : Obligations.NopChangesOnlyCmd := by
  have hword : decode 0x00000000#32 = .ok .nop := decodeInvertsEncode .nop rfl
  exact ⟨hword, fun _ => rfl, fun s a rest hi hidle => stepRunsDecodedCommand s a _ rest .nop hi hidle hword⟩

theorem execProcess_accepted (s : State) (h : 1 ≤ s.frames.toNat ∧ s.frames.toNat ≤ s.params.maxFrames) :
    execProcess s = .next { s with modeLatched := s.mode, pending := some ⟨s.mode, s.frames.toNat⟩ } :=
  if_neg (by omega)

theorem execProcess_rejected (s : State) (h : ¬ (1 ≤ s.frames.toNat ∧ s.frames.toNat ≤ s.params.maxFrames)) :
    execProcess s = .next (raiseError .framesRange (encode .process) s) := if_pos (by omega)

/-- Settles O34: the two outcomes of the check of the frame count. -/
theorem processAcceptance : Obligations.ProcessAcceptance :=
  ⟨decodeInvertsEncode .process rfl, fun s => ⟨execProcess_accepted s, execProcess_rejected s⟩⟩

/-- A step that serves a write of `CTRL` resets the block if bit 0 is set, busy or idle. -/
theorem step_write_ctrl (s : State) (a : Actor) (v : Word) (rest : List Event)
    (hi : s.inbox = .write a (s.params.base + 0x08) 4 v :: rest) :
    step s = .next (
      if v.getLsbD 0 then softReset { s with inbox := rest, ramEpoch := s.ramEpoch + 1 }
      else { s with inbox := rest, ramEpoch := s.ramEpoch + 1 }) :=
  step_write s a .ctrl v rest (mapped_of_mem_fixedRegs _ _ (by decide)) (by decide) (by simp [writeAccess]) hi

theorem softReset_softReset (s : State) : softReset (softReset s) = softReset s := rfl

/-- Settles O54: the reset state is `softReset`, which a second reset leaves as it is. -/
theorem softResetAbandonsAndKeepsRam : Obligations.SoftResetAbandonsAndKeepsRam := by
  intro s a v rest hi
  have hstep := step_write_ctrl s a v rest hi
  refine ⟨fun hv => ?_, fun hv => ?_⟩
  · rw [if_pos hv] at hstep
    exact ⟨_, hstep, rfl, rfl, rfl, rfl, softReset_softReset _, rfl, rfl, rfl, rfl⟩
  · rw [if_neg (Bool.eq_false_iff.1 hv)] at hstep
    exact hstep

end Sys2Proof.Machine
end
